-- ==== Sys2Proof/Word.lean ====
section
/-!
DEFINITION. The two widths the block computes in (00_scope.md R10): a byte is 8 bits, a word is 32 bits.
Arithmetic on a register value wraps modulo 2^32, which is `BitVec` arithmetic; lengths and offsets are
summed in unbounded integers, which is `Nat` arithmetic on `toNat`.
-/

namespace Sys2Proof

/-- A byte (R10). -/
abbrev Byte := BitVec 8

/-- A 32-bit register value (R10). -/
abbrev Word := BitVec 32

end Sys2Proof
end

