-- ==== Sys2Proof/Config.lean ====
section
/-!
DEFINITION. What an implementation fixes: the parameters of 00_scope.md R7, the wire constants of R9, and
the values the spec leaves free. The parameters are plain data and stand in State (log entry 6); the
values the spec leaves open altogether are opaque constants, so that nothing can be proved of them.
-/

namespace Sys2Proof

/-- `CKSUM_WORD_ORDER` (R7, 41_checksum.md R170). -/
inductive CksumOrder where
  | le
  | be
  deriving DecidableEq, Repr, Inhabited

/-- The values of the map `PID_CLASS` (R7, 42_parser.md R205). -/
inductive PidClass where
  | data
  | cmd
  | ack
  deriving DecidableEq, Repr, Inhabited

/-- The parameters of R7. `SONY_FRAME` and `SPARTN_FRAME` are functions and stand below as constants.
`pidTable` and `pidDefault` hold the total map `PID_CLASS`: the class of a byte is that of the first pair
that lists it, and `pidDefault` for every byte no pair lists (log entry 7). -/
structure Params where
  /-- `NCH`, the number of channels -/
  nch : Nat
  /-- `CAP_MAX`, the largest ring-buffer capacity INIT accepts -/
  capMax : Nat
  /-- `DMEM_SIZE` -/
  dmemSize : Nat
  /-- `MAX_BODY` -/
  maxBody : Nat
  /-- `MAX_DATASET` -/
  maxDataset : Nat
  /-- `ESC_KEY` -/
  escKey : Byte
  /-- `ESC_SET`, the members in any order -/
  escSet : List Byte
  /-- `CKSUM_WORD_ORDER` -/
  cksumOrder : CksumOrder
  /-- the pairs of `PID_CLASS` -/
  pidTable : List (Byte × PidClass)
  /-- the class of every packet id the table does not list -/
  pidDefault : PidClass
  deriving DecidableEq, Repr

/-- The default column of R7's table, with the `PID_CLASS` of R205. -/
def Params.default : Params where
  nch := 2
  capMax := 4096
  dmemSize := 8192
  maxBody := 1024
  maxDataset := 1024
  escKey := 0xFD
  escSet := [0x0A, 0x24, 0xB5, 0xD3, 0xFD, 0xFE, 0xFF]
  cksumOrder := .le
  pidTable := [(1, .ack), (2, .ack), (4, .data), (5, .data)]
  pidDefault := .cmd

/-- What `SONY_FRAME` and `SPARTN_FRAME` answer (42_parser.md R210). -/
inductive ForeignVerdict where
  | needMore
  | bad
  | good
  deriving DecidableEq, Repr, Inhabited

namespace Config

/-- `START_V1` (R9). -/
def startV1 : Byte := 0xFF
/-- `START_V2` (R9). -/
def startV2 : Byte := 0xEF
/-- `STOP` (R9). -/
def stop : Byte := 0xFE
/-- `SEED` (R9). -/
def seed : Word := 0x00AAAAAA
/-- `ASCII_START` (R9). -/
def asciiStart : Byte := 0x24
/-- `ASCII_END` (R9). -/
def asciiEnd : Byte := 0x0A
/-- `UBX_SYNC1` (R9). -/
def ubxSync1 : Byte := 0xB5
/-- `UBX_SYNC2` (R9). -/
def ubxSync2 : Byte := 0x62
/-- `RTCM3_START` (R9). -/
def rtcm3Start : Byte := 0xD3
/-- `SPARTN_START` (R9). -/
def spartnStart : Byte := 0x73
/-- `SONY_START` (R9). -/
def sonyStart : Byte := 0x7F
/-- The ISB header length (R9). -/
def isbHeaderLength : Nat := 4
/-- The ISB footer length (R9). -/
def isbFooterLength : Nat := 4

/-- `SONY_FRAME` (R7, R210): OPEN. It sees the candidate's bytes and the channel's capacity `C`, and
nothing else (R210 law 1). No body, so that a claim holds for every lawful choice (log entry 8). -/
opaque sonyFrame : List Byte → Nat → ForeignVerdict

/-- `SPARTN_FRAME` (R7, R210): OPEN, as `sonyFrame`. -/
opaque spartnFrame : List Byte → Nat → ForeignVerdict

/-- The draw of DMEM byte `a` at reset number `e` (10_state.md R43, 70_reset_and_hazards.md R281): an
unconstrained value, fixed at reset (log entry 3). `dmemDraw e a`. -/
opaque dmemDraw : Nat → Nat → Byte

/-- The draw of byte `i` of channel `c`'s ring buffer at reset number `e` (10_state.md R42,
70_reset_and_hazards.md R281), as `dmemDraw` (log entry 4). `rbDraw e c i`. -/
opaque rbDraw : Nat → Nat → Nat → Byte

end Config

end Sys2Proof
end

