-- ==== Sys2Proof/Syntax.lean ====
section
/-!
DEFINITION. The sixteen commands of the block (30_encoding.md R118), one constructor per row of
spec/opcode_table.json, in the table's order. A field has exactly the width its format gives it (R111),
so no command with an operand out of its field can be written down.
-/

namespace Sys2Proof

/-- The ISB version ENCODE writes, `VER` of R114: 0 writes `START_V1`, 1 writes `START_V2`. -/
inductive Version where
  | v1
  | v2
  deriving DecidableEq, Repr

/-- A command. `ch` is the CH field, `w[23:20]` (R113). -/
inductive Instr where
  /-- NOP, format N (R140) -/
  | nop
  /-- INIT ch, format C (R141) -/
  | init (ch : BitVec 4)
  /-- SET_MASK ch, mask, format CM (R144) -/
  | setMask (ch : BitVec 4) (mask : BitVec 7)
  /-- APPEND ch, format C (R146) -/
  | append (ch : BitVec 4)
  /-- FREE ch, format C (R148) -/
  | free (ch : BitVec 4)
  /-- PARSE_BYTE ch, byte, format CB (R213) -/
  | parseByte (ch : BitVec 4) (byte : Byte)
  /-- PARSE ch, format C (R212) -/
  | parse (ch : BitVec 4)
  /-- CKSUM, format N (R175) -/
  | cksum
  /-- CRC24, format N (R176) -/
  | crc24
  /-- GETBITS, format N (R177) -/
  | getbits
  /-- ENCODE ch, v1 or v2, format CV (R232) -/
  | encode (ch : BitVec 4) (ver : Version)
  /-- DECODE, format N (R238) -/
  | decode
  /-- DECODE_BYTE, format N (R240) -/
  | decodeByte
  /-- DECODE_FOOTER, format N (R243) -/
  | decodeFooter
  /-- ENC_ENABLE b, format B (R245) -/
  | encEnable (b : Bool)
  /-- SET_HOST_ORDER b, format B (R246) -/
  | setHostOrder (b : Bool)
  deriving DecidableEq, Repr

end Sys2Proof
end

