-- ==== Sys2Proof/WellFormed.lean ====
section
/-!
DEFINITION. Well-formedness of the two things a model of this block is given: a choice of parameters
(00_scope.md R7 and R8) and a command (30_encoding.md R111). A parameter choice that fails a check is
refused (R8; `Machine.step`). A command's fields have the widths of its format, so every command passes.
-/

namespace Sys2Proof

/-- R7: `NCH` lies in 1..16. -/
def Params.nchOk (p : Params) : Bool := decide (1 ≤ p.nch ∧ p.nch ≤ 16)

/-- R7: `CAP_MAX` lies in 1..1048576. -/
def Params.capMaxOk (p : Params) : Bool := decide (1 ≤ p.capMax ∧ p.capMax ≤ 1048576)

/-- R7: `DMEM_SIZE` lies in 1..1048576. -/
def Params.dmemSizeOk (p : Params) : Bool := decide (1 ≤ p.dmemSize ∧ p.dmemSize ≤ 1048576)

/-- R7: `MAX_BODY` lies in 0..65535. -/
def Params.maxBodyOk (p : Params) : Bool := decide (p.maxBody ≤ 65535)

/-- R7: `MAX_DATASET` lies in 0..2^32-1. -/
def Params.maxDatasetOk (p : Params) : Bool := decide (p.maxDataset < 2 ^ 32)

/-- R8 law (1): `ESC_KEY`, `STOP` and `START_V1` are members of `ESC_SET`. -/
def Params.escLaw1 (p : Params) : Bool :=
  p.escSet.contains p.escKey && p.escSet.contains Config.stop && p.escSet.contains Config.startV1

/-- R8 law (2): the complement of a member of `ESC_SET` is not a member. -/
def Params.escLaw2 (p : Params) : Bool := p.escSet.all fun x => !p.escSet.contains (~~~x)

/-- A parameter choice a model accepts (R7, R8). -/
def Params.lawful (p : Params) : Bool :=
  p.nchOk && p.capMaxOk && p.dmemSizeOk && p.maxBodyOk && p.maxDatasetOk && p.escLaw1 && p.escLaw2

/-- R111: each operand fits the field its format gives it. -/
def Instr.wf : Instr → Bool
  | .nop => true
  | .init ch => decide (ch.toNat < 16)
  | .setMask ch mask => decide (ch.toNat < 16 ∧ mask.toNat < 128)
  | .append ch => decide (ch.toNat < 16)
  | .free ch => decide (ch.toNat < 16)
  | .parseByte ch byte => decide (ch.toNat < 16 ∧ byte.toNat < 256)
  | .parse ch => decide (ch.toNat < 16)
  | .cksum => true
  | .crc24 => true
  | .getbits => true
  | .encode ch _ => decide (ch.toNat < 16)
  | .decode => true
  | .decodeByte => true
  | .decodeFooter => true
  | .encEnable _ => true
  | .setHostOrder _ => true

/-- The types of the fields are the fields of the formats: no ill-formed command exists. -/
theorem Instr.wf_always (i : Instr) : i.wf = true := by
  cases i <;> simp [Instr.wf] <;> omega

end Sys2Proof
end

