-- ==== Sys2Proof/Decode.lean ====
section
/-!
DEFINITION. Command decoding and encoding (30_encoding.md R110 to R118). Decoding is total on 32-bit
words: a word is a command, or it is illegal for one of the two reasons of R110 (steps 2 and 3), each of
which the block reports as ILLEGAL_CMD (R120, R253).
-/

namespace Sys2Proof

/-- `OPC` of each command (R118). -/
def Instr.opcode : Instr → Byte
  | .nop => 0x00
  | .init _ => 0x01
  | .setMask _ _ => 0x02
  | .append _ => 0x03
  | .free _ => 0x04
  | .parseByte _ _ => 0x05
  | .parse _ => 0x06
  | .cksum => 0x10
  | .crc24 => 0x11
  | .getbits => 0x12
  | .encode _ _ => 0x20
  | .decode => 0x21
  | .decodeByte => 0x22
  | .decodeFooter => 0x23
  | .encEnable _ => 0x30
  | .setHostOrder _ => 0x31

/-- Why a word is illegal (R110): its OPC is in no row of R118 (step 2), or the format of its OPC marks a
bit reserved that is 1 in the word (step 3). -/
inductive Illegal where
  | unassignedOpcode (opc : Byte)
  | reservedBits (opc : Byte)
  deriving DecidableEq, Repr

/-- `OPC = w[31:24]` (R110). -/
def wordOpc (w : Word) : Byte := w.extractLsb' 24 8

/-- `CH = w[23:20]` (R110, R113). -/
def wordCh (w : Word) : BitVec 4 := w.extractLsb' 20 4

/-- `VER = w[0]` (R114). -/
def wordVer (w : Word) : Version := if w.getLsbD 0 then .v2 else .v1

/-- R110 step 3 for format N: `w[23:0]` is reserved. -/
def formatN (w : Word) (i : Instr) : Except Illegal Instr :=
  if w.extractLsb' 0 24 = 0 then .ok i else .error (.reservedBits (wordOpc w))

/-- R110 step 3 for format C: `w[19:0]` is reserved. -/
def formatC (w : Word) (f : BitVec 4 → Instr) : Except Illegal Instr :=
  if w.extractLsb' 0 20 = 0 then .ok (f (wordCh w)) else .error (.reservedBits (wordOpc w))

/-- R110 step 3 for format CB: `w[19:8]` is reserved, `BYTE = w[7:0]`. -/
def formatCB (w : Word) (f : BitVec 4 → Byte → Instr) : Except Illegal Instr :=
  if w.extractLsb' 8 12 = 0 then .ok (f (wordCh w) (w.extractLsb' 0 8)) else .error (.reservedBits (wordOpc w))

/-- R110 step 3 for format CM: `w[19:7]` is reserved, `MASK = w[6:0]`. -/
def formatCM (w : Word) (f : BitVec 4 → BitVec 7 → Instr) : Except Illegal Instr :=
  if w.extractLsb' 7 13 = 0 then .ok (f (wordCh w) (w.extractLsb' 0 7)) else .error (.reservedBits (wordOpc w))

/-- R110 step 3 for format CV: `w[19:1]` is reserved, `VER = w[0]`. -/
def formatCV (w : Word) (f : BitVec 4 → Version → Instr) : Except Illegal Instr :=
  if w.extractLsb' 1 19 = 0 then .ok (f (wordCh w) (wordVer w)) else .error (.reservedBits (wordOpc w))

/-- R110 step 3 for format B: `w[23:1]` is reserved, `B = w[0]`. -/
def formatB (w : Word) (f : Bool → Instr) : Except Illegal Instr :=
  if w.extractLsb' 1 23 = 0 then .ok (f (w.getLsbD 0)) else .error (.reservedBits (wordOpc w))

/-- R110: what a word written to CMD stands for. -/
def decode (w : Word) : Except Illegal Instr :=
  if wordOpc w = 0x00 then formatN w .nop
  else if wordOpc w = 0x01 then formatC w .init
  else if wordOpc w = 0x02 then formatCM w .setMask
  else if wordOpc w = 0x03 then formatC w .append
  else if wordOpc w = 0x04 then formatC w .free
  else if wordOpc w = 0x05 then formatCB w .parseByte
  else if wordOpc w = 0x06 then formatC w .parse
  else if wordOpc w = 0x10 then formatN w .cksum
  else if wordOpc w = 0x11 then formatN w .crc24
  else if wordOpc w = 0x12 then formatN w .getbits
  else if wordOpc w = 0x20 then formatCV w .encode
  else if wordOpc w = 0x21 then formatN w .decode
  else if wordOpc w = 0x22 then formatN w .decodeByte
  else if wordOpc w = 0x23 then formatN w .decodeFooter
  else if wordOpc w = 0x30 then formatB w .encEnable
  else if wordOpc w = 0x31 then formatB w .setHostOrder
  else .error (.unassignedOpcode (wordOpc w))

/-- The operand bits of a word (R111): CH in [23:20] and the immediate in [19:0]. -/
def operandBits : Instr → BitVec 24
  | .nop => 0
  | .init ch => ch ++ (0 : BitVec 20)
  | .setMask ch mask => ch ++ (0 : BitVec 13) ++ mask
  | .append ch => ch ++ (0 : BitVec 20)
  | .free ch => ch ++ (0 : BitVec 20)
  | .parseByte ch byte => ch ++ (0 : BitVec 12) ++ byte
  | .parse ch => ch ++ (0 : BitVec 20)
  | .cksum => 0
  | .crc24 => 0
  | .getbits => 0
  | .encode ch .v1 => ch ++ (0 : BitVec 20)
  | .encode ch .v2 => ch ++ (1 : BitVec 20)
  | .decode => 0
  | .decodeByte => 0
  | .decodeFooter => 0
  | .encEnable b => (0 : BitVec 23) ++ BitVec.ofBool b
  | .setHostOrder b => (0 : BitVec 23) ++ BitVec.ofBool b

/-- The word of a command (R111, R118). -/
def encode (i : Instr) : Word := i.opcode ++ operandBits i

/-- The instruction the decoder reads from a table row's bits: `nbits` is the row's width, and the bits
above it are 0. A command is one 32-bit word (R112), so a wider row is no command. -/
def decodeTableWord (nbits w : Nat) : Option Instr :=
  if nbits ≤ 32 then
    match decode (BitVec.ofNat 32 (w % 2 ^ nbits)) with
    | .ok i => some i
    | .error _ => none
  else none

end Sys2Proof
end

