-- ==== Sys2Proof/Machine/Bytes.lean ====
section
/-!
DEFINITION. Byte strings and byte order (00_scope.md R11): the notations `le32`, `be32` and the slice
`A[i..j)`, the byte and bit fields of words, and the read of a range of bytes through a byte reader.
-/

namespace Sys2Proof.Machine

/-- `le32(b0, b1, b2, b3)` (R11). -/
def le32 (b0 b1 b2 b3 : Byte) : Word := b3 ++ b2 ++ b1 ++ b0

/-- `be32(b0, b1, b2, b3)` (R11). -/
def be32 (b0 b1 b2 b3 : Byte) : Word := b0 ++ b1 ++ b2 ++ b3

/-- Bits `[8k+7:8k]` of a word (R10). -/
def byteOf (w : Word) (k : Nat) : Byte := w.extractLsb' (8 * k) 8

/-- The slice `A[i..j)` (R11). -/
def slice (A : List Byte) (i j : Nat) : List Byte := (A.take j).drop i

/-- `A[i]` (R11). Every rule reads indices below `|A|` only; the 0 beyond it is read by none (log entry 12). -/
def at' (A : List Byte) (i : Nat) : Byte := A.getD i 0

/-- The `n` bytes at `a .. a+n-1` of a memory read through `rd` (R12). -/
def bytesFrom (rd : Nat → Byte) (a n : Nat) : List Byte := (List.range' a n).map rd

/-- A byte widened to a word. -/
def byteWord (b : Byte) : Word := b.setWidth 32

/-- Three bytes as the 24-bit number `b2 << 16 | b1 << 8 | b0`, in a word. -/
def word24 (b2 b1 b0 : Byte) : Word := (0 : Byte) ++ b2 ++ b1 ++ b0

end Sys2Proof.Machine
end

