-- ==== Sys2Proof/Machine/State.lean ====
section
/-!
DEFINITION. The state of the block (10_state.md) as plain data, the reasons a step can stop, and the state
after reset. `State` holds the registers of R21 to R26, the channels of R27, DMEM (20_memory.md R80), the
parameters (00_scope.md R7), and three fields of the model's own: the host port's queue and replies and
the reset number that selects the memory draws (log entries 1, 2 and 5).
-/

namespace Sys2Proof.Machine

/-- The written bytes of a byte memory, addresses strictly rising. An address that is not listed has not
been written since reset and holds its reset draw, no value of the model's own (log entry 3). -/
abbrev Memory := List Host.Cell

/-- Protocol families, in the order of their index (10_state.md R35). -/
inductive Family where
  | isbV2
  | isbV1
  | ublox
  | rtcm3
  | sony
  | spartn
  | ascii
  deriving DecidableEq, Repr

/-- `PSTATE` (10_state.md R34). -/
inductive PState where
  | idle
  | haveStart
  | accum
  | validating
  deriving DecidableEq, Repr

/-- Result tags (10_state.md R33). -/
inductive ResultTag where
  | none
  | parseError
  | nativeData
  | nativeCmd
  | nativeAck
  | asciiNmea
  | ublox
  | rtcm3
  | sony
  | spartn
  deriving DecidableEq, Repr

/-- Failure causes, `LAST_ERR` (10_state.md R36). -/
inductive Cause where
  | none
  | cksum
  | length
  | malformed
  | overflow
  deriving DecidableEq, Repr

/-- Status codes, `STATUS.CODE` (10_state.md R44). -/
inductive StatusCode where
  | ok
  | illegalCmd
  | badChannel
  | notInit
  | badArg
  | oob
  | bufferFull
  | encodeTooLarge
  | cksumMismatch
  | malformed
  | dstTooSmall
  deriving DecidableEq, Repr

/-- `STATUS` (10_state.md R24): `OPC` in [15:8] and `CODE` in [7:0]; the other bits read 0. -/
structure Status where
  opc : Byte
  code : StatusCode
  deriving DecidableEq, Repr

/-- `CTRL` (10_state.md R25): `ENC_EN` in bit 0 and `HOST_LE` in bit 1; the other bits read 0. -/
structure Ctrl where
  encEn : Bool
  hostLe : Bool
  deriving DecidableEq, Repr

/-- The state of one channel (10_state.md R27). -/
structure Channel where
  /-- `INITED` -/
  inited : Bool
  /-- `C`, the capacity -/
  cap : Word
  /-- the written bytes of `RB` -/
  rb : Memory
  head : Word
  scan : Word
  tail : Word
  /-- `MASK`, bit `k` enabling family index `k` (R35) -/
  mask : BitVec 7
  /-- `PSTATE` -/
  pstate : PState
  /-- `CAND`; `none` is the index 7, no candidate -/
  cand : Option Family
  /-- `RXERR` -/
  rxErr : Word
  /-- `TXCNT` -/
  txCnt : Word
  /-- `LAST_TAG` -/
  lastTag : ResultTag
  /-- `LAST_ERR` -/
  lastErr : Cause
  /-- `PKT_VALID` -/
  pktValid : Bool
  /-- `PKT_START` -/
  pktStart : Word
  /-- `PKT_LEN` -/
  pktLen : Word
  /-- `DATA_START` -/
  dataStart : Word
  /-- `DATA_LEN` -/
  dataLen : Word
  /-- `PKT_HDR` -/
  pktHdr : Word
  /-- `DHDR_ID` -/
  dhdrId : Word
  /-- `DHDR_SIZE` -/
  dhdrSize : Word
  /-- `DHDR_OFFSET` -/
  dhdrOffset : Word
  deriving DecidableEq, Repr

/-- The width of a host access in bytes: 1, 2 or 4 (20_memory.md R84 to R86). -/
inductive Width where
  | byte
  | half
  | word
  deriving DecidableEq, Repr

/-- One operation of the host, or of the platform, at the block's port (R20, R123; log entries 1, 17, 18). -/
inductive HostOp where
  /-- a read of `width` bytes at a host address (R83) -/
  | read (addr : Word) (width : Width)
  /-- a write of the low `width` bytes of `value` at a host address (R83) -/
  | write (addr : Word) (width : Width) (value : Word)
  /-- `DRAIN ch` (30_encoding.md R122): PARSE, RD RES0, and again until NONE -/
  | drain (ch : BitVec 4)
  /-- the test at the end of one round of `DRAIN ch`: the last word read is NONE, or another round follows -/
  | drainTest (ch : BitVec 4)
  /-- the platform asserts the reset input (70_reset_and_hazards.md R280) -/
  | reset
  deriving DecidableEq, Repr

/-- The host's side of the port, the model's own: the operations not yet served, in order, and the words
the host's reads have returned, newest first. -/
structure HostPort where
  pending : List HostOp
  replies : List Word
  deriving DecidableEq, Repr

/-- The whole machine. `chans` has one slot for each value of a CH field; the block has the channels below
`params.nch`, and nothing reads or writes a slot at or above it (log entry 14). -/
structure State where
  /-- the parameters (00_scope.md R7); no step changes them -/
  params : Params
  /-- `CMD`, the last word written (R23) -/
  cmd : Word
  /-- `STATUS` (R24) -/
  status : Status
  /-- `CTRL` (R25) -/
  ctrl : Ctrl
  /-- `ARG0`..`ARG7` (R21) -/
  args : Vector Word 8
  /-- `RES0`..`RES3` (R21) -/
  res : Vector Word 4
  /-- the written bytes of `DMEM` (20_memory.md R80) -/
  dmem : Memory
  /-- the channels (R27) -/
  chans : Vector Channel 16
  /-- which reset the memory draws belong to (the model's own, log entry 5) -/
  epoch : Nat
  /-- the host's side of the port (the model's own, log entries 1 and 2) -/
  port : HostPort
  deriving DecidableEq, Repr

/-- Why a step stops with a fault: never. The block has no trap, and every command ends by writing STATUS
(60_exceptions.md R250, R251), so this type has no constructor (log entry 20). Safe: there is none. -/
inductive Fault where
  deriving DecidableEq, Repr

/-- Why a step is refused. -/
inductive Refusal where
  /-- an instruction without a meaning; raised by `exec`'s refused arms only, of which there are none. Safe. -/
  | notModelled (mnemonic : String)
  /-- a host access that reaches the register space and is not 32 bits wide at a 4-aligned offset: 'A model
  refuses it' (20_memory.md R86; log entry 9). Raised by the host port. Safe. -/
  | registerAccess (addr : Word) (width : Width)
  /-- a parameter choice outside the ranges of R7 or breaking a law of R8: 'A model refuses a parameter choice
  that breaks either law' (00_scope.md R8; log entry 6). Raised by `step`. Safe. -/
  | unlawfulParams
  deriving DecidableEq, Repr

/-- A channel after reset (10_state.md R42). -/
def Channel.reset : Channel where
  inited := false
  cap := 0
  rb := []
  head := 0
  scan := 0
  tail := 0
  mask := 0
  pstate := .idle
  cand := none
  rxErr := 0
  txCnt := 0
  lastTag := .none
  lastErr := .none
  pktValid := false
  pktStart := 0
  pktLen := 0
  dataStart := 0
  dataLen := 0
  pktHdr := 0
  dhdrId := 0
  dhdrSize := 0
  dhdrOffset := 0

/-- The machine right after reset (10_state.md R41 to R43), with the default parameters of 00_scope.md R7. -/
def State.reset : State where
  params := Params.default
  cmd := 0
  status := ⟨0, .ok⟩
  ctrl := ⟨true, true⟩
  args := Vector.replicate 8 0
  res := Vector.replicate 4 0
  dmem := []
  chans := Vector.replicate 16 Channel.reset
  epoch := 0
  port := ⟨[], []⟩

end Sys2Proof.Machine
end

