-- ==== Sys2Proof/Machine/Flags.lean ====
section
/-!
DEFINITION. The block has no condition flags (41_checksum.md R180). What stands in their place is written
here whole: the numeric codes of every enumerated field (10_state.md R33 to R36, R44), the words of STATUS,
CTRL and CH_STATUS (R24, R25, R31), and the bits of an ISB frame's flags byte (43_codec.md R220).
-/

namespace Sys2Proof.Machine

/-- The value of a status code (R44). -/
def StatusCode.code : StatusCode → Byte
  | .ok => 0x00
  | .illegalCmd => 0x01
  | .badChannel => 0x02
  | .notInit => 0x03
  | .badArg => 0x04
  | .oob => 0x05
  | .bufferFull => 0x06
  | .encodeTooLarge => 0x07
  | .cksumMismatch => 0x08
  | .malformed => 0x09
  | .dstTooSmall => 0x0A

/-- The value of a result tag (R33). -/
def ResultTag.code : ResultTag → Byte
  | .none => 0
  | .parseError => 1
  | .nativeData => 2
  | .nativeCmd => 3
  | .nativeAck => 4
  | .asciiNmea => 5
  | .ublox => 6
  | .rtcm3 => 7
  | .sony => 8
  | .spartn => 9

/-- The value of a failure cause (R36). -/
def Cause.code : Cause → BitVec 4
  | .none => 0
  | .cksum => 1
  | .length => 2
  | .malformed => 3
  | .overflow => 4

/-- The value of a parse state (R34). -/
def PState.code : PState → BitVec 2
  | .idle => 0
  | .haveStart => 1
  | .accum => 2
  | .validating => 3

/-- The index of a family (R35). -/
def Family.index : Family → Nat
  | .isbV2 => 0
  | .isbV1 => 1
  | .ublox => 2
  | .rtcm3 => 3
  | .sony => 4
  | .spartn => 5
  | .ascii => 6

/-- The first byte of a family's start pattern (R35). -/
def Family.startByte : Family → Byte
  | .isbV2 => Config.startV2
  | .isbV1 => Config.startV1
  | .ublox => Config.ubxSync1
  | .rtcm3 => Config.rtcm3Start
  | .sony => Config.sonyStart
  | .spartn => Config.spartnStart
  | .ascii => Config.asciiStart

/-- A family is enabled when its bit of the mask is 1 (R35). -/
def Family.enabled (mask : BitVec 7) (k : Family) : Bool := mask.getLsbD k.index

/-- The value of `CAND`: the family's index, 7 when there is no candidate (R35). -/
def candCode : Option Family → BitVec 3
  | none => 7
  | some k => BitVec.ofNat 3 k.index

/-- The word a host reads from STATUS (R24). -/
def Status.word (st : Status) : Word := (0 : BitVec 16) ++ st.opc ++ st.code.code

/-- The word a host reads from CTRL (R25). -/
def Ctrl.word (c : Ctrl) : Word := (0 : BitVec 30) ++ BitVec.ofBool c.hostLe ++ BitVec.ofBool c.encEn

/-- The word a host reads from CH_STATUS (R31). -/
def Channel.statusWord (ch : Channel) : Word :=
  (0 : BitVec 12) ++ ch.lastErr.code ++ ch.lastTag.code ++ (0 : BitVec 1) ++ BitVec.ofBool ch.pktValid
    ++ candCode ch.cand ++ ch.pstate.code ++ BitVec.ofBool ch.inited

/-- Flags bit 0, `LE`: the payload's fields are little-endian (43_codec.md R220). -/
def flagLe (flags : Byte) : Bool := flags.getLsbD 0

/-- Flags bit 3, `NO_SWAP` (43_codec.md R220). -/
def flagNoSwap (flags : Byte) : Bool := flags.getLsbD 3

/-- Flags bit 4, `CK24`: the checksum is the 24-bit form (43_codec.md R220). -/
def flagCk24 (flags : Byte) : Bool := flags.getLsbD 4

end Sys2Proof.Machine
end

