-- ==== Sys2Proof/Machine/Ops.lean ====
section
/-!
DEFINITION. The named operations over memory and registers that the commands share (00_scope.md R12), and
`raise`, the one operation by which a command fails. The block has no trap (60_exceptions.md R251): what a
manual would call taking an exception is here the write of STATUS and nothing else (R12, R250).
-/

namespace Sys2Proof.Machine

/-! ## Byte memories -/

/-- The byte written last at `a`, if any was since reset. -/
def Memory.get : Memory → Nat → Option Byte
  | [], _ => none
  | (k, v) :: rest, a => if a = k then some v else Memory.get rest a

/-- Write one byte, keeping addresses strictly rising. -/
def Memory.put : Memory → Nat → Byte → Memory
  | [], a, b => [(a, b)]
  | (k, v) :: rest, a, b =>
    if a < k then (a, b) :: (k, v) :: rest
    else if a = k then (a, b) :: rest
    else (k, v) :: Memory.put rest a b

/-- Write a byte string at `a, a+1, ...` (R12 `MemWrite`). -/
def Memory.putAll : Memory → Nat → List Byte → Memory
  | m, _, [] => m
  | m, a, b :: bs => Memory.putAll (Memory.put m a b) (a + 1) bs

/-- The canonical form: addresses strictly rising (log entry 3). -/
def Memory.wf : Memory → Bool
  | [] => true
  | [_] => true
  | (a, _) :: (b, v) :: rest => decide (a < b) && Memory.wf ((b, v) :: rest)

/-! ## DMEM (20_memory.md R80, R88) -/

/-- DMEM byte `a`: the byte last written, or its draw at reset (R94; log entry 3). -/
def State.dmemByte (s : State) (a : Nat) : Byte := (s.dmem.get a).getD (Config.dmemDraw s.epoch a)

/-- `MemRead(DMEM, a, n)` (R12). -/
def State.dmemRead (s : State) (a n : Nat) : List Byte := bytesFrom s.dmemByte a n

/-- `MemWrite(DMEM, a, |B|, B)` (R12). -/
def State.dmemWrite (s : State) (a : Nat) (B : List Byte) : State := { s with dmem := s.dmem.putAll a B }

/-! ## Registers (R12, R21) -/

/-- `ARG[i]`. -/
def State.arg (s : State) (i : Fin 8) : Word := s.args[i]

/-- `ARG[i] <- v`. -/
def State.setArg (s : State) (i : Fin 8) (v : Word) : State := { s with args := s.args.set i v }

/-- `RES[i]`. -/
def State.result (s : State) (i : Fin 4) : Word := s.res[i]

/-- `RES[i] <- v`. -/
def State.setRes (s : State) (i : Fin 4) (v : Word) : State := { s with res := s.res.set i v }

/-- A CH field names one of sixteen slots. -/
theorem ch_lt (c : BitVec 4) : c.toNat < 16 := c.isLt

/-- `CH[c]`. -/
def State.chan (s : State) (c : BitVec 4) : Channel := s.chans[c.toNat]'(ch_lt c)

/-- Write channel `c`. -/
def State.setChan (s : State) (c : BitVec 4) (ch : Channel) : State :=
  { s with chans := s.chans.set c.toNat ch (ch_lt c) }

/-! ## Ring buffers (20_memory.md R81) -/

/-- The reset draws of channel `c`'s ring buffer (R42; log entry 4). -/
def State.rbDraws (s : State) (c : BitVec 4) : Nat → Byte := Config.rbDraw s.epoch c.toNat

/-- Byte `i` of a channel's ring buffer: the byte last written, or its draw at reset. -/
def Channel.byteAt (draw : Nat → Byte) (ch : Channel) (i : Nat) : Byte := (ch.rb.get i).getD (draw i)

/-- `RB[c][i]` (R12). -/
def State.rbByte (s : State) (c : BitVec 4) (i : Nat) : Byte := (s.chan c).byteAt (s.rbDraws c) i

/-! ## Ending a command -/

/-- `STATUS` as every command writes it (10_state.md R24, 60_exceptions.md R250): the command's OPC and its
status code. -/
def State.setStatus (s : State) (i : Instr) (code : StatusCode) : State :=
  { s with status := ⟨i.opcode, code⟩ }

/-- `raise S` (R12): the command's status is `S` and it changes nothing else. -/
def State.raise (s : State) (i : Instr) (code : StatusCode) : State := s.setStatus i code

/-- `status <- OK`, the end of a command that succeeds. -/
def State.done (s : State) (i : Instr) : State := s.setStatus i .ok

/-- An illegal word (30_encoding.md R110, R120; 60_exceptions.md R253): `ILLEGAL_CMD` with the word's own
OPC bits, and nothing else changes. -/
def State.raiseIllegal (s : State) (w : Word) : State := { s with status := ⟨wordOpc w, .illegalCmd⟩ }

end Sys2Proof.Machine
end

