-- ==== Sys2Proof/Machine/Operands.lean ====
section
/-!
DEFINITION. Operand forms and the checks commands share: the channel operand (30_encoding.md R113;
60_exceptions.md R254, R255), the DMEM range operand (20_memory.md R89), the header template of ENCODE
(R116) and the lane and escape state of DECODE_BYTE (R117).
-/

namespace Sys2Proof.Machine

/-- The channel exists: `CH < NCH` (R113). -/
def State.hasChannel (s : State) (c : BitVec 4) : Bool := decide (c.toNat < s.params.nch)

/-- The two checks of a channel command other than INIT, in their order (R254, R255, R262), and then `run`
on the channel. -/
def State.withChannel (s : State) (i : Instr) (c : BitVec 4) (run : Channel → State) : State :=
  if s.hasChannel c then
    if (s.chan c).inited then run (s.chan c) else s.raise i .notInit
  else s.raise i .badChannel

/-- The DMEM range check `a + n <= DMEM_SIZE`, in unbounded integers (R89). -/
def State.inDmem (s : State) (a n : Nat) : Bool := decide (a + n ≤ s.params.dmemSize)

/-- A byte is in `ESC_SET` (00_scope.md R7). -/
def inEscSet (p : Params) (b : Byte) : Bool := p.escSet.contains b

/-- Packet id of ENCODE's template, `ARG4[7:0]` (R116). -/
def templatePid (t : Word) : Byte := byteOf t 0

/-- Counter of ENCODE's template, `ARG4[15:8]` (R116). -/
def templateCounter (t : Word) : Byte := byteOf t 1

/-- Flags of ENCODE's template, `ARG4[23:16]` (R116). -/
def templateFlags (t : Word) : Byte := byteOf t 2

/-- `LANE = ARG3[1:0]` (R117). -/
def laneOf (a3 : Word) : BitVec 2 := a3.extractLsb' 0 2

/-- `ESCP = ARG3[8]` (R117). -/
def escpOf (a3 : Word) : Bool := a3.getLsbD 8

/-- `ARG3` as DECODE_BYTE writes it: LANE, ESCP, and every other bit 0 (R117). -/
def laneWord (escp : Bool) (lane : BitVec 2) : Word :=
  (0 : BitVec 23) ++ BitVec.ofBool escp ++ (0 : BitVec 6) ++ lane

end Sys2Proof.Machine
end

