-- ==== Sys2Proof/Machine/Checksum.lean ====
section
/-!
DEFINITION. The numeric functions of 41_checksum.md (R170 to R174, R178, R179) and the commands CKSUM,
CRC24 and GETBITS (R175 to R177).
-/

namespace Sys2Proof.Machine

/-- One checksum word from its four bytes (R170). -/
def wordOf (o : CksumOrder) (b0 b1 b2 b3 : Byte) : Word :=
  match o with
  | .le => le32 b0 b1 b2 b3
  | .be => be32 b0 b1 b2 b3

/-- `WORDS(B)`: the 32-bit words of a byte string, the last one padded with zero bytes (R170). -/
def wordsOf (o : CksumOrder) : List Byte → List Word
  | [] => []
  | [b0] => [wordOf o b0 0 0 0]
  | [b0, b1] => [wordOf o b0 b1 0 0]
  | [b0, b1, b2] => [wordOf o b0 b1 b2 0]
  | b0 :: b1 :: b2 :: b3 :: rest => wordOf o b0 b1 b2 b3 :: wordsOf o rest

/-- `CKSUM_FN(B)`: the sum of the words of `B` from SEED, modulo 2^32 (R171). -/
def cksumFn (o : CksumOrder) (B : List Byte) : Word :=
  (wordsOf o B).foldl (fun acc w => acc + w) Config.seed

/-- `CK24(acc) = acc[23:0]` (R172), in a word. -/
def ck24 (acc : Word) : Word := acc &&& 0x00FFFFFF

/-- `CK16(acc) = acc[15:0]` (R172), in a word. -/
def ck16 (acc : Word) : Word := acc &&& 0x0000FFFF

/-- The transmitted form a frame's flags select (R172, 43_codec.md R224). -/
def ckSelect (flags : Byte) (acc : Word) : Word := if flagCk24 flags then ck24 acc else ck16 acc

/-- One shift of the CRC's working value (R173). -/
def crcShift (crc : BitVec 25) : BitVec 25 :=
  if (crc <<< 1).getLsbD 24 then (crc <<< 1) ^^^ 0x1864CFB else crc <<< 1

/-- `n` shifts. -/
def crcShifts : Nat → BitVec 25 → BitVec 25
  | 0, crc => crc
  | n + 1, crc => crcShifts n (crcShift crc)

/-- One byte of the CRC (R173). -/
def crcByte (crc : BitVec 25) (b : Byte) : BitVec 25 := crcShifts 8 (crc ^^^ (b.setWidth 25 <<< 16))

/-- `CRC24Q(B)` (R173), zero-extended to a word. -/
def crc24q (B : List Byte) : Word := ((B.foldl crcByte 0).extractLsb' 0 24).setWidth 32

/-- One byte of the Fletcher checksum (R174). -/
def fletcherStep (ak : Byte × Byte) (b : Byte) : Byte × Byte := (ak.1 + b, ak.2 + (ak.1 + b))

/-- `FLETCHER8(B)` (R174). -/
def fletcher8 (B : List Byte) : Byte × Byte := B.foldl fletcherStep (0, 0)

/-- `NMEA_XOR(B)` (R178). -/
def nmeaXor (B : List Byte) : Byte := B.foldl (fun x b => x ^^^ b) 0

/-- The bit at position `P` of a memory, counted from byte `a`, most significant bit first (R179). -/
def bitAt (rd : Nat → Byte) (a P : Nat) : Bool := (rd (a + P / 8)).getLsbD (7 - P % 8)

/-- The loop of `BITS` (R179): `n` bits from position `P` shifted into `v`. -/
def bitsLoop (rd : Nat → Byte) (a : Nat) : Nat → Nat → Word → Word
  | _, 0, v => v
  | P, n + 1, v => bitsLoop rd a (P + 1) n ((v <<< 1) ||| (BitVec.ofBool (bitAt rd a P)).setWidth 32)

/-- `BITS(M, a, pos, cnt)` (R179). -/
def bitsOf (rd : Nat → Byte) (a pos cnt : Nat) : Word := bitsLoop rd a pos cnt 0

/-! ## Commands -/

/-- CKSUM's effect (R175). -/
def runCksum (s : State) : State :=
  let a := (s.arg 0).toNat
  let n := (s.arg 1).toNat
  if s.inDmem a n then
    let acc := cksumFn s.params.cksumOrder (s.dmemRead a n)
    (((s.setRes 0 acc).setRes 1 (ck24 acc)).setRes 2 (ck16 acc)).done .cksum
  else s.raise .cksum .oob

/-- CRC24's effect (R176). -/
def runCrc24 (s : State) : State :=
  let a := (s.arg 0).toNat
  let n := (s.arg 1).toNat
  if s.inDmem a n then (s.setRes 0 (crc24q (s.dmemRead a n))).done .crc24
  else s.raise .crc24 .oob

/-- GETBITS's effect (R177). -/
def runGetbits (s : State) : State :=
  let a := (s.arg 0).toNat
  let pos := (s.arg 1).toNat
  let cnt := (s.arg 2).toNat
  if 32 < cnt then s.raise .getbits .badArg
  else if cnt = 0 then (s.setRes 0 0).done .getbits
  else if s.params.dmemSize < a + (pos + cnt - 1) / 8 + 1 then s.raise .getbits .oob
  else (s.setRes 0 (bitsOf s.dmemByte a pos cnt)).done .getbits

/-- CKSUM (R175). -/
def execCksum (s : State) : Host.Outcome State Fault Refusal := .next (runCksum s)

/-- CRC24 (R176). -/
def execCrc24 (s : State) : Host.Outcome State Fault Refusal := .next (runCrc24 s)

/-- GETBITS (R177). -/
def execGetbits (s : State) : Host.Outcome State Fault Refusal := .next (runGetbits s)

end Sys2Proof.Machine
end

