-- ==== Sys2Proof/Machine/Isb.lean ====
section
/-!
DEFINITION. The native binary (ISB) wire format (43_codec.md R220 to R237), shared by the parser
(42_parser.md R201, R207) and the codec commands: escaping, the checks of a complete frame, the frame an
encoder builds, and the normalization of a payload's byte order.
-/

namespace Sys2Proof.Machine

/-! ## Escaping -/

/-- `E(x)` (R228), with `CTRL.ENC_EN` as `encEn`. -/
def escapeByte (p : Params) (encEn : Bool) (x : Byte) : List Byte :=
  if encEn && inEscSet p x then [p.escKey, ~~~x] else [x]

/-- `E(Y[0]) ‖ ... ‖ E(Y[m-1])` (R223). -/
def escapeAll (p : Params) (encEn : Bool) (Y : List Byte) : List Byte := Y.flatMap (escapeByte p encEn)

/-- `UNESCAPE(X)` (R230): `none` where the rule returns `(false, _)`. -/
def unescape (p : Params) : List Byte → Option (List Byte)
  | [] => some []
  | [x] => if x = p.escKey then none else if inEscSet p x then none else some [x]
  | x :: y :: rest =>
    if x = p.escKey then
      if inEscSet p (~~~y) then (unescape p rest).map (fun r => ~~~y :: r) else none
    else if inEscSet p x then none
    else (unescape p (y :: rest)).map (fun r => x :: r)

/-! ## Frames -/

/-- The number of header bytes after the start byte (R221): they are escaped, the start byte is not (R223). -/
def headerTail : Nat := Config.isbHeaderLength - 1

/-- The number of checksum bytes, the footer without the stop byte (R222): they are escaped, the stop byte is not
(R223). -/
def checksumLength : Nat := Config.isbFooterLength - 1

/-- A frame's four header bytes (R221), its payload, and the checksum it carries (R222). -/
structure IsbFrame where
  start : Byte
  pid : Byte
  counter : Byte
  flags : Byte
  payload : List Byte
  received : Word
  deriving DecidableEq, Repr

/-- The unescaped header (R221). -/
def IsbFrame.header (fr : IsbFrame) : List Byte := [fr.start, fr.pid, fr.counter, fr.flags]

/-- The header word `le32(start, pid, counter, flags)` (10_state.md R32). -/
def IsbFrame.headerWord (fr : IsbFrame) : Word := le32 fr.start fr.pid fr.counter fr.flags

/-- The checksum the header and the payload call for, in the width the flags select (R224). -/
def IsbFrame.expected (p : Params) (fr : IsbFrame) : Word :=
  ckSelect fr.flags (cksumFn p.cksumOrder (fr.header ++ fr.payload))

/-- What the bytes between start and stop hold (R201, R238): an escape error or fewer than six unescaped
bytes, a body over `MAX_BODY`, or a frame. -/
inductive Unpacked where
  | malformed
  | tooLong
  | frame (fr : IsbFrame)
  deriving DecidableEq, Repr

/-- The fields of the unescaped bytes `R` after start byte `start` (R201, R238): three header bytes, the
payload, three checksum bytes, most significant first. -/
def splitIsb (start : Byte) (R : List Byte) : IsbFrame :=
  let footer := R.length - checksumLength
  { start := start
    pid := at' R 0
    counter := at' R 1
    flags := at' R 2
    payload := slice R headerTail footer
    received := word24 (at' R footer) (at' R (footer + 1)) (at' R (footer + 2)) }

/-- The checks R201 and R238 share, in their order, on a frame with its start and stop bytes. -/
def unpackIsb (p : Params) (F : List Byte) : Unpacked :=
  match unescape p (slice F 1 (F.length - 1)) with
  | none => .malformed
  | some R =>
    if R.length < headerTail + checksumLength then .malformed
    else if p.maxBody < R.length - (headerTail + checksumLength) then .tooLong
    else .frame (splitIsb (at' F 0) R)

/-- The frame an encoder builds (R223): the literal start, the escaped header, payload and checksum bytes,
the literal stop. `ck` is the checksum in the selected width. -/
def frameBytes (p : Params) (encEn : Bool) (start pid counter flags : Byte) (P : List Byte) (ck : Word) : List Byte :=
  start :: (escapeAll p encEn ([pid, counter, flags] ++ P ++ [byteOf ck 2, byteOf ck 1, byteOf ck 0])
    ++ [Config.stop])

/-- `WORST(n)` (R231): `2 * n + 14` with escaping on, where every byte between the start and the stop byte may become
two, and `n + 8` with escaping off. -/
def worstSize (encEn : Bool) (n : Nat) : Nat :=
  if encEn then 2 * (headerTail + n + checksumLength) + 2 else Config.isbHeaderLength + n + Config.isbFooterLength

/-! ## Byte order of the payload -/

/-- `SWAP32(P)` (R234). -/
def swap32 : List Byte → List Byte
  | b0 :: b1 :: b2 :: b3 :: rest => b3 :: b2 :: b1 :: b0 :: swap32 rest
  | rest => rest

/-- `NORMALIZE(flags, P)` (R237), with `CTRL.HOST_LE` as `hostLe`. -/
def normalize (hostLe : Bool) (flags : Byte) (P : List Byte) : List Byte :=
  if flagLe flags ≠ hostLe ∧ flagNoSwap flags = false then swap32 P else P

/-- The decoded frame as the parser and DECODE write it: the raw header and the normalized payload
(42_parser.md R207, R238). -/
def IsbFrame.decoded (hostLe : Bool) (fr : IsbFrame) : List Byte :=
  fr.header ++ normalize hostLe fr.flags fr.payload

end Sys2Proof.Machine
end

