-- ==== Sys2Proof/Machine/Codec.lean ====
section
/-!
DEFINITION. The binary packet codec commands (43_codec.md): ENCODE (R232), DECODE (R238), DECODE_BYTE
(R240), DECODE_FOOTER (R243), ENC_ENABLE (R245) and SET_HOST_ORDER (R246).
-/

namespace Sys2Proof.Machine

/-! ## ENCODE -/

/-- The start byte of a version (30_encoding.md R114). -/
def versionStart : Version → Byte
  | .v1 => Config.startV1
  | .v2 => Config.startV2

/-- The flags ENCODE writes: template and additional bits, with bit 0 the host's order (R232, R233). -/
def encodeFlags (hostLe : Bool) (t x : Word) : Byte :=
  ((templateFlags t ||| byteOf x 0) &&& 0xFE) ||| (BitVec.ofBool hostLe).setWidth 8

/-- The frame ENCODE builds from the state's operands (R232). -/
def State.encoded (s : State) (ver : Version) : List Byte :=
  let t := s.arg 4
  let flags := encodeFlags s.ctrl.hostLe t (s.arg 5)
  let P := s.dmemRead (s.arg 0).toNat (s.arg 1).toNat
  let start := versionStart ver
  let acc := cksumFn s.params.cksumOrder ([start, templatePid t, templateCounter t, flags] ++ P)
  frameBytes s.params s.ctrl.encEn start (templatePid t) (templateCounter t) flags P (ckSelect flags acc)

/-- ENCODE's effect (R232). -/
def runEncode (c : BitVec 4) (ver : Version) (s : State) : State :=
  s.withChannel (.encode c ver) c fun ch =>
    let n := (s.arg 1).toNat
    let cap := (s.arg 3).toNat
    if s.params.maxBody < n ∨ cap < worstSize s.ctrl.encEn n then s.raise (.encode c ver) .encodeTooLarge
    else if !s.inDmem (s.arg 0).toNat n then s.raise (.encode c ver) .oob
    else if !s.inDmem (s.arg 2).toNat cap then s.raise (.encode c ver) .oob
    else
      let out := s.encoded ver
      (((s.dmemWrite (s.arg 2).toNat out).setRes 0 (BitVec.ofNat 32 out.length)).setChan c
        { ch with txCnt := ch.txCnt + 1 }).done (.encode c ver)

/-! ## DECODE -/

/-- A frame begins with a start byte and ends with the stop byte (R238). -/
def framed (F : List Byte) : Bool :=
  decide (2 ≤ F.length ∧ (at' F 0 = Config.startV1 ∨ at' F 0 = Config.startV2)
    ∧ at' F (F.length - 1) = Config.stop)

/-- The four result registers DECODE writes once the framing holds (R238). -/
def State.setDecodeResults (s : State) (fr : IsbFrame) : State :=
  (((s.setRes 0 (BitVec.ofNat 32 fr.payload.length)).setRes 1 fr.headerWord).setRes 2 fr.received).setRes 3
    (fr.expected s.params)

/-- DECODE of a frame whose framing holds (R238, from the checksum on). -/
def decodeUnpacked (s : State) (fr : IsbFrame) : State :=
  if fr.received ≠ fr.expected s.params then (s.setDecodeResults fr).setStatus .decode .cksumMismatch
  else if (s.arg 3).toNat < Config.isbHeaderLength + fr.payload.length then s.raise .decode .dstTooSmall
  else ((s.dmemWrite (s.arg 2).toNat (fr.decoded s.ctrl.hostLe)).setDecodeResults fr).done .decode

/-- DECODE's effect (R238). -/
def runDecode (s : State) : State :=
  if !s.inDmem (s.arg 0).toNat (s.arg 1).toNat then s.raise .decode .oob
  else if !s.inDmem (s.arg 2).toNat (s.arg 3).toNat then s.raise .decode .oob
  else
    let F := s.dmemRead (s.arg 0).toNat (s.arg 1).toNat
    if framed F then
      match unpackIsb s.params F with
      | .malformed => s.raise .decode .malformed
      | .tooLong => s.raise .decode .malformed
      | .frame fr => decodeUnpacked s fr
    else s.raise .decode .malformed

/-! ## DECODE_BYTE -/

/-- The shift that puts a byte in its lane of a checksum word (R240). -/
def laneShift (o : CksumOrder) (lane : BitVec 2) : Nat :=
  match o with
  | .le => 8 * lane.toNat
  | .be => 8 * (3 - lane.toNat)

/-- The source byte is consumed: `ARG0` moves on and `ARG3` is written (R240). -/
def State.consumeByte (s : State) (escp : Bool) (lane : BitVec 2) : State :=
  (s.setArg 0 (s.arg 0 + 1)).setArg 3 (laneWord escp lane)

/-- `EMIT(x)` (R240). -/
def State.emitByte (s : State) (x : Byte) : State :=
  let lane := laneOf (s.arg 3)
  ((((s.dmemWrite (s.arg 1).toNat [x]).consumeByte false (lane + 1)).setArg 1 (s.arg 1 + 1)).setArg 2
    (s.arg 2 + byteWord x <<< laneShift s.params.cksumOrder lane)).setRes 0 1

/-- A malformed byte is consumed, and the escape state is cleared (R240, R262 (b)). -/
def State.rejectByte (s : State) : State :=
  (s.consumeByte false (laneOf (s.arg 3))).setStatus .decodeByte .malformed

/-- DECODE_BYTE's effect (R240). -/
def runDecodeByte (s : State) : State :=
  if !(s.inDmem (s.arg 0).toNat 1 && s.inDmem (s.arg 1).toNat 1) then s.raise .decodeByte .oob
  else
    let c := s.dmemByte (s.arg 0).toNat
    if escpOf (s.arg 3) then
      if inEscSet s.params (~~~c) then (s.emitByte (~~~c)).done .decodeByte else s.rejectByte
    else if c = s.params.escKey then
      ((s.consumeByte true (laneOf (s.arg 3))).setRes 0 0).done .decodeByte
    else if inEscSet s.params c then s.rejectByte
    else (s.emitByte c).done .decodeByte

/-! ## DECODE_FOOTER -/

/-- One checksum byte read backwards (R243). `j` is one past the byte to read, `i + 1` in the rule, so that
the cursor stays a natural number (log entry 12); the byte and the cursor after it. -/
def footerByte (p : Params) (rd : Nat → Byte) (lo j : Nat) : Option (Byte × Nat) :=
  if j ≤ lo then none
  else if lo + 2 ≤ j ∧ rd (j - 2) = p.escKey ∧ inEscSet p (~~~(rd (j - 1))) = true then
    some (~~~(rd (j - 1)), j - 2)
  else if inEscSet p (rd (j - 1)) then none
  else some (rd (j - 1), j - 1)

/-- The three checksum bytes before the stop byte at `last`: `ck0`, then `ck1`, then `ck2` (R243). The
checksum field and the offset of the footer's first encoded byte. -/
def footerField (p : Params) (rd : Nat → Byte) (lo last : Nat) : Option (Word × Nat) :=
  match footerByte p rd lo last with
  | none => none
  | some (v0, j0) =>
    match footerByte p rd lo j0 with
    | none => none
    | some (v1, j1) =>
      match footerByte p rd lo j1 with
      | none => none
      | some (v2, j2) => some (word24 v2 v1 v0, j2)

/-- DECODE_FOOTER's effect (R243). -/
def runDecodeFooter (s : State) : State :=
  let stopEnd := (s.arg 0).toNat
  let lo := (s.arg 1).toNat
  if stopEnd ≤ lo then s.raise .decodeFooter .badArg
  else if s.params.dmemSize < stopEnd then s.raise .decodeFooter .oob
  else if s.dmemByte (stopEnd - 1) = Config.stop then
    match footerField s.params s.dmemByte lo (stopEnd - 1) with
    | none => s.raise .decodeFooter .malformed
    | some (ck, first) => ((s.setRes 0 ck).setRes 1 (BitVec.ofNat 32 first)).done .decodeFooter
  else s.raise .decodeFooter .malformed

/-! ## Commands -/

/-- ENCODE (R232). -/
def execEncode (c : BitVec 4) (ver : Version) (s : State) : Host.Outcome State Fault Refusal :=
  .next (runEncode c ver s)

/-- DECODE (R238). -/
def execDecode (s : State) : Host.Outcome State Fault Refusal := .next (runDecode s)

/-- DECODE_BYTE (R240). -/
def execDecodeByte (s : State) : Host.Outcome State Fault Refusal := .next (runDecodeByte s)

/-- DECODE_FOOTER (R243). -/
def execDecodeFooter (s : State) : Host.Outcome State Fault Refusal := .next (runDecodeFooter s)

/-- ENC_ENABLE (R245). -/
def execEncEnable (b : Bool) (s : State) : Host.Outcome State Fault Refusal :=
  .next (({ s with ctrl := { s.ctrl with encEn := b } } : State).done (.encEnable b))

/-- SET_HOST_ORDER (R246). -/
def execSetHostOrder (b : Bool) (s : State) : Host.Outcome State Fault Refusal :=
  .next (({ s with ctrl := { s.ctrl with hostLe := b } } : State).done (.setHostOrder b))

end Sys2Proof.Machine
end

