-- ==== Sys2Proof/Machine/Framing.lean ====
section
/-!
DEFINITION. The start-pattern matcher and the verdict function of each family (42_parser.md R191, R197,
R200 to R206, R210).
-/

namespace Sys2Proof.Machine

/-- Every family, in the priority order (10_state.md R35). -/
def Family.all : List Family := [.isbV2, .isbV1, .ublox, .rtcm3, .sony, .spartn, .ascii]

/-- `MATCH(mask, b)` (R191): the first enabled family whose start pattern begins with `b`. -/
def matchStart (mask : BitVec 7) (b : Byte) : Option Family :=
  Family.all.find? fun k => k.enabled mask && b == k.startByte

/-- The length of a data header (00_scope.md R14, R206). -/
def dataHeaderLength : Nat := 12

/-- A data header (00_scope.md R14, R206). -/
structure DataHeader where
  id : Word
  size : Word
  offset : Word
  deriving DecidableEq, Repr

/-- A verdict on a candidate (R194). -/
inductive Verdict where
  | needMore
  | bad (cause : Cause)
  | good (tag : ResultTag) (doff dlen : Nat) (hdr : Word) (dh : Option DataHeader)
  deriving DecidableEq, Repr

/-- `PID_CLASS(pid)` (R205), from the parameter's table. -/
def pidClass (p : Params) (pid : Byte) : PidClass := (p.pidTable.lookup pid).getD p.pidDefault

/-- The word at payload offset `i` in the byte order the frame declares (R206). -/
def headerField (flags : Byte) (P : List Byte) (i : Nat) : Word :=
  if flagLe flags then le32 (at' P i) (at' P (i + 1)) (at' P (i + 2)) (at' P (i + 3))
  else be32 (at' P i) (at' P (i + 1)) (at' P (i + 2)) (at' P (i + 3))

/-- `DATA_HEADER(flags, P)` (R206): `none` where the rule returns `(false, _)`. -/
def dataHeader (p : Params) (flags : Byte) (P : List Byte) : Option DataHeader :=
  if P.length < dataHeaderLength then none
  else
    let dh : DataHeader := ⟨headerField flags P 0, headerField flags P 4, headerField flags P 8⟩
    if P.length - dataHeaderLength < dh.size.toNat then none
    else if p.maxDataset < dh.offset.toNat + dh.size.toNat then none
    else some dh

/-- The verdict on a frame whose checksum matches (R201, last part). -/
def classifyIsb (p : Params) (fr : IsbFrame) : Verdict :=
  match pidClass p fr.pid with
  | .data =>
    match dataHeader p fr.flags fr.payload with
    | none => .bad .malformed
    | some dh => .good .nativeData (Config.isbHeaderLength + dataHeaderLength) dh.size.toNat fr.headerWord (some dh)
  | .cmd => .good .nativeCmd Config.isbHeaderLength fr.payload.length fr.headerWord none
  | .ack => .good .nativeAck Config.isbHeaderLength fr.payload.length fr.headerWord none

/-- `ISB_VALIDATE(F)` (R201). -/
def isbValidate (p : Params) (F : List Byte) : Verdict :=
  match unpackIsb p F with
  | .malformed => .bad .malformed
  | .tooLong => .bad .length
  | .frame fr => if fr.received = fr.expected p then classifyIsb p fr else .bad .cksum

/-- `FRAME_ISB(F)` (R200). -/
def frameIsb (p : Params) (F : List Byte) : Verdict :=
  if at' F (F.length - 1) = Config.stop then isbValidate p F else .needMore

/-- `FRAME_UBLOX(F)` (R202). -/
def frameUblox (cap : Nat) (F : List Byte) : Verdict :=
  if F.length < 6 then .needMore
  else
    let len := (at' F 4).toNat + 256 * (at' F 5).toNat
    if cap < 8 + len then .bad .length
    else if F.length < 8 + len then .needMore
    else if (at' F (6 + len), at' F (7 + len)) = fletcher8 (slice F 2 (6 + len)) then .good .ublox 6 len 0 none
    else .bad .cksum

/-- `FRAME_RTCM3(F)` (R203). -/
def frameRtcm3 (cap : Nat) (F : List Byte) : Verdict :=
  if F.length < 3 then .needMore
  else if at' F 1 &&& 0xFC ≠ 0 then .bad .length
  else
    let len := 256 * (at' F 1 &&& 0x03).toNat + (at' F 2).toNat
    if cap < 6 + len then .bad .length
    else if F.length < 6 + len then .needMore
    else if crc24q (slice F 0 (3 + len)) = word24 (at' F (3 + len)) (at' F (4 + len)) (at' F (5 + len)) then
      .good .rtcm3 3 len 0 none
    else .bad .cksum

/-- `HEXVAL(x)` where `HEX(x)` holds (R204). -/
def hexVal (x : Byte) : Option Byte :=
  if 0x30 ≤ x ∧ x ≤ 0x39 then some (x - 0x30)
  else if 0x41 ≤ x ∧ x ≤ 0x46 then some (x - 0x37)
  else if 0x61 ≤ x ∧ x ≤ 0x66 then some (x - 0x57)
  else none

/-- The sentence without an optional `\r` at its end (R204). -/
def stripCr (T : List Byte) : List Byte :=
  if 1 ≤ T.length ∧ at' T (T.length - 1) = 0x0D then slice T 0 (T.length - 1) else T

/-- The value of the `*hh` field a sentence `T` ends with, if it ends with one (R204). -/
def asciiCheckField (T : List Byte) : Option Byte :=
  let m := T.length
  if 4 ≤ m ∧ at' T (m - 3) = 0x2A then
    match hexVal (at' T (m - 2)), hexVal (at' T (m - 1)) with
    | some hi, some lo => some (hi <<< 4 ||| lo)
    | _, _ => none
  else none

/-- `ASCII_VALIDATE(F)` (R204). -/
def asciiValidate (F : List Byte) : Verdict :=
  let T := stripCr (slice F 0 (F.length - 1))
  match asciiCheckField T with
  | some ck =>
    if nmeaXor (slice T 1 (T.length - 3)) = ck then .good .asciiNmea 0 F.length 0 none else .bad .cksum
  | none => .good .asciiNmea 0 F.length 0 none

/-- A byte an ASCII sentence goes on with: printable, or `\r` (R204). -/
def asciiByte (b : Byte) : Bool := decide ((0x20 ≤ b ∧ b ≤ 0x7E) ∨ b = 0x0D)

/-- `FRAME_ASCII(F)` (R204). -/
def frameAscii (F : List Byte) : Verdict :=
  let b := at' F (F.length - 1)
  if b = Config.asciiEnd then asciiValidate F
  else if asciiByte b then .needMore
  else .bad .malformed

/-- R210 law (3): what the parser makes of a foreign verdict. -/
def foreignVerdict (tag : ResultTag) (len : Nat) : ForeignVerdict → Verdict
  | .needMore => .needMore
  | .bad => .bad .malformed
  | .good => .good tag 0 len 0 none

/-- `FRAME(k, F)` (R197). It reads the candidate, the channel's capacity and the parameters. -/
def frame (p : Params) (cap : Nat) (k : Family) (F : List Byte) : Verdict :=
  match k with
  | .isbV2 => frameIsb p F
  | .isbV1 => frameIsb p F
  | .ublox => frameUblox cap F
  | .rtcm3 => frameRtcm3 cap F
  | .sony => foreignVerdict .sony F.length (Config.sonyFrame F cap)
  | .spartn => foreignVerdict .spartn F.length (Config.spartnFrame F cap)
  | .ascii => frameAscii F

end Sys2Proof.Machine
end

