-- ==== Sys2Proof/Machine/RingBuffer.lean ====
section
/-!
DEFINITION. Ring buffer and channel control (40_ring_buffer.md): NOP, INIT, SET_MASK, APPEND and FREE, with
the internal functions COMPACT (R147) and DROP_OVERFLOW (R149).
-/

namespace Sys2Proof.Machine

/-- The mask INIT sets: ISB_V2, ISB_V1, UBLOX, RTCM3 and ASCII (R141). -/
def defaultMask : BitVec 7 := 0x4F

/-- A channel right after INIT with capacity `cap` (R141): every field but the ring-buffer bytes is set. -/
def Channel.initialized (ch : Channel) (cap : Word) : Channel where
  inited := true
  cap := cap
  rb := ch.rb
  head := 0
  scan := 0
  tail := 0
  mask := defaultMask
  pstate := .idle
  cand := none
  rxErr := 0
  txCnt := 0
  lastTag := .none
  lastErr := .none
  pktValid := false
  pktStart := 0
  pktLen := 0
  dataStart := 0
  dataLen := 0
  pktHdr := 0
  dhdrId := 0
  dhdrSize := 0
  dhdrOffset := 0

/-- Bytes stored at `tail`, and `tail` moved past them (R146; 42_parser.md R213). -/
def Channel.store (ch : Channel) (B : List Byte) : Channel :=
  { ch with rb := ch.rb.putAll ch.tail.toNat B, tail := ch.tail + BitVec.ofNat 32 B.length }

/-- COMPACT (R147): the unconsumed bytes `[head, tail)` move to offset 0. -/
def Channel.compact (draw : Nat → Byte) (ch : Channel) : Channel :=
  { ch with
    rb := ch.rb.putAll 0 (bytesFrom (ch.byteAt draw) ch.head.toNat (ch.tail.toNat - ch.head.toNat))
    head := 0
    scan := ch.scan - ch.head
    tail := ch.tail - ch.head }

/-- A candidate fills the whole buffer and has been scanned to its end: FREE's condition for dropping it,
evaluated after COMPACT (R148). -/
def Channel.overflowed (ch : Channel) : Bool :=
  decide (ch.tail = ch.cap ∧ ch.pstate ≠ .idle ∧ ch.scan = ch.tail)

/-- DROP_OVERFLOW (R149). -/
def Channel.dropOverflow (draw : Nat → Byte) (ch : Channel) : Channel :=
  Channel.compact draw
    { ch with rxErr := ch.rxErr + 1, lastErr := .overflow, pstate := .idle, cand := none, head := 1, scan := 1 }

/-- The channel FREE leaves (R148), and whether a candidate was dropped. -/
def Channel.freed (draw : Nat → Byte) (ch : Channel) : Channel × Bool :=
  let compacted := Channel.compact draw { ch with pktValid := false }
  if compacted.overflowed then (compacted.dropOverflow draw, true) else (compacted, false)

/-! ## Commands -/

/-- INIT's effect (R141). -/
def runInit (c : BitVec 4) (s : State) : State :=
  if s.hasChannel c then
    if s.arg 0 = 0 ∨ s.params.capMax < (s.arg 0).toNat then s.raise (.init c) .badArg
    else ((s.setChan c ((s.chan c).initialized (s.arg 0))).setRes 0 (s.arg 0)).done (.init c)
  else s.raise (.init c) .badChannel

/-- SET_MASK's effect (R144). -/
def runSetMask (c : BitVec 4) (mask : BitVec 7) (s : State) : State :=
  s.withChannel (.setMask c mask) c fun ch =>
    (s.setChan c { ch with mask := mask }).done (.setMask c mask)

/-- APPEND's effect (R146). -/
def runAppend (c : BitVec 4) (s : State) : State :=
  s.withChannel (.append c) c fun ch =>
    let src := (s.arg 0).toNat
    let n := (s.arg 1).toNat
    if s.inDmem src n then
      if ch.cap.toNat < ch.tail.toNat + n then s.raise (.append c) .bufferFull
      else
        let stored := ch.store (s.dmemRead src n)
        ((s.setChan c stored).setRes 0 (stored.cap - stored.tail)).done (.append c)
    else s.raise (.append c) .oob

/-- FREE's effect (R148). -/
def runFree (c : BitVec 4) (s : State) : State :=
  s.withChannel (.free c) c fun ch =>
    let freed := ch.freed (s.rbDraws c)
    (((s.setChan c freed.1).setRes 0 (freed.1.cap - freed.1.tail)).setRes 1 (if freed.2 then 1 else 0)).done (.free c)

/-- NOP (R140). -/
def execNop (s : State) : Host.Outcome State Fault Refusal := .next (s.done .nop)

/-- INIT (R141). -/
def execInit (c : BitVec 4) (s : State) : Host.Outcome State Fault Refusal := .next (runInit c s)

/-- SET_MASK (R144). -/
def execSetMask (c : BitVec 4) (mask : BitVec 7) (s : State) : Host.Outcome State Fault Refusal :=
  .next (runSetMask c mask s)

/-- APPEND (R146). -/
def execAppend (c : BitVec 4) (s : State) : Host.Outcome State Fault Refusal := .next (runAppend c s)

/-- FREE (R148). -/
def execFree (c : BitVec 4) (s : State) : Host.Outcome State Fault Refusal := .next (runFree c s)

end Sys2Proof.Machine
end

