-- ==== Sys2Proof/Machine/Parser.lean ====
section
/-!
DEFINITION. The streaming parser of a channel (42_parser.md): STEP (R196), SUCCEED (R198), FAIL (R199), the
bulk loop PARSE_CORE (R211), and the commands PARSE (R212) and PARSE_BYTE (R213).
-/

namespace Sys2Proof.Machine

/-- What STEP reads beside the channel: the parameters, `CTRL.HOST_LE`, and the reset draws of the channel's
ring buffer. -/
structure ParseEnv where
  params : Params
  hostLe : Bool
  draw : Nat → Byte

/-- The environment of channel `c`. -/
def State.parseEnv (s : State) (c : BitVec 4) : ParseEnv := ⟨s.params, s.ctrl.hostLe, s.rbDraws c⟩

/-- What STEP returns (R196). -/
inductive StepResult where
  | cont
  | done (tag : ResultTag)
  deriving DecidableEq, Repr

/-- `RB[c][i .. j)` (R11). -/
def Channel.bytes (draw : Nat → Byte) (ch : Channel) (i j : Nat) : List Byte :=
  bytesFrom (ch.byteAt draw) i (j - i)

/-- FAIL (R199) for the candidate that began at `s`. -/
def Channel.fail (ch : Channel) (s : Word) (cause : Cause) : Channel :=
  { ch with rxErr := ch.rxErr + 1, lastErr := cause, pstate := .idle, cand := none, head := s + 1, scan := s + 1 }

/-- The candidate is of the native binary protocol. -/
def Channel.candIsIsb (ch : Channel) : Bool := ch.cand == some .isbV2 || ch.cand == some .isbV1

/-- The in-place decode of a validated ISB frame `F` that began at `s` (R207). -/
def Channel.decodeInPlace (env : ParseEnv) (ch : Channel) (s : Word) (F : List Byte) : Channel :=
  if ch.candIsIsb then
    match unpackIsb env.params F with
    | .frame fr => { ch with rb := ch.rb.putAll s.toNat (fr.decoded env.hostLe) }
    | .malformed => ch
    | .tooLong => ch
  else ch

/-- The data header registers change only when the verdict carries a data header (R198, 10_state.md R32). -/
def Channel.setDataHeader (ch : Channel) : Option DataHeader → Channel
  | none => ch
  | some dh => { ch with dhdrId := dh.id, dhdrSize := dh.size, dhdrOffset := dh.offset }

/-- SUCCEED (R198) for the frame `F` in `[s, p+1)` with the verdict's data region and header word. -/
def Channel.succeed (env : ParseEnv) (ch : Channel) (s p : Word) (F : List Byte) (doff dlen : Nat) (hdr : Word)
    (dh : Option DataHeader) : Channel :=
  let decoded := (ch.decodeInPlace env s F).setDataHeader dh
  { decoded with
    pktStart := s
    pktLen := BitVec.ofNat 32 F.length
    dataStart := s + BitVec.ofNat 32 doff
    dataLen := BitVec.ofNat 32 dlen
    pktHdr := hdr
    pktValid := true
    head := p + 1
    scan := p + 1
    pstate := .idle
    cand := none }

/-- STEP in IDLE (R196): byte `b` at `scan`. -/
def Channel.stepIdle (ch : Channel) (b : Byte) : Channel :=
  match matchStart ch.mask b with
  | none => { ch with head := ch.scan + 1, scan := ch.scan + 1 }
  | some k =>
    { ch with
      head := ch.scan
      scan := ch.scan + 1
      cand := some k
      pstate := if k = .ublox then .haveStart else .accum }

/-- STEP in HAVE_START (R196): a mismatched byte is examined again, in IDLE. -/
def Channel.stepHaveStart (ch : Channel) (b : Byte) : Channel :=
  if b = Config.ubxSync2 then { ch with pstate := .accum, scan := ch.scan + 1 }
  else { ch with pstate := .idle, cand := none, head := ch.scan }

/-- The verdict on the candidate with the byte at `scan` added (R194, R197). Without a candidate there is
nothing to judge; R28 rules that case out (log entry 12). -/
def Channel.verdict (env : ParseEnv) (ch : Channel) : Verdict :=
  match ch.cand with
  | some k => frame env.params ch.cap.toNat k (ch.bytes env.draw ch.head.toNat (ch.scan.toNat + 1))
  | none => .needMore

/-- STEP in ACCUM (R196). The state VALIDATING is entered and left inside this step (10_state.md R29). -/
def Channel.stepAccum (env : ParseEnv) (ch : Channel) : Channel × StepResult :=
  match ch.verdict env with
  | .needMore => ({ ch with scan := ch.scan + 1 }, .cont)
  | .bad cause => (({ ch with scan := ch.scan + 1, pstate := .validating } : Channel).fail ch.head cause, .done .parseError)
  | .good tag doff dlen hdr dh =>
    (({ ch with scan := ch.scan + 1, pstate := .validating } : Channel).succeed env ch.head ch.scan
      (ch.bytes env.draw ch.head.toNat (ch.scan.toNat + 1)) doff dlen hdr dh, .done tag)

/-- STEP (R196): one byte is examined, at `scan`. VALIDATING is never the state a step starts in (R29). -/
def Channel.step (env : ParseEnv) (ch : Channel) : Channel × StepResult :=
  let b := ch.byteAt env.draw ch.scan.toNat
  match ch.pstate with
  | .idle => (ch.stepIdle b, .cont)
  | .haveStart => (ch.stepHaveStart b, .cont)
  | .accum => ch.stepAccum env
  | .validating => (ch, .cont)

/-- The loop of PARSE_CORE (R211): steps while `scan < tail`, until a decision. `fuel` bounds it (R214). -/
def Channel.parseLoop (env : ParseEnv) : Nat → Channel → Channel × ResultTag
  | 0, ch => (ch, .none)
  | fuel + 1, ch =>
    if ch.scan.toNat < ch.tail.toNat then
      match ch.step env with
      | (ch', .cont) => Channel.parseLoop env fuel ch'
      | (ch', .done tag) => (ch', tag)
    else (ch, .none)

/-- The number of steps one PARSE_CORE makes at most (R214; log entry 13). -/
def Channel.parseFuel (ch : Channel) : Nat := 2 * (ch.tail.toNat - ch.scan.toNat) + 1

/-- PARSE_CORE (R211). -/
def Channel.parseCore (env : ParseEnv) (ch : Channel) : Channel × ResultTag :=
  let r := Channel.parseLoop env ch.parseFuel { ch with pktValid := false }
  ({ r.1 with lastTag := r.2 }, r.2)

/-! ## Commands -/

/-- A result tag in a register: zero-extended (R33, R212). -/
def ResultTag.word (tag : ResultTag) : Word := byteWord tag.code

/-- PARSE's effect (R212). -/
def runParse (c : BitVec 4) (s : State) : State :=
  s.withChannel (.parse c) c fun ch =>
    let r := ch.parseCore (s.parseEnv c)
    ((s.setChan c r.1).setRes 0 r.2.word).done (.parse c)

/-- PARSE_BYTE's effect (R213): on a full buffer the byte is dropped, the parse still runs, and the status
is BUFFER_FULL. -/
def runParseByte (c : BitVec 4) (byte : Byte) (s : State) : State :=
  s.withChannel (.parseByte c byte) c fun ch =>
    let full := decide (ch.tail = ch.cap)
    let fed := if full then ch else ch.store [byte]
    let r := fed.parseCore (s.parseEnv c)
    ((s.setChan c r.1).setRes 0 r.2.word).setStatus (.parseByte c byte) (if full then .bufferFull else .ok)

/-- PARSE (R212). -/
def execParse (c : BitVec 4) (s : State) : Host.Outcome State Fault Refusal := .next (runParse c s)

/-- PARSE_BYTE (R213). -/
def execParseByte (c : BitVec 4) (byte : Byte) (s : State) : Host.Outcome State Fault Refusal :=
  .next (runParseByte c byte s)

end Sys2Proof.Machine
end

