-- ==== Sys2Proof/Machine/Dispatch.lean ====
section
/-!
DEFINITION. One arm per command (30_encoding.md R118): the meaning its rule gives it.
-/

namespace Sys2Proof.Machine

def exec (i : Instr) (s : State) : Host.Outcome State Fault Refusal :=
  match i with
  | .nop => Sys2Proof.Machine.execNop s
  | .init ch => Sys2Proof.Machine.execInit ch s
  | .setMask ch mask => Sys2Proof.Machine.execSetMask ch mask s
  | .append ch => Sys2Proof.Machine.execAppend ch s
  | .free ch => Sys2Proof.Machine.execFree ch s
  | .parseByte ch byte => Sys2Proof.Machine.execParseByte ch byte s
  | .parse ch => Sys2Proof.Machine.execParse ch s
  | .cksum => Sys2Proof.Machine.execCksum s
  | .crc24 => Sys2Proof.Machine.execCrc24 s
  | .getbits => Sys2Proof.Machine.execGetbits s
  | .encode ch ver => Sys2Proof.Machine.execEncode ch ver s
  | .decode => Sys2Proof.Machine.execDecode s
  | .decodeByte => Sys2Proof.Machine.execDecodeByte s
  | .decodeFooter => Sys2Proof.Machine.execDecodeFooter s
  | .encEnable b => Sys2Proof.Machine.execEncEnable b s
  | .setHostOrder b => Sys2Proof.Machine.execSetHostOrder b s

end Sys2Proof.Machine
end

