-- ==== Sys2Proof/Machine/Registers.lean ====
section
/-!
DEFINITION. The register space and the host address map as the host sees them: the register map
(10_state.md R41), the channel register bank (R30), and the DMEM and ring-buffer windows (20_memory.md R83
to R87).
-/

namespace Sys2Proof.Machine

/-- The register at bank offset `k` of a channel (R30). -/
def Channel.bankRegister (ch : Channel) (k : Nat) : Word :=
  match k with
  | 0x00 => ch.statusWord
  | 0x04 => ch.mask.setWidth 32
  | 0x08 => ch.cap
  | 0x0C => ch.head
  | 0x10 => ch.scan
  | 0x14 => ch.tail
  | 0x18 => ch.rxErr
  | 0x1C => ch.txCnt
  | 0x20 => ch.pktStart
  | 0x24 => ch.pktLen
  | 0x28 => ch.dataStart
  | 0x2C => ch.dataLen
  | 0x30 => ch.pktHdr
  | 0x34 => ch.dhdrId
  | 0x38 => ch.dhdrSize
  | 0x3C => ch.dhdrOffset
  | _ => 0

/-- The host's address of `ARGi` (R41). -/
def argOffset (i : Fin 8) : Nat := 0x020 + 4 * i.val

/-- The host's address of `RESi` (R41). -/
def resOffset (i : Fin 4) : Nat := 0x040 + 4 * i.val

/-- The host's address of channel `c`'s bank register at bank offset `k` (R41). -/
def bankOffset (c k : Nat) : Nat := 0x100 + 0x40 * c + k

/-- The `ARGi` at a register offset, if there is one. -/
def argAt (off : Nat) : Option (Fin 8) := (List.finRange 8).find? fun i => argOffset i == off

/-- The `RESi` at a register offset, if there is one. -/
def resAt (off : Nat) : Option (Fin 4) := (List.finRange 4).find? fun i => resOffset i == off

/-- What a host read of the register at offset `off` returns (R41): 0 where no register is mapped. -/
def State.register (s : State) (off : Nat) : Word :=
  match off with
  | 0x000 => s.cmd
  | 0x004 => s.status.word
  | 0x008 => s.ctrl.word
  | 0x00C => BitVec.ofNat 32 s.params.nch
  | 0x010 => BitVec.ofNat 32 s.params.capMax
  | 0x014 => BitVec.ofNat 32 s.params.dmemSize
  | 0x018 => BitVec.ofNat 32 s.params.maxBody
  | 0x01C => BitVec.ofNat 32 s.params.maxDataset
  | off =>
    match argAt off with
    | some i => s.arg i
    | none =>
      match resAt off with
      | some i => s.result i
      | none =>
        if 0x100 ≤ off ∧ (off - 0x100) / 0x40 < s.params.nch then
          (s.chan (BitVec.ofNat 4 ((off - 0x100) / 0x40))).bankRegister ((off - 0x100) % 0x40)
        else 0

/-- A host write of a register other than CMD (R21, R41, 20_memory.md R87): `ARGi` stores the value, every
other register ignores it. -/
def State.writeRegister (s : State) (off : Nat) (v : Word) : State :=
  match argAt off with
  | some i => s.setArg i v
  | none => s

/-- The number of bytes of an access. -/
def Width.count : Width → Nat
  | .byte => 1
  | .half => 2
  | .word => 4

/-- The first host address after the register space (20_memory.md R83). -/
def registerSpaceEnd : Nat := 0x1000

/-- The host address of DMEM offset 0 (20_memory.md R83). -/
def dmemWindow : Nat := 0x00100000

/-- The size of the DMEM window and of each RB window (20_memory.md R83). -/
def windowSize : Nat := 0x00100000

/-- The host address of `RB[0][0]` (20_memory.md R83). -/
def rbWindow : Nat := 0x01000000

/-- The address of byte `k` of an access at `addr`. Address arithmetic is unbounded and never wraps (00_scope.md R10,
41_checksum.md R180 (d)), so an access at the top of the 32-bit address space has bytes past its end, where nothing is
mapped (log entry 10). -/
def accessAddr (addr : Word) (k : Nat) : Nat := addr.toNat + k

/-- Some byte of the access lies in the register space. -/
def touchesRegisters (addr : Word) (w : Width) : Bool :=
  (List.range w.count).any fun k => decide (accessAddr addr k < registerSpaceEnd)

/-- The one access form the register space has: 32 bits at a 4-aligned offset (20_memory.md R86). -/
def registerForm (addr : Word) (w : Width) : Bool := w == .word && addr.toNat % 4 == 0

/-- What a host read of the byte at host address `a`, outside the register space, returns (20_memory.md R83
to R85): 0 where no byte is mapped. -/
def State.windowByte (s : State) (a : Nat) : Byte :=
  if dmemWindow ≤ a ∧ a < dmemWindow + windowSize then
    if a - dmemWindow < s.params.dmemSize then s.dmemByte (a - dmemWindow) else 0
  else if rbWindow ≤ a ∧ a < rbWindow + 16 * windowSize then
    let c := (a - rbWindow) / windowSize
    let i := (a - rbWindow) % windowSize
    if c < s.params.nch ∧ i < (s.chan (BitVec.ofNat 4 c)).cap.toNat then s.rbByte (BitVec.ofNat 4 c) i else 0
  else 0

/-- A window read, assembled little-endian and zero-extended (R84, R85; log entry 10). -/
def State.windowRead (s : State) (addr : Word) (w : Width) : Word :=
  let b := fun k => if k < w.count then s.windowByte (accessAddr addr k) else 0
  le32 (b 0) (b 1) (b 2) (b 3)

/-- A host write of one byte at host address `a`, outside the register space (R84, R85, R87): it reaches
DMEM or is dropped. -/
def State.windowWriteByte (s : State) (a : Nat) (v : Byte) : State :=
  if dmemWindow ≤ a ∧ a < dmemWindow + windowSize ∧ a - dmemWindow < s.params.dmemSize then
    s.dmemWrite (a - dmemWindow) [v]
  else s

/-- A window write: the low bytes of the value, least significant first (R84; log entry 10). -/
def State.windowWrite (s : State) (addr : Word) (w : Width) (v : Word) : State :=
  (List.range w.count).foldl (fun t k => t.windowWriteByte (accessAddr addr k) (byteOf v k)) s

end Sys2Proof.Machine
end

