-- ==== Sys2Proof/Machine/HostPort.lean ====
section
/-!
DEFINITION. How one operation at the host port is served (10_state.md R20, R23; 20_memory.md R83 to R87, R94;
30_encoding.md R110, R122; 70_reset_and_hazards.md R280): each completes before the next.
-/

namespace Sys2Proof.Machine

/-- A word the host's read returns (the model's own record, log entry 2). -/
def State.reply (s : State) (v : Word) : State := { s with port := { s.port with replies := v :: s.port.replies } }

/-- Operations the host issues before the pending ones. -/
def State.enqueueFront (s : State) (ops : List HostOp) : State :=
  { s with port := { s.port with pending := ops ++ s.port.pending } }

/-- The host address of CMD (10_state.md R41). -/
def cmdAddr : Word := 0x00000000

/-- The host address of RES0 (10_state.md R41). -/
def res0Addr : Word := 0x00000040

/-- A host write of `w` to CMD (R23, R110): CMD holds the word, a legal one or not (log entry 15), and the block
executes it. -/
def runCommand (w : Word) (s : State) : Host.Outcome State Fault Refusal :=
  match decode w with
  | .ok i => exec i { s with cmd := w }
  | .error _ => .next (({ s with cmd := w } : State).raiseIllegal w)

/-- The block after its reset input is asserted (R280, R281): reset values, fresh memory draws, the same
parameters, and the host's side of the port as it was. -/
def State.afterReset (s : State) : State :=
  { State.reset with params := s.params, epoch := s.epoch + 1, port := s.port }

/-- A host read (R83 to R87). -/
def serveRead (addr : Word) (w : Width) (s : State) : Host.Outcome State Fault Refusal :=
  if touchesRegisters addr w then
    if registerForm addr w then .next (s.reply (s.register addr.toNat)) else .refused (.registerAccess addr w)
  else .next (s.reply (s.windowRead addr w))

/-- A host write (R83 to R87). -/
def serveWrite (addr : Word) (w : Width) (v : Word) (s : State) : Host.Outcome State Fault Refusal :=
  if touchesRegisters addr w then
    if registerForm addr w then
      if addr = cmdAddr then runCommand v s else .next (s.writeRegister addr.toNat v)
    else .refused (.registerAccess addr w)
  else .next (s.windowWrite addr w v)

/-- One round of `DRAIN ch` (R122): PARSE, RD RES0, and the test whether it was NONE. -/
def drainRound (c : BitVec 4) : List HostOp :=
  [.write cmdAddr .word (encode (.parse c)), .read res0Addr .word, .drainTest c]

/-- The end of a round: the host stops when the word it read last is NONE, and else starts another round
(R122; log entry 18). -/
def drainDecide (c : BitVec 4) (s : State) : State :=
  if s.port.replies.head? = some ResultTag.none.word then s else s.enqueueFront [.drain c]

/-- One operation at the port. -/
def serve (op : HostOp) (s : State) : Host.Outcome State Fault Refusal :=
  match op with
  | .read addr w => serveRead addr w s
  | .write addr w v => serveWrite addr w v s
  | .drain c => .next (s.enqueueFront (drainRound c))
  | .drainTest c => .next (drainDecide c s)
  | .reset => .next s.afterReset

/-- The next pending operation is taken from the port and served; with none pending the block holds all
state unchanged (R20, 60_exceptions.md R275). -/
def serveNext (s : State) : Host.Outcome State Fault Refusal :=
  match s.port.pending with
  | [] => .next s
  | op :: rest => serve op { s with port := { s.port with pending := rest } }

end Sys2Proof.Machine
end

