-- ==== Sys2Proof/Machine/Step.lean ====
section
/-!
DEFINITION. One step of the machine: the next operation at the host port (10_state.md R20, 30_encoding.md
R123), under a lawful choice of parameters (00_scope.md R8).
-/

namespace Sys2Proof.Machine

/-- One step. A parameter choice outside R7's ranges or against R8's laws is refused (log entry 6). -/
def step (s : State) : Host.Outcome State Fault Refusal :=
  if s.params.lawful then serveNext s else .refused .unlawfulParams

/-- The state whose next step is the host's write of the word `w` to CMD. The block fetches nothing (R22,
20_memory.md R97): a command is a word the host writes, so the word stands first at the host port (log
entry 1). -/
def State.withFetchWord (s : State) (nbits w : Nat) : State :=
  s.enqueueFront [.write cmdAddr .word (BitVec.ofNat 32 (w % 2 ^ nbits))]

end Sys2Proof.Machine
end

