-- ==== Sys2Proof/Machine/HostProgram.lean ====
section
/-!
DEFINITION. The pseudo-instructions of 30_encoding.md R122 and their expansion to host operations, and
programs (R123). DRAIN is an operation of the port, since its length depends on what the host reads.
-/

namespace Sys2Proof.Machine

/-- The memory a `RDB` reads. -/
inductive ByteSpace where
  | dmem
  | rb (ch : BitVec 4)
  deriving DecidableEq, Repr

/-- One line of a program: a command, or a pseudo-instruction of R122. -/
inductive ProgramOp where
  /-- a command: its word is written to CMD -/
  | cmd (i : Instr)
  /-- `WR ARGi, v` -/
  | wr (i : Fin 8) (v : Word)
  /-- `RD reg`, the register at an offset of the register map -/
  | rd (off : Word)
  /-- `WRB off, b0, b1, ...` -/
  | wrb (off : Nat) (bytes : List Byte)
  /-- `RDB space, off, n` -/
  | rdb (space : ByteSpace) (off n : Nat)
  /-- `FEED ch, b0, ..., bk` -/
  | feed (ch : BitVec 4) (bytes : List Byte)
  /-- `DRAIN ch` -/
  | drain (ch : BitVec 4)
  /-- `LDARGS a0, a1, ...` -/
  | ldargs (values : List Word)
  deriving DecidableEq, Repr

/-- The host operation that executes a command: a write of its word to CMD (R23). -/
def commandOp (i : Instr) : HostOp := .write cmdAddr .word (encode i)

/-- The host address of offset 0 of a memory's window (20_memory.md R83). -/
def ByteSpace.base : ByteSpace → Nat
  | .dmem => dmemWindow
  | .rb ch => rbWindow + windowSize * ch.toNat

/-- A host address where nothing is mapped: the first one after the register space (20_memory.md R83). -/
def unmappedAddr : Word := 0x00001000

/-- The host address of byte `off` of a memory's window (20_memory.md R83). R122 does not say what WRB and RDB do with
an offset past the 1 MiB window, which has no host address: the model's choice is an unmapped address, so that such a
byte reads 0 and its write is dropped, as for every byte of the window above the memory (R84, R85), and it never
reaches another window or a register (DESIGN CHOICE, log entry 22). -/
def ByteSpace.addr (space : ByteSpace) (off : Nat) : Word :=
  if off < windowSize then BitVec.ofNat 32 (space.base + off) else unmappedAddr

/-- `WRB` (R122): the bytes go to rising offsets. R122 does not say in accesses of which width, and R84 allows 1, 2 and 4
bytes: the model's choice is one 1-byte write for each byte, in the order of the line (DESIGN CHOICE, log entry 23). -/
def wrbOps : Nat → List Byte → List HostOp
  | _, [] => []
  | off, b :: bs => .write (ByteSpace.dmem.addr off) .byte (byteWord b) :: wrbOps (off + 1) bs

/-- `RDB` (R122): `n` bytes are read. R122 does not say in accesses of which width or in which order, and R84 and R85
allow 1, 2 and 4 bytes: the model's choice is `n` 1-byte reads at rising offsets, so that `RDB` leaves one reply for each
byte (DESIGN CHOICE, log entry 23), zero-extended (log entry 10). -/
def rdbOps (space : ByteSpace) (off n : Nat) : List HostOp :=
  (List.range' off n).map fun k => .read (space.addr k) .byte

/-- `LDARGS` (R122): the values go to ARG0, ARG1, ... in order. R122 does not say what a ninth value does, and no ARG8
exists (10_state.md R41): the model's choice is that the values after the eighth expand to no operation (DESIGN
CHOICE, log entry 21). -/
def ldargsOps (values : List Word) : List HostOp :=
  ((List.finRange 8).zip values).map fun (i, v) => .write (BitVec.ofNat 32 (argOffset i)) .word v

/-- The host operations a line expands to (R122). The access widths of WRB and RDB are the model's choice (DESIGN CHOICE,
log entry 23). -/
def ProgramOp.expand : ProgramOp → List HostOp
  | .cmd i => [commandOp i]
  | .wr i v => [.write (BitVec.ofNat 32 (argOffset i)) .word v]
  | .rd off => [.read off .word]
  | .wrb off bytes => wrbOps off bytes
  | .rdb space off n => rdbOps space off n
  | .feed ch bytes => bytes.flatMap fun b => [commandOp (.parseByte ch b), .read res0Addr .word]
  | .drain ch => [.drain ch]
  | .ldargs values => ldargsOps values

/-- A program: its operations in order (R123). -/
def programOps (lines : List ProgramOp) : List HostOp := lines.flatMap ProgramOp.expand

/-- A machine with a program waiting at its host port. -/
def State.withProgram (s : State) (lines : List ProgramOp) : State :=
  { s with port := { s.port with pending := s.port.pending ++ programOps lines } }

end Sys2Proof.Machine
end

