-- ==== Sys2Proof/Safety.lean ====
section
/-!
DEFINITION. What counts as a safe state and a safe run, in the terms the statements use: the ring-buffer
invariants of 10_state.md R28 with the candidate facts of R29 and 42_parser.md R194 to R196, the canonical
form and the bounds of the memories, and the host operations the spec gives a meaning (20_memory.md R86).
-/

namespace Sys2Proof.Safety

open Sys2Proof.Machine

/-- Every listed address of a memory lies below `n`. -/
def memBelow (m : Memory) (n : Nat) : Prop := ∀ cell ∈ m, cell.1 < n

/-- The invariants of an initialized channel (R28, R29, R195). -/
structure ChannelInv (p : Params) (draw : Nat → Byte) (ch : Channel) : Prop where
  /-- `1 <= C` -/
  cap_pos : 1 ≤ ch.cap.toNat
  /-- `C <= CAP_MAX` -/
  cap_le : ch.cap.toNat ≤ p.capMax
  /-- `head <= scan` -/
  head_le_scan : ch.head.toNat ≤ ch.scan.toNat
  /-- `scan <= tail` -/
  scan_le_tail : ch.scan.toNat ≤ ch.tail.toNat
  /-- `tail <= C` -/
  tail_le_cap : ch.tail.toNat ≤ ch.cap.toNat
  /-- in IDLE, `head = scan` and `CAND = 7` -/
  idle : ch.pstate = .idle → ch.head = ch.scan ∧ ch.cand = none
  /-- HAVE_START holds exactly the first byte of the ublox pattern (R195) -/
  have_start : ch.pstate = .haveStart → ch.cand = some .ublox ∧ ch.scan.toNat = ch.head.toNat + 1
  /-- in ACCUM there is a candidate, and it has its start byte -/
  accum : ch.pstate = .accum → ch.cand ≠ none ∧ ch.head.toNat < ch.scan.toNat
  /-- a ublox candidate in ACCUM has both bytes of its pattern (R195, R197) -/
  accum_ublox : ch.pstate = .accum → ch.cand = some .ublox →
    ch.head.toNat + 2 ≤ ch.scan.toNat ∧ ch.byteAt draw (ch.head.toNat + 1) = Config.ubxSync2
  /-- VALIDATING is never observed between commands (R29) -/
  not_validating : ch.pstate ≠ .validating
  /-- `RB[head]` is the candidate's start byte (R28) -/
  start_byte : ∀ k, ch.cand = some k → ch.byteAt draw ch.head.toNat = k.startByte
  /-- the ring buffer's memory keeps its canonical form -/
  rb_wf : ch.rb.wf = true
  /-- no byte lies outside the storage (20_memory.md R81) -/
  rb_below : memBelow ch.rb p.capMax

/-- The invariant of the machine, kept by every step. -/
structure Inv (s : State) : Prop where
  /-- the parameters are ones a model accepts (00_scope.md R7, R8) -/
  params_lawful : s.params.lawful = true
  /-- DMEM's memory keeps its canonical form -/
  dmem_wf : s.dmem.wf = true
  /-- no byte lies outside DMEM (20_memory.md R80) -/
  dmem_below : memBelow s.dmem s.params.dmemSize
  /-- an initialized channel meets R28 -/
  channel : ∀ c : BitVec 4, (s.chan c).inited = true → ChannelInv s.params (s.rbDraws c) (s.chan c)
  /-- a channel no INIT has run on is as reset left it (R42) -/
  untouched : ∀ c : BitVec 4, (s.chan c).inited = false → s.chan c = Channel.reset
  /-- a slot at or above `NCH` is no channel: nothing has written it -/
  absent : ∀ c : BitVec 4, s.params.nch ≤ c.toNat → s.chan c = Channel.reset

/-- A host operation the spec gives a meaning: a register access is 32 bits wide and 4-aligned (20_memory.md
R86); every other operation is. -/
def hostOpOk : HostOp → Bool
  | .read addr w => !touchesRegisters addr w || registerForm addr w
  | .write addr w _ => !touchesRegisters addr w || registerForm addr w
  | .drain _ => true
  | .drainTest _ => true
  | .reset => true

/-- The machine does not stop: the step answers a next state. -/
def goesOn (s : State) : Prop := ∃ t, step s = .next t

/-- Every pending host operation has a meaning, and the parameters are lawful: such a machine never stops. -/
def Safe (s : State) : Prop := s.params.lawful = true ∧ ∀ op ∈ s.port.pending, hostOpOk op = true

/-- The channel exists and INIT has run on it: the operand checks of a channel command pass (60_exceptions.md
R254, R255). -/
def channelReady (s : State) (c : BitVec 4) : Prop := c.toNat < s.params.nch ∧ (s.chan c).inited = true

/-- The channel a command names, if its format has a CH field (30_encoding.md R111). -/
def channelOf : Instr → Option (BitVec 4)
  | .init c => some c
  | .setMask c _ => some c
  | .append c => some c
  | .free c => some c
  | .parseByte c _ => some c
  | .parse c => some c
  | .encode c _ => some c
  | .nop => none
  | .cksum => none
  | .crc24 => none
  | .getbits => none
  | .decode => none
  | .decodeByte => none
  | .decodeFooter => none
  | .encEnable _ => none
  | .setHostOrder _ => none

/-- The state after the same command `k` times, if each answers a next state. -/
def execTimes (i : Instr) : Nat → State → Option State
  | 0, s => some s
  | k + 1, s =>
    match exec i s with
    | .next t => execTimes i k t
    | .fault _ => none
    | .refused _ => none

/-- PARSE_BYTE for each byte in turn, and the word each leaves in RES0 (the commands of `FEED`, R122). -/
def feed (c : BitVec 4) : List Byte → State → Option (State × List Word)
  | [], s => some (s, [])
  | b :: bs, s =>
    match exec (.parseByte c b) s with
    | .next t => (feed c bs t).map fun r => (r.1, t.result 0 :: r.2)
    | .fault _ => none
    | .refused _ => none

/-- The state after `k` steps, if no step stops. -/
def runs : Nat → State → State → Prop
  | 0, s, t => s = t
  | k + 1, s, t => ∃ u, step s = .next u ∧ runs k u t

end Sys2Proof.Safety
end

