-- ==== Sys2Proof/Certificates/Slice0/Obligations.lean ====
section
/-!
DEFINITION. The statements for the provers. Each says what a numbered rule of spec/ says of the machine, for
every state and operand its hypotheses admit; OBLIGATIONS.json names the rules.
-/

open Sys2Proof Sys2Proof.Machine Sys2Proof.Safety

/-! ## Encoding (30_encoding.md) -/

/-- R110, R111, R118: the decoder reads every command back from its word, every operand at every value. -/
def Obligations.DecodeOfEncode : Prop := ∀ i : Instr, decode (encode i) = .ok i

/-- R118: a word encodes a listed command exactly when `w AND mask = match` for a row of the table, and then
it is the word of the command it decodes to. -/
def Obligations.DecodeIsTableMatch : Prop :=
  ∀ w : Word,
    ((∃ i, decode w = .ok i) ↔
      ∃ row ∈ ([(0x00000000, 0xFFFFFFFF), (0x01000000, 0xFF0FFFFF), (0x02000000, 0xFF0FFF80),
          (0x03000000, 0xFF0FFFFF), (0x04000000, 0xFF0FFFFF), (0x05000000, 0xFF0FFF00), (0x06000000, 0xFF0FFFFF),
          (0x10000000, 0xFFFFFFFF), (0x11000000, 0xFFFFFFFF), (0x12000000, 0xFFFFFFFF), (0x20000000, 0xFF0FFFFE),
          (0x21000000, 0xFFFFFFFF), (0x22000000, 0xFFFFFFFF), (0x23000000, 0xFFFFFFFF), (0x30000000, 0xFFFFFFFE),
          (0x31000000, 0xFFFFFFFE)] : List (Word × Word)), w &&& row.2 = row.1) ∧
    ∀ i, decode w = .ok i → encode i = w

/-- The worked encodings of 30_encoding.md section 5, which the spec marks as its own inference ("Encoding examples
(from rules R110, R111 and R118)"). -/
def Obligations.EncodingExamples : Prop :=
  (∀ row ∈ ([(.nop, 0x00000000), (.init 1, 0x01100000), (.setMask 0 0x04, 0x02000004), (.parseByte 0 0xB5, 0x050000B5),
      (.parseByte 1 0x62, 0x05100062), (.parse 0, 0x06000000), (.encode 0 .v2, 0x20000001),
      (.encEnable false, 0x30000000), (.setHostOrder true, 0x31000001)] : List (Instr × Word)),
    encode row.1 = row.2 ∧ decode row.2 = .ok row.1) ∧
  decode 0x01100001 = .error (.reservedBits 0x01) ∧ decode 0x07000000 = .error (.unassignedOpcode 0x07)

/-! ## The host port (10_state.md R20 to R26; 20_memory.md R83 to R87) -/

/-- R23, R110: a host write of a word to CMD executes the command the word decodes to. The step takes the
write from the port (the model's own queue, log entry 1) and latches CMD; the rest is the command. -/
def Obligations.StepRunsCommandWord : Prop :=
  ∀ (s : State) (w : Word) (rest : List HostOp) (i : Instr),
    s.params.lawful = true → s.port.pending = .write 0 .word w :: rest → decode w = .ok i →
    step s = exec i { s with cmd := w, port := ⟨rest, s.port.replies⟩ }

/-- R110, R120, R253: an illegal word raises ILLEGAL_CMD and changes nothing but STATUS; `STATUS.OPC` is the
word's own. That CMD too holds the word the host wrote is read from R23 (log entry 15). -/
def Obligations.IllegalWordWritesOnlyStatus : Prop :=
  ∀ (s : State) (w : Word) (rest : List HostOp) (e : Illegal),
    s.params.lawful = true → s.port.pending = .write 0 .word w :: rest → decode w = .error e →
    step s = .next { s with
      cmd := w
      status := ⟨w.extractLsb' 24 8, .illegalCmd⟩
      port := ⟨rest, s.port.replies⟩ }

/-- R20, R275: the block never acts on its own; with no host operation it holds all state unchanged. -/
def Obligations.IdleBlockHoldsState : Prop :=
  ∀ s : State, s.params.lawful = true → s.port.pending = [] → step s = .next s

/-- "Host reads have no side effects anywhere" (20_memory.md section 2): a host read changes nothing but the host's own
record of replies (log entry 2), and the same read again returns the same value. -/
def Obligations.HostReadsHaveNoSideEffect : Prop :=
  ∀ (s : State) (addr : Word) (w : Width) (rest : List HostOp),
    s.params.lawful = true → hostOpOk (.read addr w) = true →
    s.port.pending = .read addr w :: .read addr w :: rest →
    ∃ v : Word,
      step s = .next { s with port := ⟨.read addr w :: rest, v :: s.port.replies⟩ } ∧
      runs 2 s { s with port := ⟨rest, v :: v :: s.port.replies⟩ }

/-- R86: a register-space access that is not 32 bits wide at a 4-aligned offset is refused. -/
def Obligations.RegisterAccessForm : Prop :=
  ∀ (s : State) (addr v : Word) (w : Width) (rest : List HostOp),
    s.params.lawful = true → addr.toNat < 0x1000 → ¬ (w = .word ∧ addr.toNat % 4 = 0) →
    (s.port.pending = .read addr w :: rest → step s = .refused (.registerAccess addr w)) ∧
    (s.port.pending = .write addr w v :: rest → step s = .refused (.registerAccess addr w))

/-- R24, R25, R26, R30, R31, R33, R34, R36, R41, R44: a step that serves a host's 32-bit read of a 4-aligned register
offset returns that register and changes nothing but the host's own record of replies (log entry 2); what each
register offset reads, 0 where no register is mapped; and the numeric codes of the enumerated fields. -/
def Obligations.RegisterMapReads : Prop :=
  (∀ (s : State) (addr : Word) (rest : List HostOp),
    s.params.lawful = true → addr.toNat < 0x1000 → addr.toNat % 4 = 0 → s.port.pending = .read addr .word :: rest →
    step s = .next { s with port := ⟨rest, s.register addr.toNat :: s.port.replies⟩ }) ∧
  (∀ s : State,
    s.register 0x000 = s.cmd ∧
    s.register 0x004 = (0 : BitVec 16) ++ s.status.opc ++ s.status.code.code ∧
    s.register 0x008 = (0 : BitVec 30) ++ BitVec.ofBool s.ctrl.hostLe ++ BitVec.ofBool s.ctrl.encEn ∧
    s.register 0x00C = BitVec.ofNat 32 s.params.nch ∧ s.register 0x010 = BitVec.ofNat 32 s.params.capMax ∧
    s.register 0x014 = BitVec.ofNat 32 s.params.dmemSize ∧ s.register 0x018 = BitVec.ofNat 32 s.params.maxBody ∧
    s.register 0x01C = BitVec.ofNat 32 s.params.maxDataset ∧
    (∀ i : Fin 8, s.register (0x020 + 4 * i.val) = s.arg i) ∧
    (∀ i : Fin 4, s.register (0x040 + 4 * i.val) = s.result i) ∧
    (∀ off, (0x050 ≤ off ∧ off < 0x100) ∨ 0x100 + 0x40 * s.params.nch ≤ off → s.register off = 0) ∧
    ∀ c : BitVec 4, c.toNat < s.params.nch →
      let base := 0x100 + 0x40 * c.toNat
      let ch := s.chan c
      s.register base = (0 : BitVec 12) ++ ch.lastErr.code ++ ch.lastTag.code ++ (0 : BitVec 1)
        ++ BitVec.ofBool ch.pktValid ++ candCode ch.cand ++ ch.pstate.code ++ BitVec.ofBool ch.inited ∧
      s.register (base + 0x04) = ch.mask.setWidth 32 ∧ s.register (base + 0x08) = ch.cap ∧
      s.register (base + 0x0C) = ch.head ∧ s.register (base + 0x10) = ch.scan ∧
      s.register (base + 0x14) = ch.tail ∧ s.register (base + 0x18) = ch.rxErr ∧
      s.register (base + 0x1C) = ch.txCnt ∧ s.register (base + 0x20) = ch.pktStart ∧
      s.register (base + 0x24) = ch.pktLen ∧ s.register (base + 0x28) = ch.dataStart ∧
      s.register (base + 0x2C) = ch.dataLen ∧ s.register (base + 0x30) = ch.pktHdr ∧
      s.register (base + 0x34) = ch.dhdrId ∧ s.register (base + 0x38) = ch.dhdrSize ∧
      s.register (base + 0x3C) = ch.dhdrOffset) ∧
  ([StatusCode.ok, .illegalCmd, .badChannel, .notInit, .badArg, .oob, .bufferFull, .encodeTooLarge, .cksumMismatch,
      .malformed, .dstTooSmall].map StatusCode.code
    = [0x00, 0x01, 0x02, 0x03, 0x04, 0x05, 0x06, 0x07, 0x08, 0x09, 0x0A]) ∧
  ([ResultTag.none, .parseError, .nativeData, .nativeCmd, .nativeAck, .asciiNmea, .ublox, .rtcm3, .sony,
      .spartn].map ResultTag.code
    = [0, 1, 2, 3, 4, 5, 6, 7, 8, 9]) ∧
  ([Cause.none, .cksum, .length, .malformed, .overflow].map Cause.code = [0, 1, 2, 3, 4]) ∧
  ([PState.idle, .haveStart, .accum, .validating].map PState.code = [0, 1, 2, 3]) ∧
  ([some Family.isbV2, some .isbV1, some .ublox, some .rtcm3, some .sony, some .spartn, some .ascii, none].map candCode
    = [0, 1, 2, 3, 4, 5, 6, 7])

/-- R21, R41, R87: a host write of a register other than CMD stores the value at an `ARGi` and changes
nothing anywhere else. -/
def Obligations.HostRegisterWrites : Prop :=
  ∀ (s : State) (off : Nat) (v : Word) (rest : List HostOp),
    s.params.lawful = true → off < 0x1000 → off % 4 = 0 → off ≠ 0 →
    s.port.pending = .write (BitVec.ofNat 32 off) .word v :: rest →
    (∀ i : Fin 8, off = 0x020 + 4 * i.val →
      step s = .next { s with args := s.args.set i v, port := ⟨rest, s.port.replies⟩ }) ∧
    ((∀ i : Fin 8, off ≠ 0x020 + 4 * i.val) → step s = .next { s with port := ⟨rest, s.port.replies⟩ })

/-- R83, R84: an access of 1, 2 or 4 bytes inside the DMEM window, at any alignment. A write puts the value's low bytes
at consecutive offsets, the least significant first, drops those at or above DMEM_SIZE and changes nothing else; a
read returns the bytes in the same order, 0 for those at or above DMEM_SIZE; and a read after a 4-byte write in
DMEM returns the value. That a reply to a read of 1 or 2 bytes is zero-extended is the model's choice (log entry 10). -/
def Obligations.DmemWindowReadsBackWrites : Prop :=
  ∀ (s : State) (o : Nat) (v : Word) (w : Width) (rest : List HostOp),
    let n := match w with
      | .byte => 1
      | .half => 2
      | .word => 4
    let addr := BitVec.ofNat 32 (0x00100000 + o)
    s.params.lawful = true → o + n ≤ 0x00100000 →
    (s.port.pending = .write addr w v :: rest →
      ∃ t : State, step s = .next t ∧ t = { s with dmem := t.dmem, port := ⟨rest, s.port.replies⟩ } ∧
        (∀ k, k < n → o + k < s.params.dmemSize → t.dmemByte (o + k) = v.extractLsb' (8 * k) 8) ∧
        ∀ a, a < o ∨ o + n ≤ a ∨ s.params.dmemSize ≤ a → t.dmemByte a = s.dmemByte a) ∧
    (s.port.pending = .read addr w :: rest →
      let b := fun k => if k < n ∧ o + k < s.params.dmemSize then s.dmemByte (o + k) else 0
      step s = .next { s with port := ⟨rest, (b 3 ++ b 2 ++ b 1 ++ b 0) :: s.port.replies⟩ }) ∧
    (s.port.pending = .write addr .word v :: .read addr .word :: rest → o + 4 ≤ s.params.dmemSize →
      ∃ t : State, runs 2 s t ∧ t = { s with dmem := t.dmem, port := ⟨rest, v :: s.port.replies⟩ })

/-- R83, R85: an access of 1, 2 or 4 bytes inside the RB window of any of the sixteen channel numbers, at any alignment.
A read returns the bytes little-endian, 0 for a byte at or above `C` and for every byte of a channel at or above NCH;
a write changes nothing. That a reply to a read of 1 or 2 bytes is zero-extended is the model's choice (log entry 10).
And an access all of whose bytes lie in one of the three unmapped ranges of R83's map, between the register space and
the DMEM window, between it and the RB windows, or above them: a read returns 0, and a write changes nothing. -/
def Obligations.RbWindowIsReadOnly : Prop :=
  (∀ (s : State) (c : BitVec 4) (i : Nat) (v : Word) (w : Width) (rest : List HostOp),
    let n := match w with
      | .byte => 1
      | .half => 2
      | .word => 4
    let addr := BitVec.ofNat 32 (0x01000000 + 0x00100000 * c.toNat + i)
    s.params.lawful = true → i + n ≤ 0x00100000 →
    (s.port.pending = .read addr w :: rest →
      let b := fun k =>
        if k < n ∧ c.toNat < s.params.nch ∧ i + k < (s.chan c).cap.toNat then s.rbByte c (i + k) else 0
      step s = .next { s with port := ⟨rest, (b 3 ++ b 2 ++ b 1 ++ b 0) :: s.port.replies⟩ }) ∧
    (s.port.pending = .write addr w v :: rest → step s = .next { s with port := ⟨rest, s.port.replies⟩ })) ∧
  ∀ (s : State) (addr v : Word) (w : Width) (rest : List HostOp),
    let n := match w with
      | .byte => 1
      | .half => 2
      | .word => 4
    let a := addr.toNat
    s.params.lawful = true →
    (0x00001000 ≤ a ∧ a + n ≤ 0x00100000) ∨ (0x00200000 ≤ a ∧ a + n ≤ 0x01000000) ∨
      (0x02000000 ≤ a ∧ a + n ≤ 0x100000000) →
    (s.port.pending = .read addr w :: rest → step s = .next { s with port := ⟨rest, 0 :: s.port.replies⟩ }) ∧
    (s.port.pending = .write addr w v :: rest → step s = .next { s with port := ⟨rest, s.port.replies⟩ })

/-! ## Reset (10_state.md R41 to R43; 70_reset_and_hazards.md R280) -/

/-- R41, R42, R43: the reset values of the registers and of every channel. The values of the five `P_` registers are the
default column of R7, which State.reset takes by the model's choice (log entry 6). -/
def Obligations.ResetValues : Prop :=
  State.reset.register 0x000 = 0x00000000 ∧ State.reset.register 0x004 = 0x00000000 ∧
  State.reset.register 0x008 = 0x00000003 ∧ State.reset.register 0x00C = 2 ∧ State.reset.register 0x010 = 4096 ∧
  State.reset.register 0x014 = 8192 ∧ State.reset.register 0x018 = 1024 ∧ State.reset.register 0x01C = 1024 ∧
  (∀ i : Fin 8, State.reset.arg i = 0x00000000) ∧ (∀ i : Fin 4, State.reset.result i = 0x00000000) ∧
  ∀ c : BitVec 4, State.reset.chan c =
    { inited := false, cap := 0, rb := [], head := 0, scan := 0, tail := 0, mask := 0, pstate := .idle, cand := none,
      rxErr := 0, txCnt := 0, lastTag := .none, lastErr := .none, pktValid := false, pktStart := 0, pktLen := 0,
      dataStart := 0, dataLen := 0, pktHdr := 0, dhdrId := 0, dhdrSize := 0, dhdrOffset := 0 }

/-- R280: after the reset input, every register and channel holds its reset value; the parameters stay. That
the host's port and its replies stay, and that the memory draws are new ones, is the model's choice (log
entries 1, 5 and 17). -/
def Obligations.ResetInputRestoresResetValues : Prop :=
  ∀ (s : State) (rest : List HostOp), s.params.lawful = true → s.port.pending = .reset :: rest →
    step s = .next
      { params := s.params, cmd := 0, status := ⟨0, .ok⟩, ctrl := ⟨true, true⟩, args := Vector.replicate 8 0,
        res := Vector.replicate 4 0, dmem := [], chans := Vector.replicate 16 Channel.reset, epoch := s.epoch + 1,
        port := ⟨rest, s.port.replies⟩ }

/-! ## The machine as a whole -/

/-- The invariant holds at reset. Inv is what 10_state.md section 5 says holds between commands ("Ring-buffer
invariants", which the spec marks as derived) with the model's canonical form of the memories (log entry 3). -/
def Obligations.InvAtReset : Prop := Inv State.reset

/-- Every step keeps the invariant, from every state that meets it: the spec marks this as its own inference
(10_state.md: "Every command preserves these invariants"; 40_ring_buffer.md "Invariant preservation";
42_parser.md "Invariants"). -/
def Obligations.StepKeepsInv : Prop := ∀ s t : State, Inv s → step s = .next t → Inv t

/-- No command and no host operation of a form the register space admits ever stops the machine (60_exceptions.md:
"No status is fatal, and none needs a reset or an INIT to clear it", which the spec marks as derived). -/
def Obligations.SafeMachineNeverStops : Prop := ∀ s : State, Safe s → ∃ t, step s = .next t ∧ Safe t

/-- R250: every command ends by writing STATUS, with its own OPC. -/
def Obligations.EveryCommandWritesStatus : Prop :=
  ∀ (i : Instr) (s : State), ∃ t, exec i s = .next t ∧ t.status.opc = i.opcode

/-- R262 (b): a failing status changes nothing but STATUS, with three exceptions. -/
def Obligations.FailureChangesOnlyStatus : Prop :=
  ∀ (i : Instr) (s t : State), exec i s = .next t → t.status.code ≠ .ok →
    ¬ ((∃ c b, i = .parseByte c b) ∧ t.status.code = .bufferFull) →
    ¬ (i = .decode ∧ t.status.code = .cksumMismatch) →
    ¬ (i = .decodeByte ∧ t.status.code = .malformed) →
    t = { s with status := t.status }

/-- R270: a command that does not name channel `d` neither changes nor reads it. -/
def Obligations.ChannelsAreIndependent : Prop :=
  ∀ (i : Instr) (s t : State) (d : BitVec 4), exec i s = .next t → channelOf i ≠ some d →
    t.chan d = s.chan d ∧ ∀ ch : Channel, exec i (s.setChan d ch) = .next (t.setChan d ch)

/-- R21, R25, R80, R115: which commands may write CTRL, an `ARGi` and DMEM; no command writes CMD, and the
parameters, the memory draws and the host's port are no command's. -/
def Obligations.SharedStateWriters : Prop :=
  ∀ (i : Instr) (s t : State), exec i s = .next t →
    ((∀ b, i ≠ .encEnable b) → (∀ b, i ≠ .setHostOrder b) → t.ctrl = s.ctrl) ∧
    (i ≠ .decodeByte → t.args = s.args) ∧
    ((∀ c v, i ≠ .encode c v) → i ≠ .decode → i ≠ .decodeByte → t.dmem = s.dmem) ∧
    t.cmd = s.cmd ∧ t.params = s.params ∧ t.epoch = s.epoch ∧ t.port = s.port

/-- R181: no command but INIT of the channel changes the counters in any other way than this. `TXCNT` goes up by one at
an ENCODE on the channel that ends OK, and only there. `RXERR` goes up by one at a PARSE or PARSE_BYTE that runs on the
channel and returns PARSE_ERROR, and at a FREE that drops a candidate (`RES1 = 1`), and only there. -/
def Obligations.CountersCountOneAtATime : Prop :=
  ∀ (i : Instr) (s t : State) (c : BitVec 4), exec i s = .next t → i ≠ .init c →
    let sent := (∃ v, i = .encode c v) ∧ t.status.code = .ok
    let rejected := (i = .parse c ∨ ∃ b, i = .parseByte c b) ∧ t.status.code ≠ .badChannel ∧
      t.status.code ≠ .notInit ∧ (t.chan c).lastTag = .parseError
    let dropped := i = .free c ∧ t.status.code = .ok ∧ t.result 1 = 1
    (sent → (t.chan c).txCnt = (s.chan c).txCnt + 1) ∧ (¬ sent → (t.chan c).txCnt = (s.chan c).txCnt) ∧
    (rejected ∨ dropped → (t.chan c).rxErr = (s.chan c).rxErr + 1) ∧
    (¬ (rejected ∨ dropped) → (t.chan c).rxErr = (s.chan c).rxErr)

/-- "`C` changes only by INIT, and no command writes any RB offset at or above `C`" (40_ring_buffer.md section 2, the
spec's own inference). -/
def Obligations.NoWriteAboveCapacity : Prop :=
  ∀ (i : Instr) (s t : State) (c : BitVec 4), Inv s → exec i s = .next t →
    (i ≠ .init c → (t.chan c).cap = (s.chan c).cap) ∧
    ∀ k, (s.chan c).cap.toNat ≤ k → t.rbByte c k = s.rbByte c k

/-! ## Ring buffer and channel control (40_ring_buffer.md) -/

/-- R140: NOP is the word 0 exactly; it sets STATUS and changes nothing else. -/
def Obligations.NopCompletes : Prop :=
  encode .nop = 0x00000000 ∧
  (∀ w : Word, w.extractLsb' 24 8 = 0x00 → w ≠ 0x00000000 → decode w = .error (.reservedBits 0x00)) ∧
  ∀ s : State, exec .nop s = .next { s with status := ⟨0x00, .ok⟩ }

/-- R141: INIT's word, its two failures in their order, and its effect: it sets every field of the channel but the
ring-buffer bytes, and RES0; nothing else changes. -/
def Obligations.InitCompletes : Prop :=
  ∀ (s : State) (c : BitVec 4),
    encode (.init c) = 0x01000000 ||| c.setWidth 32 <<< 20 ∧
    (s.params.nch ≤ c.toNat → exec (.init c) s = .next { s with status := ⟨0x01, .badChannel⟩ }) ∧
    (c.toNat < s.params.nch → (s.arg 0 = 0 ∨ s.params.capMax < (s.arg 0).toNat) →
      exec (.init c) s = .next { s with status := ⟨0x01, .badArg⟩ }) ∧
    (c.toNat < s.params.nch → 1 ≤ (s.arg 0).toNat → (s.arg 0).toNat ≤ s.params.capMax →
      exec (.init c) s = .next { (s.setChan c
        { inited := true, cap := s.arg 0, rb := (s.chan c).rb, head := 0, scan := 0, tail := 0, mask := 0x4F,
          pstate := .idle, cand := none, rxErr := 0, txCnt := 0, lastTag := .none, lastErr := .none, pktValid := false,
          pktStart := 0, pktLen := 0, dataStart := 0, dataLen := 0, pktHdr := 0, dhdrId := 0, dhdrSize := 0,
          dhdrOffset := 0 }).setRes 0 (s.arg 0) with status := ⟨0x01, .ok⟩ })

/-- R144: SET_MASK's word, its two failures in their order, and its effect: it writes the channel's mask and nothing
else. -/
def Obligations.SetMaskCompletes : Prop :=
  ∀ (s : State) (c : BitVec 4) (mask : BitVec 7),
    encode (.setMask c mask) = 0x02000000 ||| c.setWidth 32 <<< 20 ||| mask.setWidth 32 ∧
    (s.params.nch ≤ c.toNat → exec (.setMask c mask) s = .next { s with status := ⟨0x02, .badChannel⟩ }) ∧
    (c.toNat < s.params.nch → (s.chan c).inited = false →
      exec (.setMask c mask) s = .next { s with status := ⟨0x02, .notInit⟩ }) ∧
    (channelReady s c → exec (.setMask c mask) s
      = .next { s.setChan c { s.chan c with mask := mask } with status := ⟨0x02, .ok⟩ })

/-- R254, R255: the channel checks, in their order, of every command that names a channel; and no other command and
no other state of the channel gives either status. -/
def Obligations.ChannelChecksComeFirst : Prop :=
  (∀ (i : Instr) (s : State) (c : BitVec 4), channelOf i = some c →
    (s.params.nch ≤ c.toNat → exec i s = .next { s with status := ⟨i.opcode, .badChannel⟩ }) ∧
    (c.toNat < s.params.nch → (s.chan c).inited = false → i ≠ .init c →
      exec i s = .next { s with status := ⟨i.opcode, .notInit⟩ })) ∧
  ∀ (i : Instr) (s t : State), exec i s = .next t →
    (t.status.code = .badChannel → ∃ c, channelOf i = some c ∧ s.params.nch ≤ c.toNat) ∧
    (t.status.code = .notInit → ∃ c, channelOf i = some c ∧ (s.chan c).inited = false ∧ i ≠ .init c)

/-- R146: APPEND's word, its failures in their order, and its effect: it copies the bytes to `[tail, tail+n)` and
moves `tail`; every other ring-buffer byte, every other field and channel, and DMEM stay. -/
def Obligations.AppendCompletes : Prop :=
  ∀ (s : State) (c : BitVec 4),
    encode (.append c) = 0x03000000 ||| c.setWidth 32 <<< 20 ∧
    (s.params.nch ≤ c.toNat → exec (.append c) s = .next { s with status := ⟨0x03, .badChannel⟩ }) ∧
    (c.toNat < s.params.nch → (s.chan c).inited = false →
      exec (.append c) s = .next { s with status := ⟨0x03, .notInit⟩ }) ∧
    (channelReady s c → s.params.dmemSize < (s.arg 0).toNat + (s.arg 1).toNat →
      exec (.append c) s = .next { s with status := ⟨0x03, .oob⟩ }) ∧
    (channelReady s c → (s.arg 0).toNat + (s.arg 1).toNat ≤ s.params.dmemSize →
      (s.chan c).cap.toNat < (s.chan c).tail.toNat + (s.arg 1).toNat →
      exec (.append c) s = .next { s with status := ⟨0x03, .bufferFull⟩ }) ∧
    (channelReady s c → (s.arg 0).toNat + (s.arg 1).toNat ≤ s.params.dmemSize →
      (s.chan c).tail.toNat + (s.arg 1).toNat ≤ (s.chan c).cap.toNat →
      ∃ t : State, exec (.append c) s = .next t ∧
        t = { s.setRes 0 ((s.chan c).cap - ((s.chan c).tail + s.arg 1)) with
              chans := t.chans, status := ⟨0x03, .ok⟩ } ∧
        (∀ d, d ≠ c → t.chan d = s.chan d) ∧
        t.chan c = { s.chan c with rb := (t.chan c).rb, tail := (s.chan c).tail + s.arg 1 } ∧
        (∀ k, k < (s.arg 1).toNat →
          t.rbByte c ((s.chan c).tail.toNat + k) = s.dmemByte ((s.arg 0).toNat + k)) ∧
        ∀ k, k < (s.chan c).tail.toNat ∨ (s.chan c).tail.toNat + (s.arg 1).toNat ≤ k → t.rbByte c k = s.rbByte c k)

/-- R147, R148: FREE moves the unconsumed bytes `[head, tail)` to offset 0, a candidate among them stays the
same candidate, and the free capacity is returned. -/
def Obligations.FreeCompacts : Prop :=
  ∀ (s : State) (c : BitVec 4), channelReady s c →
    let ch := s.chan c
    ch.head.toNat ≤ ch.scan.toNat → ch.scan.toNat ≤ ch.tail.toNat → ch.tail.toNat ≤ ch.cap.toNat →
    ¬ (ch.tail - ch.head = ch.cap ∧ ch.pstate ≠ .idle ∧ ch.scan = ch.tail) →
    ∃ t : State, exec (.free c) s = .next t ∧
      t = { (s.setRes 0 (ch.cap - (ch.tail - ch.head))).setRes 1 0 with chans := t.chans, status := ⟨0x04, .ok⟩ } ∧
      (∀ d, d ≠ c → t.chan d = s.chan d) ∧
      t.chan c = { ch with rb := (t.chan c).rb, head := 0, scan := ch.scan - ch.head, tail := ch.tail - ch.head,
                           pktValid := false } ∧
      (∀ k, k < ch.tail.toNat - ch.head.toNat → t.rbByte c k = s.rbByte c (ch.head.toNat + k)) ∧
      ∀ k, ch.tail.toNat - ch.head.toNat ≤ k → t.rbByte c k = s.rbByte c k

/-- R148, R149: a candidate that fills the whole buffer and has been scanned to its end is dropped: its start
byte goes, the bytes after it stay and are free to be rescanned. -/
def Obligations.FreeDropsOverflow : Prop :=
  ∀ (s : State) (c : BitVec 4), channelReady s c →
    let ch := s.chan c
    ch.head = 0 → ch.scan = ch.tail → ch.tail = ch.cap → ch.pstate ≠ .idle → 1 ≤ ch.cap.toNat →
    ∃ t : State, exec (.free c) s = .next t ∧
      t = { (s.setRes 0 1).setRes 1 1 with chans := t.chans, status := ⟨0x04, .ok⟩ } ∧
      (∀ d, d ≠ c → t.chan d = s.chan d) ∧
      t.chan c = { ch with rb := (t.chan c).rb, head := 0, scan := 0, tail := ch.cap - 1, pktValid := false,
                           rxErr := ch.rxErr + 1, lastErr := .overflow, pstate := .idle, cand := none } ∧
      (∀ k, k < ch.cap.toNat - 1 → t.rbByte c k = s.rbByte c (k + 1)) ∧
      ∀ k, ch.cap.toNat - 1 ≤ k → t.rbByte c k = s.rbByte c k

/-! ## Checksum, CRC and bit extractor (41_checksum.md) -/

/-- R175: CKSUM's word, its failure, and its effect: the running checksum of the range and its two truncations;
nothing else changes. -/
def Obligations.CksumCompletes : Prop :=
  encode .cksum = 0x10000000 ∧
  ∀ s : State,
    (s.params.dmemSize < (s.arg 0).toNat + (s.arg 1).toNat →
      exec .cksum s = .next { s with status := ⟨0x10, .oob⟩ }) ∧
    ((s.arg 0).toNat + (s.arg 1).toNat ≤ s.params.dmemSize →
      let acc := cksumFn s.params.cksumOrder (s.dmemRead (s.arg 0).toNat (s.arg 1).toNat)
      exec .cksum s = .next { ((s.setRes 0 acc).setRes 1 (acc &&& 0x00FFFFFF)).setRes 2 (acc &&& 0x0000FFFF) with
        status := ⟨0x10, .ok⟩ })

/-- R170, R171: the running checksum is SEED plus the sum, modulo 2^32, of the words of the bytes, each word
in the parameter's byte order and the last one padded with zeros. -/
def Obligations.CksumIsSumOfWords : Prop :=
  ∀ (o : CksumOrder) (B : List Byte),
    (cksumFn o B).toNat = (0x00AAAAAA + ((List.range ((B.length + 3) / 4)).map fun k =>
      match o with
      | .le => (B.getD (4 * k) 0).toNat + 2 ^ 8 * (B.getD (4 * k + 1) 0).toNat
          + 2 ^ 16 * (B.getD (4 * k + 2) 0).toNat + 2 ^ 24 * (B.getD (4 * k + 3) 0).toNat
      | .be => 2 ^ 24 * (B.getD (4 * k) 0).toNat + 2 ^ 16 * (B.getD (4 * k + 1) 0).toNat
          + 2 ^ 8 * (B.getD (4 * k + 2) 0).toNat + (B.getD (4 * k + 3) 0).toNat).sum) % 2 ^ 32

/-- Linearity of the running checksum (41_checksum.md section 4, the spec's own inference): splitting a string at a
word boundary does not change it. -/
def Obligations.CksumLinear : Prop :=
  ∀ (o : CksumOrder) (X Y : List Byte), X.length % 4 = 0 →
    cksumFn o (X ++ Y) = cksumFn o X + cksumFn o Y - Config.seed

/-- Single-bit sensitivity of the running checksum (41_checksum.md section 4, the spec's own inference): which
single-bit flips the 24-bit and the 16-bit forms detect. -/
def Obligations.CksumSingleBitSensitivity : Prop :=
  ∀ (o : CksumOrder) (B : List Byte) (i j : Nat), i < B.length → j < 8 →
    let k := match o with
      | .le => 8 * (i % 4) + j
      | .be => 8 * (3 - i % 4) + j
    let B' := B.set i (B.getD i 0 ^^^ ((1 : Byte) <<< j))
    (ck24 (cksumFn o B') ≠ ck24 (cksumFn o B) ↔ k < 24) ∧ (ck16 (cksumFn o B') ≠ ck16 (cksumFn o B) ↔ k < 16)

/-- R173, R176: the CRC of the empty string is 0, and one more byte is XORed into bits 23..16 and shifted out by eight
polynomial steps; CRC24's word, its failure, and its effect: the CRC of the range, zero-extended; nothing else
changes. A range of zero bytes gives 0, whatever its length. -/
def Obligations.Crc24Completes : Prop :=
  (let shift := fun x : Word => if (x <<< 1).getLsbD 24 then (x <<< 1) ^^^ 0x1864CFB else x <<< 1
   crc24q [] = 0 ∧
   ∀ (B : List Byte) (b : Byte), crc24q (B ++ [b]) = Nat.iterate shift 8 (crc24q B ^^^ (b.setWidth 32 <<< 16))) ∧
  encode .crc24 = 0x11000000 ∧
  ∀ s : State,
    (s.params.dmemSize < (s.arg 0).toNat + (s.arg 1).toNat →
      exec .crc24 s = .next { s with status := ⟨0x11, .oob⟩ }) ∧
    ((s.arg 0).toNat + (s.arg 1).toNat ≤ s.params.dmemSize →
      ∃ t : State, exec .crc24 s = .next t ∧
        t = { s.setRes 0 (crc24q (s.dmemRead (s.arg 0).toNat (s.arg 1).toNat)) with status := ⟨0x11, .ok⟩ } ∧
        (t.result 0).toNat < 2 ^ 24 ∧
        ((∀ k, k < (s.arg 1).toNat → s.dmemByte ((s.arg 0).toNat + k) = 0) → t.result 0 = 0))

/-- R177, R179: GETBITS's word, its failures in their order, and its effect: it assembles the field most significant
bit first, so that bit `cnt-1-i` of the result is bit position `pos+i`, which is bit `7 - (P mod 8)` of byte
`P div 8`; the bits above the field are 0. A zero count gives 0. -/
def Obligations.GetbitsReadsField : Prop :=
  encode .getbits = 0x12000000 ∧
  ∀ s : State,
    let a := (s.arg 0).toNat
    let pos := (s.arg 1).toNat
    let cnt := (s.arg 2).toNat
    (32 < cnt → exec .getbits s = .next { s with status := ⟨0x12, .badArg⟩ }) ∧
    (cnt = 0 → exec .getbits s = .next { s.setRes 0 0 with status := ⟨0x12, .ok⟩ }) ∧
    (1 ≤ cnt → cnt ≤ 32 → s.params.dmemSize < a + (pos + cnt - 1) / 8 + 1 →
      exec .getbits s = .next { s with status := ⟨0x12, .oob⟩ }) ∧
    (1 ≤ cnt → cnt ≤ 32 → a + (pos + cnt - 1) / 8 + 1 ≤ s.params.dmemSize →
      ∃ t : State, exec .getbits s = .next t ∧
        t = { s.setRes 0 (t.result 0) with status := ⟨0x12, .ok⟩ } ∧
        (∀ i, i < cnt → (t.result 0).getLsbD (cnt - 1 - i)
          = (s.dmemByte (a + (pos + i) / 8)).getLsbD (7 - (pos + i) % 8)) ∧
        ∀ k, cnt ≤ k → (t.result 0).getLsbD k = false)

/-! ## The parser (42_parser.md) -/

/-- R191's matcher answers family `k` exactly when `k` is enabled and `b` is the first byte of its start pattern; the
first bytes and the mask bits are those of the rule's list. That the order of the search therefore has no effect and
that a disabled family is never answered are R192 and R193, the spec's own inferences (42_parser.md section 1). -/
def Obligations.MatcherIsOrderFree : Prop :=
  (∀ (mask : BitVec 7) (b : Byte) (k : Family),
    matchStart mask b = some k ↔ mask.getLsbD k.index = true ∧ b = k.startByte) ∧
  ([Family.isbV2, .isbV1, .ublox, .rtcm3, .sony, .spartn, .ascii].map fun k => (k.index, k.startByte))
    = [(0, 0xEF), (1, 0xFF), (2, 0xB5), (3, 0xD3), (4, 0x7F), (5, 0x73), (6, 0x24)]

/-- R212: PARSE completes on every ready channel. It returns the tag in RES0 and LAST_TAG, and changes nothing
but the channel, RES0 and STATUS; it never writes `tail`, `C`, the mask or TXCNT. With `scan = tail` it
returns NONE and changes only PKT_VALID, LAST_TAG, RES0 and STATUS.
R191, R195, R196, R211: with `scan < tail`, PARSE is PARSE again after the one transition the byte `b` at `scan` calls
for, and returns NONE right after it when `b` is the last byte. In IDLE, `b` is dropped when it matches no family the
channel's mask enables, and else begins a candidate of the family it matches, in HAVE_START for ublox and in ACCUM for
any other; in HAVE_START, 0x62 goes on to ACCUM and any other byte is examined as in IDLE; in ACCUM, a candidate that
needs more takes the byte. That a disabled family therefore starts no candidate is R193, the spec's own inference. -/
def Obligations.ParseCompletes : Prop :=
  (∀ (s : State) (c : BitVec 4), channelReady s c →
    ∃ t : State, exec (.parse c) s = .next t ∧
      t = { s.setRes 0 ((t.chan c).lastTag.code.setWidth 32) with chans := t.chans, status := ⟨0x06, .ok⟩ } ∧
      (∀ d, d ≠ c → t.chan d = s.chan d) ∧
      (t.chan c).inited = true ∧ (t.chan c).tail = (s.chan c).tail ∧ (t.chan c).cap = (s.chan c).cap ∧
      (t.chan c).mask = (s.chan c).mask ∧ (t.chan c).txCnt = (s.chan c).txCnt ∧
      ((s.chan c).scan = (s.chan c).tail →
        t.chan c = { s.chan c with pktValid := false, lastTag := .none })) ∧
  ∀ (s : State) (c : BitVec 4), Inv s → channelReady s c →
    let ch := s.chan c
    let b := s.rbByte c ch.scan.toNat
    let examined : Channel := match matchStart ch.mask b with
      | none => { ch with head := ch.scan + 1, scan := ch.scan + 1, pstate := .idle, cand := none }
      | some k => { ch with head := ch.scan, scan := ch.scan + 1, cand := some k,
                            pstate := if k = .ublox then .haveStart else .accum }
    let stepsTo := fun ch' : Channel =>
      exec (.parse c) s = exec (.parse c) (s.setChan c ch') ∧
      (ch.scan + 1 = ch.tail →
        exec (.parse c) s = .next { (s.setRes 0 0).setChan c { ch' with lastTag := .none, pktValid := false } with
                                    status := ⟨0x06, .ok⟩ })
    ch.scan.toNat < ch.tail.toNat →
    (ch.pstate = .idle → stepsTo examined) ∧
    (ch.pstate = .haveStart → b = 0x62 → stepsTo { ch with pstate := .accum, scan := ch.scan + 1 }) ∧
    (ch.pstate = .haveStart → b ≠ 0x62 → stepsTo examined) ∧
    ∀ k, ch.pstate = .accum → ch.cand = some k →
      frame s.params ch.cap.toNat k
        ((List.range' ch.head.toNat (ch.scan.toNat + 1 - ch.head.toNat)).map (s.rbByte c)) = .needMore →
      stepsTo { ch with scan := ch.scan + 1 }

/-- R213: PARSE_BYTE stores the byte at `tail` and then does what PARSE does; on a full buffer it stores
nothing, still parses, and its status is BUFFER_FULL. -/
def Obligations.ParseByteStoresThenParses : Prop :=
  ∀ (s : State) (c : BitVec 4) (b : Byte), channelReady s c →
    let ch := s.chan c
    (ch.tail ≠ ch.cap →
      ∃ u : State,
        exec (.parse c) (s.setChan c { ch with rb := ch.rb.put ch.tail.toNat b, tail := ch.tail + 1 }) = .next u ∧
        exec (.parseByte c b) s = .next { u with status := ⟨0x05, .ok⟩ }) ∧
    (ch.tail = ch.cap →
      ∃ u : State, exec (.parse c) s = .next u ∧
        exec (.parseByte c b) s = .next { u with status := ⟨0x05, .bufferFull⟩ })

/-- R199, R211: a PARSE that returns PARSE_ERROR rejects a candidate with start byte at `h - 1` whose bytes up to some
`p` below `tail` the family's verdict function judges bad: it counts one receive error, records the cause, leaves the
channel in IDLE at `h`, the byte after the failed start byte, and changes no ring-buffer byte and no packet view. And a
candidate in progress whose first verdict is bad is the one the PARSE rejects: it resumes at `head + 1`. -/
def Obligations.ParseErrorRejectsCandidate : Prop :=
  (∀ (s t : State) (c : BitVec 4), Inv s → channelReady s c → exec (.parse c) s = .next t →
    (t.chan c).lastTag = .parseError →
    ∃ (h : Word) (p : Nat) (k : Family) (cause : Cause),
      (s.chan c).head.toNat < h.toNat ∧ h.toNat ≤ p ∧ p < (s.chan c).tail.toNat ∧
      s.rbByte c (h.toNat - 1) = k.startByte ∧
      frame s.params (s.chan c).cap.toNat k ((List.range' (h.toNat - 1) (p + 2 - h.toNat)).map (s.rbByte c)) = .bad cause ∧
      (cause = .cksum ∨ cause = .length ∨ cause = .malformed) ∧
      t.chan c = { s.chan c with head := h, scan := h, pstate := .idle, cand := none, rxErr := (s.chan c).rxErr + 1,
                                 lastErr := cause, lastTag := .parseError, pktValid := false }) ∧
  ∀ (s : State) (c : BitVec 4) (k : Family) (cause : Cause) (p : Nat), Inv s → channelReady s c →
    let ch := s.chan c
    let verdict := fun q =>
      frame s.params ch.cap.toNat k ((List.range' ch.head.toNat (q + 1 - ch.head.toNat)).map (s.rbByte c))
    ch.pstate = .accum → ch.cand = some k → ch.scan.toNat ≤ p → p < ch.tail.toNat →
    (∀ q, ch.scan.toNat ≤ q → q < p → verdict q = .needMore) → verdict p = .bad cause →
    exec (.parse c) s = .next { (s.setRes 0 1).setChan c
      { ch with head := ch.head + 1, scan := ch.head + 1, pstate := .idle, cand := none, rxErr := ch.rxErr + 1,
                lastErr := cause, lastTag := .parseError, pktValid := false } with status := ⟨0x06, .ok⟩ }

/-- R32, R198, R201, R206, R207, R208: a PARSE that returns a protocol's tag leaves the channel in IDLE right past the
validated frame `F`, which a family's verdict function accepts under that tag; the counters and LAST_ERR stay. The
data region is the one the tag calls for: the declared payload of a ublox or RTCM3 frame, the whole frame for ASCII,
Sony and SPARTN, the payload or the data after the data header of a native frame. A native frame writes its raw header
to PKT_HDR, a data frame its data header, and the decoded header and normalized payload are written over the frame's
first bytes; a frame that is not native writes PKT_HDR 0, and nothing else of the ring buffer changes. And a candidate
in progress, of any family, whose first verdict that is not "need more" is good is the one the PARSE reports, under the
verdict's tag and with the verdict's data region, header word and data header. -/
def Obligations.ParseSuccessSetsViews : Prop :=
  (∀ (s t : State) (c : BitVec 4), Inv s → channelReady s c → exec (.parse c) s = .next t →
    (t.chan c).lastTag ≠ .none → (t.chan c).lastTag ≠ .parseError →
    let ch := t.chan c
    let tag := ch.lastTag
    let a := ch.pktStart.toNat
    let F := (List.range' a ch.pktLen.toNat).map (s.rbByte c)
    let native := tag = .nativeData ∨ tag = .nativeCmd ∨ tag = .nativeAck
    ch.pktValid = true ∧ ch.pstate = .idle ∧ ch.cand = none ∧
    (s.chan c).head.toNat ≤ a ∧ 2 ≤ F.length ∧ ch.head.toNat = a + F.length ∧ ch.scan = ch.head ∧
    ch.head.toNat ≤ (s.chan c).tail.toNat ∧ a ≤ ch.dataStart.toNat ∧
    ch.dataStart.toNat + ch.dataLen.toNat ≤ a + F.length ∧
    ch.rxErr = (s.chan c).rxErr ∧ ch.lastErr = (s.chan c).lastErr ∧
    (∃ (k : Family) (doff dlen : Nat) (dh : Option DataHeader), F.getD 0 0 = k.startByte ∧
      frame s.params (s.chan c).cap.toNat k F = .good tag doff dlen ch.pktHdr dh ∧
      ch.dataStart.toNat = a + doff ∧ ch.dataLen.toNat = dlen ∧
      ∀ d, dh = some d → ch.dhdrId = d.id ∧ ch.dhdrSize = d.size ∧ ch.dhdrOffset = d.offset) ∧
    (tag ≠ .nativeData → ch.dhdrId = (s.chan c).dhdrId ∧ ch.dhdrSize = (s.chan c).dhdrSize ∧
      ch.dhdrOffset = (s.chan c).dhdrOffset) ∧
    (tag = .ublox → ch.dataStart.toNat = a + 6 ∧ ch.dataLen.toNat = (F.getD 4 0).toNat + 256 * (F.getD 5 0).toNat) ∧
    (tag = .rtcm3 → ch.dataStart.toNat = a + 3 ∧
      ch.dataLen.toNat = 256 * (F.getD 1 0 &&& 0x03).toNat + (F.getD 2 0).toNat) ∧
    (tag = .asciiNmea ∨ tag = .sony ∨ tag = .spartn → ch.dataStart.toNat = a ∧ ch.dataLen.toNat = F.length) ∧
    (¬ native → ch.pktHdr = 0 ∧ ∀ k, t.rbByte c k = s.rbByte c k) ∧
    (native →
      ∃ R, unescape s.params ((F.drop 1).take (F.length - 2)) = some R ∧ 6 ≤ R.length ∧
        let n := R.length - 6
        let pid := R.getD 0 0
        let counter := R.getD 1 0
        let flags := R.getD 2 0
        let P := (R.drop 3).take n
        let W := fun i =>
          if flags.getLsbD 0 then P.getD (i + 3) 0 ++ P.getD (i + 2) 0 ++ P.getD (i + 1) 0 ++ P.getD i 0
          else P.getD i 0 ++ P.getD (i + 1) 0 ++ P.getD (i + 2) 0 ++ P.getD (i + 3) 0
        let D := [F.getD 0 0, pid, counter, flags]
          ++ (if flags.getLsbD 0 ≠ s.ctrl.hostLe ∧ flags.getLsbD 3 = false then swap32 P else P)
        ch.pktHdr = flags ++ counter ++ pid ++ F.getD 0 0 ∧
        (tag = .nativeData ↔ pidClass s.params pid = .data) ∧ (tag = .nativeCmd ↔ pidClass s.params pid = .cmd) ∧
        (tag ≠ .nativeData → ch.dataStart.toNat = a + 4 ∧ ch.dataLen.toNat = n) ∧
        (tag = .nativeData → ch.dataStart.toNat = a + 16 ∧ ch.dataLen = ch.dhdrSize ∧ ch.dhdrId = W 0 ∧
          ch.dhdrSize = W 4 ∧ ch.dhdrOffset = W 8) ∧
        (∀ j, j < 4 + n → t.rbByte c (a + j) = D.getD j 0) ∧
        ∀ k, k < a ∨ a + (4 + n) ≤ k → t.rbByte c k = s.rbByte c k)) ∧
  ∀ (s : State) (c : BitVec 4) (k : Family) (p : Nat) (tag : ResultTag) (doff dlen : Nat) (hdr : Word)
    (dh : Option DataHeader), Inv s → channelReady s c →
    let ch := s.chan c
    let verdict := fun q =>
      frame s.params ch.cap.toNat k ((List.range' ch.head.toNat (q + 1 - ch.head.toNat)).map (s.rbByte c))
    ch.pstate = .accum → ch.cand = some k → ch.scan.toNat ≤ p → p < ch.tail.toNat →
    (∀ q, ch.scan.toNat ≤ q → q < p → verdict q = .needMore) → verdict p = .good tag doff dlen hdr dh →
    ∃ t : State, exec (.parse c) s = .next t ∧ t.status = ⟨0x06, .ok⟩ ∧
      t.result 0 = tag.code.setWidth 32 ∧ (t.chan c).lastTag = tag ∧ (t.chan c).pktValid = true ∧
      (t.chan c).pktStart = ch.head ∧ (t.chan c).pktLen.toNat = p + 1 - ch.head.toNat ∧
      (t.chan c).dataStart.toNat = ch.head.toNat + doff ∧ (t.chan c).dataLen.toNat = dlen ∧
      (t.chan c).pktHdr = hdr ∧ (t.chan c).head.toNat = p + 1 ∧ (t.chan c).scan = (t.chan c).head ∧
      (t.chan c).pstate = .idle ∧ (t.chan c).cand = none ∧
      ∀ d, dh = some d →
        (t.chan c).dhdrId = d.id ∧ (t.chan c).dhdrSize = d.size ∧ (t.chan c).dhdrOffset = d.offset

/-- R211: a PARSE that returns NONE has examined every byte of the buffer, and is no error: no ring-buffer byte,
counter or packet view changes. -/
def Obligations.ParseNoneExhaustsBuffer : Prop :=
  ∀ (s t : State) (c : BitVec 4), Inv s → channelReady s c → exec (.parse c) s = .next t →
    (t.chan c).lastTag = .none →
    (t.chan c).scan = (s.chan c).tail ∧
    t.chan c = { s.chan c with head := (t.chan c).head, scan := (t.chan c).scan, pstate := (t.chan c).pstate,
                               cand := (t.chan c).cand, lastTag := .none, pktValid := false }

/-- "A parse never changes the ring-buffer bytes, with one exception: the in-place decode of a validated ISB frame"
(42_parser.md section 5, the spec's own inference): a PARSE changes no byte but the decoded header and payload
of a native frame it validates, which end before the frame's last four bytes. -/
def Obligations.ParseWritesOnlyValidatedFrame : Prop :=
  ∀ (s t : State) (c : BitVec 4) (k : Nat), Inv s → channelReady s c → exec (.parse c) s = .next t →
    t.rbByte c k ≠ s.rbByte c k →
    ((t.chan c).lastTag = .nativeData ∨ (t.chan c).lastTag = .nativeCmd ∨ (t.chan c).lastTag = .nativeAck) ∧
    (t.chan c).pktStart.toNat ≤ k ∧ k + 4 < (t.chan c).pktStart.toNat + (t.chan c).pktLen.toNat

/-- A run of PARSE commands with no byte added returns NONE after at most `tail - head` decisions (42_parser.md
section 5 "Termination and bounds", the spec's own inference). -/
def Obligations.DrainTerminates : Prop :=
  ∀ (s : State) (c : BitVec 4), Inv s → channelReady s c →
    ∃ (k : Nat) (t : State), k ≤ (s.chan c).tail.toNat - (s.chan c).head.toNat ∧
      execTimes (.parse c) (k + 1) s = some t ∧ t.result 0 = 0 ∧ (t.chan c).scan = (t.chan c).tail

/-- The scenario of 42_parser.md section 5 (the spec's own inference): a well-formed ublox frame, fed byte by byte to
an idle channel that has examined all its bytes and has room for it, is reported by its last byte and by no
other, with the declared length. -/
def Obligations.UbloxScenario : Prop :=
  ∀ (s : State) (c : BitVec 4) (cls id : Byte) (P : List Byte), Inv s → channelReady s c →
    (s.chan c).pstate = .idle → (s.chan c).scan = (s.chan c).tail → (s.chan c).mask.getLsbD 2 = true →
    P.length < 2 ^ 16 → (s.chan c).tail.toNat + 8 + P.length ≤ (s.chan c).cap.toNat →
    let len := BitVec.ofNat 16 P.length
    let body := [cls, id, len.extractLsb' 0 8, len.extractLsb' 8 8] ++ P
    let ck := fletcher8 body
    ∃ t : State,
      feed c ([0xB5, 0x62] ++ body ++ [ck.1, ck.2]) s = some (t, List.replicate (7 + P.length) 0 ++ [6]) ∧
      (t.chan c).pktStart = (s.chan c).tail ∧ (t.chan c).pktLen.toNat = 8 + P.length ∧
      (t.chan c).dataStart = (t.chan c).pktStart + 6 ∧ (t.chan c).dataLen.toNat = P.length

/-! ## The codec (43_codec.md) -/

/-- R200, R201, R205, R206, R225: an escaped native frame is judged at its stop byte and not before, and the
verdict is that of its packet id's class; for the data class it is that of the data header, whose three words are in
the byte order the flags declare, and which passes when its size fits the payload after it and its offset and size the
largest data set. ESC_KEY is not STOP, a choice R8 does not rule out (log entry 11). -/
def Obligations.EscapedFrameIsJudgedAtItsStop : Prop :=
  (∀ (p : Params) (flags : Byte) (P : List Byte) (dh : DataHeader),
    let W := fun i =>
      if flags.getLsbD 0 then P.getD (i + 3) 0 ++ P.getD (i + 2) 0 ++ P.getD (i + 1) 0 ++ P.getD i 0
      else P.getD i 0 ++ P.getD (i + 1) 0 ++ P.getD (i + 2) 0 ++ P.getD (i + 3) 0
    dataHeader p flags P = some dh ↔
      12 ≤ P.length ∧ dh.id = W 0 ∧ dh.size = W 4 ∧ dh.offset = W 8 ∧ dh.size.toNat ≤ P.length - 12 ∧
        dh.offset.toNat + dh.size.toNat ≤ p.maxDataset) ∧
  ∀ (p : Params) (cap : Nat) (k : Family) (pid counter flags : Byte) (P : List Byte),
    p.lawful = true → p.escKey ≠ Config.stop → (k = .isbV1 ∨ k = .isbV2) → P.length ≤ p.maxBody →
    let S := k.startByte
    let hdr := le32 S pid counter flags
    let F := frameBytes p true S pid counter flags P
      (ckSelect flags (cksumFn p.cksumOrder ([S, pid, counter, flags] ++ P)))
    (∀ m, 2 ≤ m → m < F.length → frame p cap k (F.take m) = .needMore) ∧
    (pidClass p pid = .cmd → frame p cap k F = .good .nativeCmd 4 P.length hdr none) ∧
    (pidClass p pid = .ack → frame p cap k F = .good .nativeAck 4 P.length hdr none) ∧
    (pidClass p pid = .data →
      (∀ dh, dataHeader p flags P = some dh → frame p cap k F = .good .nativeData 16 dh.size.toNat hdr (some dh)) ∧
      (dataHeader p flags P = none → frame p cap k F = .bad .malformed))

/-- R223, R224, R228, R232, R233: ENCODE writes the frame at the destination and nothing else of DMEM, returns
its length, and counts one packet sent on the channel. -/
def Obligations.EncodeCompletes : Prop :=
  ∀ (s : State) (c : BitVec 4) (ver : Version), channelReady s c →
    let src := (s.arg 0).toNat
    let n := (s.arg 1).toNat
    let dst := (s.arg 2).toNat
    let cap := (s.arg 3).toNat
    n ≤ s.params.maxBody → (if s.ctrl.encEn then 2 * n + 14 else n + 8) ≤ cap →
    src + n ≤ s.params.dmemSize → dst + cap ≤ s.params.dmemSize →
    let E := fun x : Byte => if s.ctrl.encEn = true ∧ x ∈ s.params.escSet then [s.params.escKey, ~~~x] else [x]
    let S : Byte := match ver with
      | .v1 => 0xFF
      | .v2 => 0xEF
    let pid := (s.arg 4).extractLsb' 0 8
    let counter := (s.arg 4).extractLsb' 8 8
    let flags := (((s.arg 4).extractLsb' 16 8 ||| (s.arg 5).extractLsb' 0 8) &&& 0xFE) ||| (if s.ctrl.hostLe then 1 else 0)
    let P := s.dmemRead src n
    let acc := cksumFn s.params.cksumOrder ([S, pid, counter, flags] ++ P)
    let ck := if flags.getLsbD 4 then acc &&& 0x00FFFFFF else acc &&& 0x0000FFFF
    let out := [S] ++ E pid ++ E counter ++ E flags ++ P.flatMap E
      ++ E (ck.extractLsb' 16 8) ++ E (ck.extractLsb' 8 8) ++ E (ck.extractLsb' 0 8) ++ [0xFE]
    ∃ t : State, exec (.encode c ver) s = .next t ∧
      t = { (s.setRes 0 (BitVec.ofNat 32 out.length)).setChan c { s.chan c with txCnt := (s.chan c).txCnt + 1 } with
            dmem := t.dmem, status := ⟨0x20, .ok⟩ } ∧
      out.length ≤ cap ∧ t.dmemRead dst out.length = out ∧
      ∀ a, a < dst ∨ dst + out.length ≤ a → t.dmemByte a = s.dmemByte a

/-- R238, R262: DECODE of a frame whose framing holds. A checksum mismatch writes RES0..RES3 and no DMEM, a
destination that is too small writes nothing but STATUS, and otherwise the header and the normalized
payload land at the destination and nothing else of DMEM changes. -/
def Obligations.DecodeCompletes : Prop :=
  ∀ (s : State) (R : List Byte),
    let src := (s.arg 0).toNat
    let len := (s.arg 1).toNat
    let dst := (s.arg 2).toNat
    let cap := (s.arg 3).toNat
    src + len ≤ s.params.dmemSize → dst + cap ≤ s.params.dmemSize → 2 ≤ len →
    (s.dmemByte src = 0xFF ∨ s.dmemByte src = 0xEF) → s.dmemByte (src + len - 1) = 0xFE →
    unescape s.params (s.dmemRead (src + 1) (len - 2)) = some R → 6 ≤ R.length → R.length - 6 ≤ s.params.maxBody →
    let n := R.length - 6
    let S := s.dmemByte src
    let pid := R.getD 0 0
    let counter := R.getD 1 0
    let flags := R.getD 2 0
    let P := (R.drop 3).take n
    let ckr := (0 : Byte) ++ R.getD (3 + n) 0 ++ R.getD (4 + n) 0 ++ R.getD (5 + n) 0
    let acc := cksumFn s.params.cksumOrder ([S, pid, counter, flags] ++ P)
    let expected := if flags.getLsbD 4 then acc &&& 0x00FFFFFF else acc &&& 0x0000FFFF
    let data := if flags.getLsbD 0 ≠ s.ctrl.hostLe ∧ flags.getLsbD 3 = false then swap32 P else P
    let reported := (((s.setRes 0 (BitVec.ofNat 32 n)).setRes 1 (flags ++ counter ++ pid ++ S)).setRes 2 ckr).setRes 3
      expected
    (ckr ≠ expected → exec .decode s = .next { reported with status := ⟨0x21, .cksumMismatch⟩ }) ∧
    (ckr = expected → cap < 4 + n → exec .decode s = .next { s with status := ⟨0x21, .dstTooSmall⟩ }) ∧
    (ckr = expected → 4 + n ≤ cap →
      ∃ t : State, exec .decode s = .next t ∧
        t = { reported with dmem := t.dmem, status := ⟨0x21, .ok⟩ } ∧
        t.dmemRead dst (4 + n) = [S, pid, counter, flags] ++ data ∧
        ∀ a, a < dst ∨ dst + (4 + n) ≤ a → t.dmemByte a = s.dmemByte a)

/-- R232, R238, R243, R262 (a): when ENCODE, DECODE and DECODE_FOOTER fail before they judge a frame's
checksum, in the order of their checks; each writes nothing but STATUS. DECODE_FOOTER rejects a range without a
stop byte, one with fewer than three bytes before it, and one whose last checksum byte is reserved and not the
second byte of an escape pair. -/
def Obligations.CodecCommandsReject : Prop :=
  ∀ s : State,
    (∀ (c : BitVec 4) (ver : Version), channelReady s c →
      let n := (s.arg 1).toNat
      let cap := (s.arg 3).toNat
      let tooLarge := s.params.maxBody < n ∨ cap < (if s.ctrl.encEn then 2 * n + 14 else n + 8)
      (tooLarge → exec (.encode c ver) s = .next { s with status := ⟨0x20, .encodeTooLarge⟩ }) ∧
      (¬ tooLarge → (s.params.dmemSize < (s.arg 0).toNat + n ∨ s.params.dmemSize < (s.arg 2).toNat + cap) →
        exec (.encode c ver) s = .next { s with status := ⟨0x20, .oob⟩ })) ∧
    (let src := (s.arg 0).toNat
     let len := (s.arg 1).toNat
     let outside := s.params.dmemSize < src + len ∨ s.params.dmemSize < (s.arg 2).toNat + (s.arg 3).toNat
     (outside → exec .decode s = .next { s with status := ⟨0x21, .oob⟩ }) ∧
     (¬ outside → (len < 2 ∨ (s.dmemByte src ≠ 0xFF ∧ s.dmemByte src ≠ 0xEF) ∨ s.dmemByte (src + len - 1) ≠ 0xFE ∨
        unescape s.params (s.dmemRead (src + 1) (len - 2)) = none ∨
        ∃ R, unescape s.params (s.dmemRead (src + 1) (len - 2)) = some R ∧
          (R.length < 6 ∨ s.params.maxBody < R.length - 6)) →
        exec .decode s = .next { s with status := ⟨0x21, .malformed⟩ })) ∧
    (let stopEnd := (s.arg 0).toNat
     let lo := (s.arg 1).toNat
     (stopEnd ≤ lo → exec .decodeFooter s = .next { s with status := ⟨0x23, .badArg⟩ }) ∧
     (lo < stopEnd → s.params.dmemSize < stopEnd → exec .decodeFooter s = .next { s with status := ⟨0x23, .oob⟩ }) ∧
     (lo < stopEnd → stopEnd ≤ s.params.dmemSize →
       (s.dmemByte (stopEnd - 1) ≠ 0xFE ∨ stopEnd < lo + 4 ∨
        (s.dmemByte (stopEnd - 2) ∈ s.params.escSet ∧
          ¬ (lo + 3 ≤ stopEnd ∧ s.dmemByte (stopEnd - 3) = s.params.escKey ∧
            ~~~(s.dmemByte (stopEnd - 2)) ∈ s.params.escSet))) →
       exec .decodeFooter s = .next { s with status := ⟨0x23, .malformed⟩ }))

/-- R117, R240: DECODE_BYTE's word, and what it does: it consumes exactly one source byte. A literal byte, or the
byte after an escape key, is written at the destination cursor and added to the accumulator in its lane; an
escape key only sets the escape state; a malformed byte clears it; a cursor outside DMEM changes nothing but
STATUS. -/
def Obligations.DecodeByteConsumesOneByte : Prop :=
  encode .decodeByte = 0x22000000 ∧
  ∀ s : State,
    let src := (s.arg 0).toNat
    let dst := (s.arg 1).toNat
    let lane := (s.arg 3).extractLsb' 0 2
    let escp := (s.arg 3).getLsbD 8
    let b := s.dmemByte src
    let shift := match s.params.cksumOrder with
      | .le => 8 * lane.toNat
      | .be => 8 * (3 - lane.toNat)
    let emitted := fun x : Byte =>
      { (((((s.dmemWrite dst [x]).setArg 0 (s.arg 0 + 1)).setArg 1 (s.arg 1 + 1)).setArg 2
          (s.arg 2 + x.setWidth 32 <<< shift)).setArg 3 ((lane + 1).setWidth 32)).setRes 0 1 with
        status := ⟨0x22, .ok⟩ }
    let rejected :=
      { (s.setArg 0 (s.arg 0 + 1)).setArg 3 (lane.setWidth 32) with status := ⟨0x22, .malformed⟩ }
    ((s.params.dmemSize < src + 1 ∨ s.params.dmemSize < dst + 1) →
      exec .decodeByte s = .next { s with status := ⟨0x22, .oob⟩ }) ∧
    (src + 1 ≤ s.params.dmemSize → dst + 1 ≤ s.params.dmemSize →
      (escp = true → ~~~b ∈ s.params.escSet → exec .decodeByte s = .next (emitted (~~~b))) ∧
      (escp = true → ~~~b ∉ s.params.escSet → exec .decodeByte s = .next rejected) ∧
      (escp = false → b = s.params.escKey → exec .decodeByte s = .next
        { ((s.setArg 0 (s.arg 0 + 1)).setArg 3 (lane.setWidth 32 ||| 0x100)).setRes 0 0 with status := ⟨0x22, .ok⟩ }) ∧
      (escp = false → b ≠ s.params.escKey → b ∈ s.params.escSet → exec .decodeByte s = .next rejected) ∧
      (escp = false → b ≠ s.params.escKey → b ∉ s.params.escSet → exec .decodeByte s = .next (emitted b)))

/-- DECODE_BYTE loop equivalence (43_codec.md section 3, the spec's own inference): seeded as the spec says on an
escaped frame at `f` and run while `ARG0` is below the footer, DECODE_BYTE decodes the header bytes 1 to 3 and
the payload to `d`, with every status OK, and leaves the checksum of the frame in the accumulator. The
destination does not overlap the frame. -/
def Obligations.DecodeByteLoopDecodesFrame : Prop :=
  ∀ (s : State) (f d : Nat) (S pid counter flags : Byte) (P : List Byte) (ck : Word),
    s.params.lawful = true →
    let p := s.params
    let F := frameBytes p true S pid counter flags P ck
    let footer := escapeAll p true [byteOf ck 2, byteOf ck 1, byteOf ck 0]
    let q := f + F.length - 1 - footer.length
    f + F.length ≤ p.dmemSize → s.dmemRead f F.length = F → d + 3 + P.length ≤ p.dmemSize →
    (d + 3 + P.length ≤ f ∨ f + F.length ≤ d) →
    (s.arg 0).toNat = f + 1 → (s.arg 1).toNat = d →
    s.arg 2 = Config.seed + (match p.cksumOrder with
      | .le => S.setWidth 32
      | .be => S.setWidth 32 <<< 24) →
    s.arg 3 = 1 →
    ∃ (k : Nat) (t : State), execTimes .decodeByte k s = some t ∧
      (t.arg 0).toNat = q ∧ (t.arg 1).toNat = d + 3 + P.length ∧
      t.arg 2 = cksumFn p.cksumOrder ([S, pid, counter, flags] ++ P) ∧ (t.arg 3).getLsbD 8 = false ∧
      t.dmemRead d (3 + P.length) = [pid, counter, flags] ++ P ∧
      ∀ j u, execTimes .decodeByte j s = some u →
        (j < k → (u.arg 0).toNat < q) ∧ (1 ≤ j → j ≤ k → u.status.code = .ok)

/-- R243: DECODE_FOOTER on a range that ends in the stop byte reads the three checksum bytes backwards. If three
bytes end to end, each a literal or an escape pair, fill `[q, end-1)` at or above `lo`, and the byte before them is
no escape key of the first of them, it returns their value and `q` and changes nothing else; if there is no such
`q`, it is MALFORMED. -/
def Obligations.DecodeFooterCompletes : Prop :=
  ∀ s : State, s.params.lawful = true →
    let stopEnd := (s.arg 0).toNat
    let lo := (s.arg 1).toNat
    let footer := fun (q : Nat) (v2 v1 v0 : Byte) =>
      lo ≤ q ∧ unescape s.params (s.dmemRead q (stopEnd - 1 - q)) = some [v2, v1, v0] ∧
        ¬ (lo < q ∧ s.dmemByte (q - 1) = s.params.escKey ∧ ~~~(s.dmemByte q) ∈ s.params.escSet)
    lo < stopEnd → stopEnd ≤ s.params.dmemSize → s.dmemByte (stopEnd - 1) = 0xFE →
    (∀ q v2 v1 v0, footer q v2 v1 v0 → exec .decodeFooter s = .next
      { (s.setRes 0 ((0 : Byte) ++ v2 ++ v1 ++ v0)).setRes 1 (BitVec.ofNat 32 q) with status := ⟨0x23, .ok⟩ }) ∧
    ((∀ q v2 v1 v0, ¬ footer q v2 v1 v0) → exec .decodeFooter s = .next { s with status := ⟨0x23, .malformed⟩ })

/-- On an escaped frame at `f`, DECODE_FOOTER with the frame's end and `f + 1` returns the checksum the frame carries
and the offset of its first encoded byte, and changes nothing else (43_codec.md section 3: "For every frame built
by ENCODE with `ENC_EN = 1` at offset `f` with length `m`", the spec's own inference). -/
def Obligations.FooterOfEscapedFrame : Prop :=
  ∀ (s : State) (f : Nat) (S pid counter flags : Byte) (P : List Byte) (ck : Word),
    s.params.lawful = true →
    let F := frameBytes s.params true S pid counter flags P ck
    let footer := escapeAll s.params true [byteOf ck 2, byteOf ck 1, byteOf ck 0]
    f + F.length ≤ s.params.dmemSize → s.dmemRead f F.length = F →
    (s.arg 0).toNat = f + F.length → (s.arg 1).toNat = f + 1 →
    exec .decodeFooter s = .next
      { (s.setRes 0 (ck &&& 0x00FFFFFF)).setRes 1 (BitVec.ofNat 32 (f + F.length - 1 - footer.length)) with
        status := ⟨0x23, .ok⟩ }

/-- R245, R246: the two configuration commands' words, the words with a reserved bit set, which are illegal, and
their effect: each writes its CTRL bit and nothing else. -/
def Obligations.ConfigurationCommandsComplete : Prop :=
  (∀ w : Word, w.extractLsb' 1 23 ≠ 0 →
    (w.extractLsb' 24 8 = 0x30 → decode w = .error (.reservedBits 0x30)) ∧
    (w.extractLsb' 24 8 = 0x31 → decode w = .error (.reservedBits 0x31))) ∧
  ∀ (s : State) (b : Bool),
    encode (.encEnable b) = 0x30000000 ||| (BitVec.ofBool b).setWidth 32 ∧
    encode (.setHostOrder b) = 0x31000000 ||| (BitVec.ofBool b).setWidth 32 ∧
    exec (.encEnable b) s = .next { s with ctrl := ⟨b, s.ctrl.hostLe⟩, status := ⟨0x30, .ok⟩ } ∧
    exec (.setHostOrder b) s = .next { s with ctrl := ⟨s.ctrl.encEn, b⟩, status := ⟨0x31, .ok⟩ }

/-- Un-escaping reverses escaping, for every byte string (43_codec.md section 2: "This is the reversibility the source
requires", the spec's own inference); and a string un-escapes to `R` only if it is the escaped form of `R`, so that
R230 rejects every other string: a bad or unfinished escape pair, and a reserved byte that is not escaped. -/
def Obligations.UnescapeReversesEscape : Prop :=
  (∀ (p : Params) (Y : List Byte), p.lawful = true → unescape p (escapeAll p true Y) = some Y) ∧
  ∀ (p : Params) (X R : List Byte), unescape p X = some R → escapeAll p true R = X

/-- Stop-byte uniqueness and encoded length (43_codec.md section 1, the spec's own inferences): in an escaped frame
the last byte is STOP, no byte of ESC_SET but the escape key stands between the start and it, and the length
lies between `n + 8` and `2n + 14`; with escaping off the length is `n + 8`. STOP occurs nowhere else after the
start, unless ESC_KEY is chosen equal to STOP, which R8 does not rule out (log entry 11). -/
def Obligations.EscapedFrameShape : Prop :=
  ∀ (p : Params) (S pid counter flags : Byte) (P : List Byte) (ck : Word), p.lawful = true →
    let F := frameBytes p true S pid counter flags P ck
    (p.escKey ≠ 0xFE → ∀ k, 1 ≤ k → k + 1 < F.length → F.getD k 0 ≠ 0xFE) ∧ F.getD (F.length - 1) 0 = 0xFE ∧
    (∀ k, 1 ≤ k → k + 1 < F.length → F.getD k 0 ∈ p.escSet → F.getD k 0 = p.escKey) ∧
    P.length + 8 ≤ F.length ∧ F.length ≤ 2 * P.length + 14 ∧
    (frameBytes p false S pid counter flags P ck).length = P.length + 8

/-- R234: SWAP32 reverses each complete 4-byte word, leaves the last `n mod 4` bytes, and is its own inverse. -/
def Obligations.SwapIsInvolution : Prop :=
  ∀ P : List Byte,
    (swap32 P).length = P.length ∧
    (∀ k j, k < P.length / 4 → j < 4 → (swap32 P)[4 * k + j]? = P[4 * k + (3 - j)]?) ∧
    (∀ i, 4 * (P.length / 4) ≤ i → (swap32 P)[i]? = P[i]?) ∧
    swap32 (swap32 P) = P

/-- Round trip (43_codec.md section 4, the spec's own inference): with escaping on, an ENCODE followed by a DECODE of
the frame it wrote gives back the header and the payload. Between the two the host writes the operand registers
and nothing else. -/
def Obligations.EncodeDecodeRoundTrip : Prop :=
  ∀ (s t : State) (c : BitVec 4) (ver : Version) (d cap : Word), s.params.lawful = true → channelReady s c →
    s.ctrl.encEn = true →
    let n := (s.arg 1).toNat
    n ≤ s.params.maxBody → 2 * n + 14 ≤ (s.arg 3).toNat → (s.arg 0).toNat + n ≤ s.params.dmemSize →
    (s.arg 2).toNat + (s.arg 3).toNat ≤ s.params.dmemSize →
    4 + n ≤ cap.toNat → d.toNat + cap.toNat ≤ s.params.dmemSize →
    exec (.encode c ver) s = .next t →
    let flags := (((s.arg 4).extractLsb' 16 8 ||| (s.arg 5).extractLsb' 0 8) &&& 0xFE) ||| (if s.ctrl.hostLe then 1 else 0)
    let S : Byte := match ver with
      | .v1 => 0xFF
      | .v2 => 0xEF
    ∃ v : State,
      exec .decode ((((t.setArg 0 (s.arg 2)).setArg 1 (t.result 0)).setArg 2 d).setArg 3 cap) = .next v ∧
      v.status = ⟨0x21, .ok⟩ ∧ (v.result 0).toNat = n ∧ v.result 2 = v.result 3 ∧
      v.dmemRead d.toNat (4 + n)
        = [S, (s.arg 4).extractLsb' 0 8, (s.arg 4).extractLsb' 8 8, flags] ++ s.dmemRead (s.arg 0).toNat n

/-! ## The verdicts of the families (42_parser.md section 3) -/

/-- R174, R178, R202, R203, R204, R210: the Fletcher checksum and the NMEA checksum byte by byte, and every verdict on a
candidate of a family that is not native. A ublox or RTCM3 candidate is judged on its declared length and its checksum,
an ASCII candidate on its last byte and, at the line's end, on its `*hh` field if it has one; what the open functions
of Sony and SPARTN answer is mapped as R210's law (3) says. -/
def Obligations.ForeignFrameVerdicts : Prop :=
  (fletcher8 [] = (0, 0) ∧ ∀ (B : List Byte) (b : Byte),
    fletcher8 (B ++ [b]) = ((fletcher8 B).1 + b, (fletcher8 B).2 + ((fletcher8 B).1 + b))) ∧
  (nmeaXor [] = 0 ∧ ∀ (B : List Byte) (b : Byte), nmeaXor (B ++ [b]) = nmeaXor B ^^^ b) ∧
  ∀ (p : Params) (cap : Nat) (F : List Byte),
    (let len := (F.getD 4 0).toNat + 256 * (F.getD 5 0).toNat
     (F.length < 6 → frame p cap .ublox F = .needMore) ∧
     (6 ≤ F.length → cap < 8 + len → frame p cap .ublox F = .bad .length) ∧
     (6 ≤ F.length → F.length < 8 + len → 8 + len ≤ cap → frame p cap .ublox F = .needMore) ∧
     (8 + len ≤ F.length → 8 + len ≤ cap →
       frame p cap .ublox F =
         if fletcher8 ((F.drop 2).take (4 + len)) = (F.getD (6 + len) 0, F.getD (7 + len) 0)
         then .good .ublox 6 len 0 none else .bad .cksum)) ∧
    (let len := 256 * (F.getD 1 0 &&& 0x03).toNat + (F.getD 2 0).toNat
     (F.length < 3 → frame p cap .rtcm3 F = .needMore) ∧
     (3 ≤ F.length → F.getD 1 0 &&& 0xFC ≠ 0 → frame p cap .rtcm3 F = .bad .length) ∧
     (F.getD 1 0 &&& 0xFC = 0 →
       (3 ≤ F.length → cap < 6 + len → frame p cap .rtcm3 F = .bad .length) ∧
       (3 ≤ F.length → F.length < 6 + len → 6 + len ≤ cap → frame p cap .rtcm3 F = .needMore) ∧
       (6 + len ≤ F.length → 6 + len ≤ cap →
         frame p cap .rtcm3 F =
           if crc24q (F.take (3 + len)) = (0 : Byte) ++ F.getD (3 + len) 0 ++ F.getD (4 + len) 0 ++ F.getD (5 + len) 0
           then .good .rtcm3 3 len 0 none else .bad .cksum))) ∧
    (let b := F.getD (F.length - 1) 0
     let line := F.take (F.length - 1)
     let T := if line.getD (line.length - 1) 0 = 0x0D then line.dropLast else line
     let m := T.length
     let digit := fun x v : Byte =>
       (v < 0x0A ∧ x = 0x30 + v) ∨ (0x0A ≤ v ∧ v < 0x10 ∧ (x = 0x37 + v ∨ x = 0x57 + v))
     let field := fun hi lo : Byte =>
       4 ≤ m ∧ T.getD (m - 3) 0 = 0x2A ∧ digit (T.getD (m - 2) 0) hi ∧ digit (T.getD (m - 1) 0) lo
     (b ≠ 0x0A → ((0x20 ≤ b ∧ b ≤ 0x7E) ∨ b = 0x0D) → frame p cap .ascii F = .needMore) ∧
     (b ≠ 0x0A → ¬ ((0x20 ≤ b ∧ b ≤ 0x7E) ∨ b = 0x0D) → frame p cap .ascii F = .bad .malformed) ∧
     (b = 0x0A →
       (∀ hi lo, field hi lo →
         frame p cap .ascii F =
           if nmeaXor ((T.take (m - 3)).drop 1) = hi <<< 4 ||| lo
           then .good .asciiNmea 0 F.length 0 none else .bad .cksum) ∧
       ((∀ hi lo, ¬ field hi lo) → frame p cap .ascii F = .good .asciiNmea 0 F.length 0 none))) ∧
    (∀ row ∈ ([(.sony, .sony, Config.sonyFrame F cap), (.spartn, .spartn, Config.spartnFrame F cap)] :
        List (Family × ResultTag × ForeignVerdict)),
      (row.2.2 = .needMore → frame p cap row.1 F = .needMore) ∧
      (row.2.2 = .bad → frame p cap row.1 F = .bad .malformed) ∧
      (row.2.2 = .good → frame p cap row.1 F = .good row.2.1 0 F.length 0 none))

/-- R200, R201, R205: every verdict on a native candidate `F`: none before the stop byte, and at it the checks in their
order, each with its cause, and the tag of the packet id's class; and the default map of packet ids. -/
def Obligations.NativeFrameVerdicts : Prop :=
  (∀ pid : Byte, pidClass Params.default pid =
    if pid = 1 ∨ pid = 2 then .ack else if pid = 4 ∨ pid = 5 then .data else .cmd) ∧
  ∀ (p : Params) (cap : Nat) (k : Family) (F : List Byte), (k = .isbV1 ∨ k = .isbV2) → 2 ≤ F.length →
    (F.getD (F.length - 1) 0 ≠ 0xFE → frame p cap k F = .needMore) ∧
    (F.getD (F.length - 1) 0 = 0xFE →
      (unescape p ((F.drop 1).take (F.length - 2)) = none → frame p cap k F = .bad .malformed) ∧
      ∀ R, unescape p ((F.drop 1).take (F.length - 2)) = some R →
        (R.length < 6 → frame p cap k F = .bad .malformed) ∧
        (6 ≤ R.length → p.maxBody < R.length - 6 → frame p cap k F = .bad .length) ∧
        (6 ≤ R.length → R.length - 6 ≤ p.maxBody →
          let n := R.length - 6
          let S := F.getD 0 0
          let pid := R.getD 0 0
          let counter := R.getD 1 0
          let flags := R.getD 2 0
          let P := (R.drop 3).take n
          let ckr := (0 : Byte) ++ R.getD (3 + n) 0 ++ R.getD (4 + n) 0 ++ R.getD (5 + n) 0
          let acc := cksumFn p.cksumOrder ([S, pid, counter, flags] ++ P)
          let expected := if flags.getLsbD 4 then acc &&& 0x00FFFFFF else acc &&& 0x0000FFFF
          let hdr := flags ++ counter ++ pid ++ S
          (ckr ≠ expected → frame p cap k F = .bad .cksum) ∧
          (ckr = expected →
            (pidClass p pid = .cmd → frame p cap k F = .good .nativeCmd 4 n hdr none) ∧
            (pidClass p pid = .ack → frame p cap k F = .good .nativeAck 4 n hdr none) ∧
            (pidClass p pid = .data →
              (∀ dh, dataHeader p flags P = some dh → frame p cap k F = .good .nativeData 16 dh.size.toNat hdr (some dh)) ∧
              (dataHeader p flags P = none → frame p cap k F = .bad .malformed)))))
end

