-- ==== Sys2Proof/Laws/Bytes.lean ====
section
/-!
SUPPORT. The values of the byte compositions as natural numbers, the running checksum as a sum, and the bits of the
bit extractor.
-/

namespace Sys2Proof.Machine

theorem le32_toNat (a b c d : Byte) :
    (le32 a b c d).toNat = a.toNat + 2 ^ 8 * b.toNat + 2 ^ 16 * c.toNat + 2 ^ 24 * d.toNat := by
  have ha := a.isLt
  have hb := b.isLt
  have hc := c.isLt
  simp only [le32, BitVec.toNat_append]
  rw [← Nat.shiftLeft_add_eq_or_of_lt ha, ← Nat.shiftLeft_add_eq_or_of_lt hb, ← Nat.shiftLeft_add_eq_or_of_lt hc]
  simp only [Nat.shiftLeft_eq]
  omega

theorem be32_eq (a b c d : Byte) : be32 a b c d = le32 d c b a := rfl

theorem word24_eq (b2 b1 b0 : Byte) : word24 b2 b1 b0 = le32 b0 b1 b2 0 := rfl

theorem byteOf_toNat (w : Word) (k : Nat) : (byteOf w k).toNat = w.toNat / 2 ^ (8 * k) % 256 := by
  simp [byteOf, BitVec.extractLsb'_toNat, Nat.shiftRight_eq_div_pow]

theorem ck24_toNat (acc : Word) : (ck24 acc).toNat = acc.toNat % 2 ^ 24 := by
  rw [ck24, BitVec.toNat_and]
  exact Nat.and_two_pow_sub_one_eq_mod acc.toNat 24

theorem ck16_toNat (acc : Word) : (ck16 acc).toNat = acc.toNat % 2 ^ 16 := by
  rw [ck16, BitVec.toNat_and]
  exact Nat.and_two_pow_sub_one_eq_mod acc.toNat 16

/-- The three checksum bytes of a word, put together again, are its low 24 bits (R222). -/
theorem word24_byteOf (ck : Word) : word24 (byteOf ck 2) (byteOf ck 1) (byteOf ck 0) = ck24 ck := by
  apply BitVec.eq_of_toNat_eq
  rw [word24_eq, le32_toNat, byteOf_toNat, byteOf_toNat, byteOf_toNat, ck24_toNat]
  simp
  omega

/-- A selected checksum has no bit above the 24th (R172). -/
theorem ck24_ckSelect (flags : Byte) (acc : Word) : ck24 (ckSelect flags acc) = ckSelect flags acc := by
  apply BitVec.eq_of_toNat_eq
  unfold ckSelect
  split
  · rw [ck24_toNat, ck24_toNat]
    omega
  · rw [ck24_toNat, ck16_toNat]
    omega

/-! ## The running checksum -/

/-- The start value of the sum comes out. -/
theorem foldl_add_init (l : List Word) (a : Word) :
    l.foldl (fun acc w => acc + w) a = a + l.foldl (fun acc w => acc + w) 0 := by
  induction l generalizing a with
  | nil => simp
  | cons x l ih =>
    simp only [List.foldl_cons]
    rw [ih (a + x), ih (0 + x)]
    simp [BitVec.add_assoc]

/-- The words of a string split at a word boundary (R170). -/
theorem wordsOf_append (o : CksumOrder) (X Y : List Byte) (h : X.length % 4 = 0) :
    wordsOf o (X ++ Y) = wordsOf o X ++ wordsOf o Y := by
  induction X using wordsOf.induct with
  | case1 => simp [wordsOf]
  | case2 b0 => simp at h
  | case3 => simp at h
  | case4 => simp at h
  | case5 a b c d r ih =>
    simp only [List.cons_append, wordsOf]
    rw [ih (by simp at h; omega)]

/-! ## The bit extractor -/

/-- Bit `i` after the loop of BITS: the `n` bits read are the low ones, last read lowest (R179). -/
theorem bitsLoop_getLsbD (rd : Nat → Byte) (a : Nat) (n : Nat) : ∀ (P : Nat) (v : Word) (i : Nat), i < 32 →
    (bitsLoop rd a P n v).getLsbD i = if i < n then bitAt rd a (P + (n - 1 - i)) else v.getLsbD (i - n) := by
  induction n with
  | zero => intro P v i h; simp [bitsLoop]
  | succ n ih =>
    intro P v i h
    rw [bitsLoop, ih _ _ _ h]
    by_cases h1 : i < n
    · rw [if_pos h1, if_pos (by omega)]
      congr 1
      omega
    · rw [if_neg h1]
      by_cases h2 : i = n
      · subst h2
        simp
      · rw [if_neg (by omega)]
        have : i - n = (i - (n + 1)) + 1 := by omega
        rw [this]
        simp only [BitVec.getLsbD_or, BitVec.getLsbD_shiftLeft, BitVec.getLsbD_setWidth]
        simp
        omega

end Sys2Proof.Machine
end

