-- ==== Sys2Proof/Laws/State.lean ====
section
/-!
SUPPORT. One lemma per field per update of State, true by rfl, and the read-after-write facts of the
registers and channels, so that no later proof unfolds a record update.
-/

namespace Sys2Proof.Machine

variable (s : State)

/-! ## `setArg` -/

@[simp] theorem State.setArg_params (i : Fin 8) (v : Word) : (s.setArg i v).params = s.params := rfl
@[simp] theorem State.setArg_cmd (i : Fin 8) (v : Word) : (s.setArg i v).cmd = s.cmd := rfl
@[simp] theorem State.setArg_status (i : Fin 8) (v : Word) : (s.setArg i v).status = s.status := rfl
@[simp] theorem State.setArg_ctrl (i : Fin 8) (v : Word) : (s.setArg i v).ctrl = s.ctrl := rfl
@[simp] theorem State.setArg_args (i : Fin 8) (v : Word) : (s.setArg i v).args = s.args.set i v := rfl
@[simp] theorem State.setArg_res (i : Fin 8) (v : Word) : (s.setArg i v).res = s.res := rfl
@[simp] theorem State.setArg_dmem (i : Fin 8) (v : Word) : (s.setArg i v).dmem = s.dmem := rfl
@[simp] theorem State.setArg_chans (i : Fin 8) (v : Word) : (s.setArg i v).chans = s.chans := rfl
@[simp] theorem State.setArg_epoch (i : Fin 8) (v : Word) : (s.setArg i v).epoch = s.epoch := rfl
@[simp] theorem State.setArg_port (i : Fin 8) (v : Word) : (s.setArg i v).port = s.port := rfl

/-! ## `setRes` -/

@[simp] theorem State.setRes_params (i : Fin 4) (v : Word) : (s.setRes i v).params = s.params := rfl
@[simp] theorem State.setRes_cmd (i : Fin 4) (v : Word) : (s.setRes i v).cmd = s.cmd := rfl
@[simp] theorem State.setRes_status (i : Fin 4) (v : Word) : (s.setRes i v).status = s.status := rfl
@[simp] theorem State.setRes_ctrl (i : Fin 4) (v : Word) : (s.setRes i v).ctrl = s.ctrl := rfl
@[simp] theorem State.setRes_args (i : Fin 4) (v : Word) : (s.setRes i v).args = s.args := rfl
@[simp] theorem State.setRes_res (i : Fin 4) (v : Word) : (s.setRes i v).res = s.res.set i v := rfl
@[simp] theorem State.setRes_dmem (i : Fin 4) (v : Word) : (s.setRes i v).dmem = s.dmem := rfl
@[simp] theorem State.setRes_chans (i : Fin 4) (v : Word) : (s.setRes i v).chans = s.chans := rfl
@[simp] theorem State.setRes_epoch (i : Fin 4) (v : Word) : (s.setRes i v).epoch = s.epoch := rfl
@[simp] theorem State.setRes_port (i : Fin 4) (v : Word) : (s.setRes i v).port = s.port := rfl

/-! ## `setChan` -/

@[simp] theorem State.setChan_params (c : BitVec 4) (ch : Channel) : (s.setChan c ch).params = s.params := rfl
@[simp] theorem State.setChan_cmd (c : BitVec 4) (ch : Channel) : (s.setChan c ch).cmd = s.cmd := rfl
@[simp] theorem State.setChan_status (c : BitVec 4) (ch : Channel) : (s.setChan c ch).status = s.status := rfl
@[simp] theorem State.setChan_ctrl (c : BitVec 4) (ch : Channel) : (s.setChan c ch).ctrl = s.ctrl := rfl
@[simp] theorem State.setChan_args (c : BitVec 4) (ch : Channel) : (s.setChan c ch).args = s.args := rfl
@[simp] theorem State.setChan_res (c : BitVec 4) (ch : Channel) : (s.setChan c ch).res = s.res := rfl
@[simp] theorem State.setChan_dmem (c : BitVec 4) (ch : Channel) : (s.setChan c ch).dmem = s.dmem := rfl
@[simp] theorem State.setChan_chans (c : BitVec 4) (ch : Channel) : (s.setChan c ch).chans = s.chans.set c.toNat ch (ch_lt c) := rfl
@[simp] theorem State.setChan_epoch (c : BitVec 4) (ch : Channel) : (s.setChan c ch).epoch = s.epoch := rfl
@[simp] theorem State.setChan_port (c : BitVec 4) (ch : Channel) : (s.setChan c ch).port = s.port := rfl

/-! ## `dmemWrite` -/

@[simp] theorem State.dmemWrite_params (a : Nat) (B : List Byte) : (s.dmemWrite a B).params = s.params := rfl
@[simp] theorem State.dmemWrite_cmd (a : Nat) (B : List Byte) : (s.dmemWrite a B).cmd = s.cmd := rfl
@[simp] theorem State.dmemWrite_status (a : Nat) (B : List Byte) : (s.dmemWrite a B).status = s.status := rfl
@[simp] theorem State.dmemWrite_ctrl (a : Nat) (B : List Byte) : (s.dmemWrite a B).ctrl = s.ctrl := rfl
@[simp] theorem State.dmemWrite_args (a : Nat) (B : List Byte) : (s.dmemWrite a B).args = s.args := rfl
@[simp] theorem State.dmemWrite_res (a : Nat) (B : List Byte) : (s.dmemWrite a B).res = s.res := rfl
@[simp] theorem State.dmemWrite_dmem (a : Nat) (B : List Byte) : (s.dmemWrite a B).dmem = s.dmem.putAll a B := rfl
@[simp] theorem State.dmemWrite_chans (a : Nat) (B : List Byte) : (s.dmemWrite a B).chans = s.chans := rfl
@[simp] theorem State.dmemWrite_epoch (a : Nat) (B : List Byte) : (s.dmemWrite a B).epoch = s.epoch := rfl
@[simp] theorem State.dmemWrite_port (a : Nat) (B : List Byte) : (s.dmemWrite a B).port = s.port := rfl

/-! ## `setStatus` -/

@[simp] theorem State.setStatus_params (i : Instr) (code : StatusCode) : (s.setStatus i code).params = s.params := rfl
@[simp] theorem State.setStatus_cmd (i : Instr) (code : StatusCode) : (s.setStatus i code).cmd = s.cmd := rfl
@[simp] theorem State.setStatus_status (i : Instr) (code : StatusCode) : (s.setStatus i code).status = ⟨i.opcode, code⟩ := rfl
@[simp] theorem State.setStatus_ctrl (i : Instr) (code : StatusCode) : (s.setStatus i code).ctrl = s.ctrl := rfl
@[simp] theorem State.setStatus_args (i : Instr) (code : StatusCode) : (s.setStatus i code).args = s.args := rfl
@[simp] theorem State.setStatus_res (i : Instr) (code : StatusCode) : (s.setStatus i code).res = s.res := rfl
@[simp] theorem State.setStatus_dmem (i : Instr) (code : StatusCode) : (s.setStatus i code).dmem = s.dmem := rfl
@[simp] theorem State.setStatus_chans (i : Instr) (code : StatusCode) : (s.setStatus i code).chans = s.chans := rfl
@[simp] theorem State.setStatus_epoch (i : Instr) (code : StatusCode) : (s.setStatus i code).epoch = s.epoch := rfl
@[simp] theorem State.setStatus_port (i : Instr) (code : StatusCode) : (s.setStatus i code).port = s.port := rfl

/-! ## `raise` -/

@[simp] theorem State.raise_params (i : Instr) (code : StatusCode) : (s.raise i code).params = s.params := rfl
@[simp] theorem State.raise_cmd (i : Instr) (code : StatusCode) : (s.raise i code).cmd = s.cmd := rfl
@[simp] theorem State.raise_status (i : Instr) (code : StatusCode) : (s.raise i code).status = ⟨i.opcode, code⟩ := rfl
@[simp] theorem State.raise_ctrl (i : Instr) (code : StatusCode) : (s.raise i code).ctrl = s.ctrl := rfl
@[simp] theorem State.raise_args (i : Instr) (code : StatusCode) : (s.raise i code).args = s.args := rfl
@[simp] theorem State.raise_res (i : Instr) (code : StatusCode) : (s.raise i code).res = s.res := rfl
@[simp] theorem State.raise_dmem (i : Instr) (code : StatusCode) : (s.raise i code).dmem = s.dmem := rfl
@[simp] theorem State.raise_chans (i : Instr) (code : StatusCode) : (s.raise i code).chans = s.chans := rfl
@[simp] theorem State.raise_epoch (i : Instr) (code : StatusCode) : (s.raise i code).epoch = s.epoch := rfl
@[simp] theorem State.raise_port (i : Instr) (code : StatusCode) : (s.raise i code).port = s.port := rfl

/-! ## `done` -/

@[simp] theorem State.done_params (i : Instr) : (s.done i).params = s.params := rfl
@[simp] theorem State.done_cmd (i : Instr) : (s.done i).cmd = s.cmd := rfl
@[simp] theorem State.done_status (i : Instr) : (s.done i).status = ⟨i.opcode, .ok⟩ := rfl
@[simp] theorem State.done_ctrl (i : Instr) : (s.done i).ctrl = s.ctrl := rfl
@[simp] theorem State.done_args (i : Instr) : (s.done i).args = s.args := rfl
@[simp] theorem State.done_res (i : Instr) : (s.done i).res = s.res := rfl
@[simp] theorem State.done_dmem (i : Instr) : (s.done i).dmem = s.dmem := rfl
@[simp] theorem State.done_chans (i : Instr) : (s.done i).chans = s.chans := rfl
@[simp] theorem State.done_epoch (i : Instr) : (s.done i).epoch = s.epoch := rfl
@[simp] theorem State.done_port (i : Instr) : (s.done i).port = s.port := rfl

/-! ## `raiseIllegal` -/

@[simp] theorem State.raiseIllegal_params (w : Word) : (s.raiseIllegal w).params = s.params := rfl
@[simp] theorem State.raiseIllegal_cmd (w : Word) : (s.raiseIllegal w).cmd = s.cmd := rfl
@[simp] theorem State.raiseIllegal_status (w : Word) : (s.raiseIllegal w).status = ⟨wordOpc w, .illegalCmd⟩ := rfl
@[simp] theorem State.raiseIllegal_ctrl (w : Word) : (s.raiseIllegal w).ctrl = s.ctrl := rfl
@[simp] theorem State.raiseIllegal_args (w : Word) : (s.raiseIllegal w).args = s.args := rfl
@[simp] theorem State.raiseIllegal_res (w : Word) : (s.raiseIllegal w).res = s.res := rfl
@[simp] theorem State.raiseIllegal_dmem (w : Word) : (s.raiseIllegal w).dmem = s.dmem := rfl
@[simp] theorem State.raiseIllegal_chans (w : Word) : (s.raiseIllegal w).chans = s.chans := rfl
@[simp] theorem State.raiseIllegal_epoch (w : Word) : (s.raiseIllegal w).epoch = s.epoch := rfl
@[simp] theorem State.raiseIllegal_port (w : Word) : (s.raiseIllegal w).port = s.port := rfl

/-! ## `reply` -/

@[simp] theorem State.reply_params (v : Word) : (s.reply v).params = s.params := rfl
@[simp] theorem State.reply_cmd (v : Word) : (s.reply v).cmd = s.cmd := rfl
@[simp] theorem State.reply_status (v : Word) : (s.reply v).status = s.status := rfl
@[simp] theorem State.reply_ctrl (v : Word) : (s.reply v).ctrl = s.ctrl := rfl
@[simp] theorem State.reply_args (v : Word) : (s.reply v).args = s.args := rfl
@[simp] theorem State.reply_res (v : Word) : (s.reply v).res = s.res := rfl
@[simp] theorem State.reply_dmem (v : Word) : (s.reply v).dmem = s.dmem := rfl
@[simp] theorem State.reply_chans (v : Word) : (s.reply v).chans = s.chans := rfl
@[simp] theorem State.reply_epoch (v : Word) : (s.reply v).epoch = s.epoch := rfl
@[simp] theorem State.reply_port (v : Word) : (s.reply v).port = ⟨s.port.pending, v :: s.port.replies⟩ := rfl

/-! ## `enqueueFront` -/

@[simp] theorem State.enqueueFront_params (ops : List HostOp) : (s.enqueueFront ops).params = s.params := rfl
@[simp] theorem State.enqueueFront_cmd (ops : List HostOp) : (s.enqueueFront ops).cmd = s.cmd := rfl
@[simp] theorem State.enqueueFront_status (ops : List HostOp) : (s.enqueueFront ops).status = s.status := rfl
@[simp] theorem State.enqueueFront_ctrl (ops : List HostOp) : (s.enqueueFront ops).ctrl = s.ctrl := rfl
@[simp] theorem State.enqueueFront_args (ops : List HostOp) : (s.enqueueFront ops).args = s.args := rfl
@[simp] theorem State.enqueueFront_res (ops : List HostOp) : (s.enqueueFront ops).res = s.res := rfl
@[simp] theorem State.enqueueFront_dmem (ops : List HostOp) : (s.enqueueFront ops).dmem = s.dmem := rfl
@[simp] theorem State.enqueueFront_chans (ops : List HostOp) : (s.enqueueFront ops).chans = s.chans := rfl
@[simp] theorem State.enqueueFront_epoch (ops : List HostOp) : (s.enqueueFront ops).epoch = s.epoch := rfl
@[simp] theorem State.enqueueFront_port (ops : List HostOp) : (s.enqueueFront ops).port = ⟨ops ++ s.port.pending, s.port.replies⟩ := rfl

/-! ## Registers -/

theorem State.arg_setArg (i j : Fin 8) (v : Word) : (s.setArg i v).arg j = if i = j then v else s.arg j := by
  simp only [State.arg, State.setArg, Fin.getElem_fin, Vector.getElem_set, Fin.ext_iff]

@[simp] theorem State.arg_setArg_self (i : Fin 8) (v : Word) : (s.setArg i v).arg i = v := by
  simp [State.arg_setArg]

theorem State.arg_setArg_ne {i j : Fin 8} (v : Word) (h : i ≠ j) : (s.setArg i v).arg j = s.arg j := by
  simp [State.arg_setArg, h]

/-- Writes of two operand registers commute. -/
theorem State.setArg_comm {i j : Fin 8} (v w : Word) (h : i ≠ j) :
    (s.setArg i v).setArg j w = (s.setArg j w).setArg i v := by
  have e : (s.args.set i v).set j w = (s.args.set j w).set i v := Vector.set_comm _ _ (fun e => h (Fin.ext e))
  simp only [State.setArg, e]

theorem State.result_setRes (i j : Fin 4) (v : Word) :
    (s.setRes i v).result j = if i = j then v else s.result j := by
  simp only [State.result, State.setRes, Fin.getElem_fin, Vector.getElem_set, Fin.ext_iff]

@[simp] theorem State.result_setRes_self (i : Fin 4) (v : Word) : (s.setRes i v).result i = v := by
  simp [State.result_setRes]

theorem State.result_setRes_ne {i j : Fin 4} (v : Word) (h : i ≠ j) : (s.setRes i v).result j = s.result j := by
  simp [State.result_setRes, h]

/-! ## `arg` through the other updates -/

@[simp] theorem State.arg_setRes (i : Fin 4) (v : Word) (j : Fin 8) : (s.setRes i v).arg j = s.arg j := rfl
@[simp] theorem State.arg_setChan (c : BitVec 4) (ch : Channel) (j : Fin 8) : (s.setChan c ch).arg j = s.arg j := rfl
@[simp] theorem State.arg_dmemWrite (a : Nat) (B : List Byte) (j : Fin 8) : (s.dmemWrite a B).arg j = s.arg j := rfl
@[simp] theorem State.arg_setStatus (i : Instr) (code : StatusCode) (j : Fin 8) : (s.setStatus i code).arg j = s.arg j := rfl
@[simp] theorem State.arg_raise (i : Instr) (code : StatusCode) (j : Fin 8) : (s.raise i code).arg j = s.arg j := rfl
@[simp] theorem State.arg_done (i : Instr) (j : Fin 8) : (s.done i).arg j = s.arg j := rfl
@[simp] theorem State.arg_raiseIllegal (w : Word) (j : Fin 8) : (s.raiseIllegal w).arg j = s.arg j := rfl
@[simp] theorem State.arg_reply (v : Word) (j : Fin 8) : (s.reply v).arg j = s.arg j := rfl
@[simp] theorem State.arg_enqueueFront (ops : List HostOp) (j : Fin 8) : (s.enqueueFront ops).arg j = s.arg j := rfl

/-! ## `result` through the other updates -/

@[simp] theorem State.result_setArg (i : Fin 8) (v : Word) (j : Fin 4) : (s.setArg i v).result j = s.result j := rfl
@[simp] theorem State.result_setChan (c : BitVec 4) (ch : Channel) (j : Fin 4) : (s.setChan c ch).result j = s.result j := rfl
@[simp] theorem State.result_dmemWrite (a : Nat) (B : List Byte) (j : Fin 4) : (s.dmemWrite a B).result j = s.result j := rfl
@[simp] theorem State.result_setStatus (i : Instr) (code : StatusCode) (j : Fin 4) : (s.setStatus i code).result j = s.result j := rfl
@[simp] theorem State.result_raise (i : Instr) (code : StatusCode) (j : Fin 4) : (s.raise i code).result j = s.result j := rfl
@[simp] theorem State.result_done (i : Instr) (j : Fin 4) : (s.done i).result j = s.result j := rfl
@[simp] theorem State.result_raiseIllegal (w : Word) (j : Fin 4) : (s.raiseIllegal w).result j = s.result j := rfl
@[simp] theorem State.result_reply (v : Word) (j : Fin 4) : (s.reply v).result j = s.result j := rfl
@[simp] theorem State.result_enqueueFront (ops : List HostOp) (j : Fin 4) : (s.enqueueFront ops).result j = s.result j := rfl

/-! ## `chan` through the other updates -/

@[simp] theorem State.chan_setArg (i : Fin 8) (v : Word) (d : BitVec 4) : (s.setArg i v).chan d = s.chan d := rfl
@[simp] theorem State.chan_setRes (i : Fin 4) (v : Word) (d : BitVec 4) : (s.setRes i v).chan d = s.chan d := rfl
@[simp] theorem State.chan_dmemWrite (a : Nat) (B : List Byte) (d : BitVec 4) : (s.dmemWrite a B).chan d = s.chan d := rfl
@[simp] theorem State.chan_setStatus (i : Instr) (code : StatusCode) (d : BitVec 4) : (s.setStatus i code).chan d = s.chan d := rfl
@[simp] theorem State.chan_raise (i : Instr) (code : StatusCode) (d : BitVec 4) : (s.raise i code).chan d = s.chan d := rfl
@[simp] theorem State.chan_done (i : Instr) (d : BitVec 4) : (s.done i).chan d = s.chan d := rfl
@[simp] theorem State.chan_raiseIllegal (w : Word) (d : BitVec 4) : (s.raiseIllegal w).chan d = s.chan d := rfl
@[simp] theorem State.chan_reply (v : Word) (d : BitVec 4) : (s.reply v).chan d = s.chan d := rfl
@[simp] theorem State.chan_enqueueFront (ops : List HostOp) (d : BitVec 4) : (s.enqueueFront ops).chan d = s.chan d := rfl

/-! ## `dmemByte` through the other updates -/

@[simp] theorem State.dmemByte_setArg (i : Fin 8) (v : Word) (k : Nat) : (s.setArg i v).dmemByte k = s.dmemByte k := rfl
@[simp] theorem State.dmemByte_setRes (i : Fin 4) (v : Word) (k : Nat) : (s.setRes i v).dmemByte k = s.dmemByte k := rfl
@[simp] theorem State.dmemByte_setChan (c : BitVec 4) (ch : Channel) (k : Nat) : (s.setChan c ch).dmemByte k = s.dmemByte k := rfl
@[simp] theorem State.dmemByte_setStatus (i : Instr) (code : StatusCode) (k : Nat) : (s.setStatus i code).dmemByte k = s.dmemByte k := rfl
@[simp] theorem State.dmemByte_raise (i : Instr) (code : StatusCode) (k : Nat) : (s.raise i code).dmemByte k = s.dmemByte k := rfl
@[simp] theorem State.dmemByte_done (i : Instr) (k : Nat) : (s.done i).dmemByte k = s.dmemByte k := rfl
@[simp] theorem State.dmemByte_raiseIllegal (w : Word) (k : Nat) : (s.raiseIllegal w).dmemByte k = s.dmemByte k := rfl
@[simp] theorem State.dmemByte_reply (v : Word) (k : Nat) : (s.reply v).dmemByte k = s.dmemByte k := rfl
@[simp] theorem State.dmemByte_enqueueFront (ops : List HostOp) (k : Nat) : (s.enqueueFront ops).dmemByte k = s.dmemByte k := rfl

/-! ## `rbDraws` through the other updates -/

@[simp] theorem State.rbDraws_setArg (i : Fin 8) (v : Word) (d : BitVec 4) : (s.setArg i v).rbDraws d = s.rbDraws d := rfl
@[simp] theorem State.rbDraws_setRes (i : Fin 4) (v : Word) (d : BitVec 4) : (s.setRes i v).rbDraws d = s.rbDraws d := rfl
@[simp] theorem State.rbDraws_setChan (c : BitVec 4) (ch : Channel) (d : BitVec 4) : (s.setChan c ch).rbDraws d = s.rbDraws d := rfl
@[simp] theorem State.rbDraws_dmemWrite (a : Nat) (B : List Byte) (d : BitVec 4) : (s.dmemWrite a B).rbDraws d = s.rbDraws d := rfl
@[simp] theorem State.rbDraws_setStatus (i : Instr) (code : StatusCode) (d : BitVec 4) : (s.setStatus i code).rbDraws d = s.rbDraws d := rfl
@[simp] theorem State.rbDraws_raise (i : Instr) (code : StatusCode) (d : BitVec 4) : (s.raise i code).rbDraws d = s.rbDraws d := rfl
@[simp] theorem State.rbDraws_done (i : Instr) (d : BitVec 4) : (s.done i).rbDraws d = s.rbDraws d := rfl
@[simp] theorem State.rbDraws_raiseIllegal (w : Word) (d : BitVec 4) : (s.raiseIllegal w).rbDraws d = s.rbDraws d := rfl
@[simp] theorem State.rbDraws_reply (v : Word) (d : BitVec 4) : (s.reply v).rbDraws d = s.rbDraws d := rfl
@[simp] theorem State.rbDraws_enqueueFront (ops : List HostOp) (d : BitVec 4) : (s.enqueueFront ops).rbDraws d = s.rbDraws d := rfl

/-! ## `rbByte` through the other updates -/

@[simp] theorem State.rbByte_setArg (i : Fin 8) (v : Word) (d : BitVec 4) (k : Nat) : (s.setArg i v).rbByte d k = s.rbByte d k := rfl
@[simp] theorem State.rbByte_setRes (i : Fin 4) (v : Word) (d : BitVec 4) (k : Nat) : (s.setRes i v).rbByte d k = s.rbByte d k := rfl
@[simp] theorem State.rbByte_dmemWrite (a : Nat) (B : List Byte) (d : BitVec 4) (k : Nat) : (s.dmemWrite a B).rbByte d k = s.rbByte d k := rfl
@[simp] theorem State.rbByte_setStatus (i : Instr) (code : StatusCode) (d : BitVec 4) (k : Nat) : (s.setStatus i code).rbByte d k = s.rbByte d k := rfl
@[simp] theorem State.rbByte_raise (i : Instr) (code : StatusCode) (d : BitVec 4) (k : Nat) : (s.raise i code).rbByte d k = s.rbByte d k := rfl
@[simp] theorem State.rbByte_done (i : Instr) (d : BitVec 4) (k : Nat) : (s.done i).rbByte d k = s.rbByte d k := rfl
@[simp] theorem State.rbByte_raiseIllegal (w : Word) (d : BitVec 4) (k : Nat) : (s.raiseIllegal w).rbByte d k = s.rbByte d k := rfl
@[simp] theorem State.rbByte_reply (v : Word) (d : BitVec 4) (k : Nat) : (s.reply v).rbByte d k = s.rbByte d k := rfl
@[simp] theorem State.rbByte_enqueueFront (ops : List HostOp) (d : BitVec 4) (k : Nat) : (s.enqueueFront ops).rbByte d k = s.rbByte d k := rfl

/-! ## Channels -/

theorem State.chan_setChan (c d : BitVec 4) (ch : Channel) :
    (s.setChan c ch).chan d = if c = d then ch else s.chan d := by
  simp only [State.chan, State.setChan, Vector.getElem_set, BitVec.toNat_inj]

@[simp] theorem State.chan_setChan_self (c : BitVec 4) (ch : Channel) : (s.setChan c ch).chan c = ch := by
  simp [State.chan_setChan]

/-- The last write of a channel stays. -/
@[simp] theorem State.setChan_setChan (c : BitVec 4) (ch ch' : Channel) :
    (s.setChan c ch).setChan c ch' = s.setChan c ch' := by
  simp [State.setChan]

theorem State.chan_setChan_ne {c d : BitVec 4} (ch : Channel) (h : c ≠ d) :
    (s.setChan c ch).chan d = s.chan d := by
  simp [State.chan_setChan, h]

theorem State.rbByte_setChan_self (c : BitVec 4) (ch : Channel) (k : Nat) :
    (s.setChan c ch).rbByte c k = ch.byteAt (s.rbDraws c) k := by
  simp [State.rbByte]

theorem State.rbByte_setChan_ne {c d : BitVec 4} (ch : Channel) (k : Nat) (h : c ≠ d) :
    (s.setChan c ch).rbByte d k = s.rbByte d k := by
  simp [State.rbByte, State.chan_setChan_ne, h]

/-- Two states with the same sixteen channel slots have the same channel vector. -/
theorem State.chans_ext {s t : State} (h : ∀ c : BitVec 4, s.chan c = t.chan c) : s.chans = t.chans := by
  apply Vector.ext
  intro i hi
  have e := h (BitVec.ofNat 4 i)
  have : (BitVec.ofNat 4 i).toNat = i := by
    rw [BitVec.toNat_ofNat]
    exact Nat.mod_eq_of_lt hi
  simpa [State.chan, this] using e

end Sys2Proof.Machine
end

