-- ==== Sys2Proof/Laws/Memory.lean ====
section
/-!
SUPPORT. The laws of the byte memories: what a read sees after a write, that every write keeps the canonical
form, and the bytes of ranges.
-/

namespace Sys2Proof.Machine

/-! ## One byte -/

@[simp] theorem Memory.get_nil (a : Nat) : Memory.get [] a = none := rfl

theorem Memory.get_cons (k : Nat) (v : Byte) (m : Memory) (a : Nat) :
    Memory.get ((k, v) :: m) a = if a = k then some v else Memory.get m a := rfl

/-- A read after a write. -/
theorem Memory.get_put (m : Memory) (a b : Nat) (v : Byte) :
    (m.put a v).get b = if b = a then some v else m.get b := by
  induction m with
  | nil => simp [Memory.put, Memory.get_cons]
  | cons cell rest ih =>
    obtain ⟨k, w⟩ := cell
    unfold Memory.put
    split
    · simp [Memory.get_cons]
    · split
      · rename_i hak
        by_cases h : b = a <;> simp [Memory.get_cons, h, ← hak]
      · rw [Memory.get_cons, Memory.get_cons, ih]
        by_cases hk : b = k
        · have : b ≠ a := by omega
          simp [hk]
          omega
        · simp [hk]

/-- The canonical form as a chain of rising addresses. -/
theorem Memory.wf_iff (m : Memory) : m.wf = true ↔ m.Pairwise (fun x y => x.1 < y.1) := by
  induction m with
  | nil => simp [Memory.wf]
  | cons x rest ih =>
    cases rest with
    | nil => simp [Memory.wf]
    | cons y rest =>
      obtain ⟨a, u⟩ := x
      obtain ⟨b, v⟩ := y
      simp only [Memory.wf, Bool.and_eq_true, decide_eq_true_eq, ih, List.pairwise_cons, List.mem_cons]
      constructor
      · rintro ⟨hab, hb, hrest⟩
        refine ⟨?_, hb, hrest⟩
        rintro z (rfl | hz)
        · exact hab
        · exact lt_trans hab (hb z hz)
      · rintro ⟨h, hb, hrest⟩
        exact ⟨h (b, v) (Or.inl rfl), hb, hrest⟩

theorem Memory.mem_put {m : Memory} {a : Nat} {v : Byte} {z : Host.Cell} (h : z ∈ m.put a v) :
    z = (a, v) ∨ z ∈ m := by
  induction m with
  | nil => simpa [Memory.put] using h
  | cons cell rest ih =>
    obtain ⟨k, w⟩ := cell
    unfold Memory.put at h
    split at h
    · simpa using h
    · split at h
      · simp only [List.mem_cons] at h ⊢
        tauto
      · simp only [List.mem_cons] at h ⊢
        rcases h with h | h
        · exact Or.inr (Or.inl h)
        · rcases ih h with h | h
          · exact Or.inl h
          · exact Or.inr (Or.inr h)

/-- A write keeps the canonical form. -/
theorem Memory.wf_put {m : Memory} (h : m.wf = true) (a : Nat) (v : Byte) : (m.put a v).wf = true := by
  rw [Memory.wf_iff] at h ⊢
  induction m with
  | nil => simp [Memory.put]
  | cons cell rest ih =>
    obtain ⟨k, w⟩ := cell
    rw [List.pairwise_cons] at h
    unfold Memory.put
    split
    · rw [List.pairwise_cons, List.pairwise_cons]
      refine ⟨?_, h⟩
      intro z hz
      rcases List.mem_cons.1 hz with rfl | hz
      · assumption
      · exact lt_trans (by assumption) (h.1 z hz)
    · split
      · subst_vars
        exact List.pairwise_cons.2 h
      · rw [List.pairwise_cons]
        refine ⟨?_, ih h.2⟩
        intro z hz
        rcases Memory.mem_put hz with rfl | hz
        · simp only
          omega
        · exact h.1 z hz

/-! ## Byte strings -/

@[simp] theorem Memory.putAll_nil (m : Memory) (a : Nat) : m.putAll a [] = m := rfl

@[simp] theorem Memory.putAll_cons (m : Memory) (a : Nat) (b : Byte) (B : List Byte) :
    m.putAll a (b :: B) = (m.put a b).putAll (a + 1) B := rfl

/-- A read after the write of a byte string. -/
theorem Memory.get_putAll (B : List Byte) : ∀ (m : Memory) (a b : Nat),
    (m.putAll a B).get b = if a ≤ b ∧ b < a + B.length then B[b - a]? else m.get b := by
  induction B with
  | nil =>
    intro m a b
    rw [Memory.putAll_nil, if_neg (by simp only [List.length_nil]; omega)]
  | cons x B ih =>
    intro m a b
    rw [Memory.putAll_cons, ih, Memory.get_put]
    simp only [List.length_cons]
    by_cases hba : b = a
    · subst hba
      rw [if_neg (by omega), if_pos rfl, if_pos (by omega)]
      simp
    · by_cases h : a + 1 ≤ b ∧ b < a + 1 + B.length
      · rw [if_pos h, if_pos (by omega)]
        have : b - a = (b - (a + 1)) + 1 := by omega
        rw [this, List.getElem?_cons_succ]
      · rw [if_neg h, if_neg hba, if_neg (by omega)]

/-- The write of a byte string keeps the canonical form. -/
theorem Memory.wf_putAll (B : List Byte) : ∀ {m : Memory}, m.wf = true → ∀ a, (m.putAll a B).wf = true := by
  induction B with
  | nil => intro m h a; exact h
  | cons b B ih => intro m h a; exact ih (Memory.wf_put h a b) (a + 1)

/-- A write below a bound keeps the bound. -/
theorem Memory.below_put {m : Memory} {n : Nat} (h : Safety.memBelow m n) {a : Nat} (ha : a < n) (v : Byte) :
    Safety.memBelow (m.put a v) n := by
  intro z hz
  rcases Memory.mem_put hz with rfl | hz
  · exact ha
  · exact h z hz

/-- The write of a byte string below a bound keeps the bound. -/
theorem Memory.below_putAll (B : List Byte) : ∀ {m : Memory} {n : Nat}, Safety.memBelow m n → ∀ {a : Nat},
    a + B.length ≤ n → Safety.memBelow (m.putAll a B) n := by
  induction B with
  | nil => intro m n h a _; exact h
  | cons b B ih =>
    intro m n h a ha
    simp only [List.length_cons] at ha
    exact ih (Memory.below_put h (by omega) b) (by omega)

/-! ## Ranges -/

@[simp] theorem bytesFrom_length (rd : Nat → Byte) (a n : Nat) : (bytesFrom rd a n).length = n := by
  simp [bytesFrom]

@[simp] theorem bytesFrom_zero (rd : Nat → Byte) (a : Nat) : bytesFrom rd a 0 = [] := rfl

theorem bytesFrom_succ (rd : Nat → Byte) (a n : Nat) : bytesFrom rd a (n + 1) = rd a :: bytesFrom rd (a + 1) n := by
  simp [bytesFrom, List.range'_succ]

theorem bytesFrom_getElem? (rd : Nat → Byte) (a n i : Nat) (h : i < n) : (bytesFrom rd a n)[i]? = some (rd (a + i)) := by
  simp [bytesFrom, h]

theorem at'_bytesFrom (rd : Nat → Byte) (a n i : Nat) (h : i < n) : at' (bytesFrom rd a n) i = rd (a + i) := by
  simp [at', List.getD_eq_getElem?_getD, bytesFrom_getElem? rd a n i h]

theorem bytesFrom_congr {rd rd' : Nat → Byte} {a n : Nat} (h : ∀ i, i < n → rd (a + i) = rd' (a + i)) :
    bytesFrom rd a n = bytesFrom rd' a n := by
  simp only [bytesFrom, List.map_inj_left, List.mem_range'_1]
  intro k hk
  have := h (k - a) (by omega)
  rwa [Nat.add_sub_cancel' hk.1] at this

theorem bytesFrom_append (rd : Nat → Byte) (a m n : Nat) :
    bytesFrom rd a (m + n) = bytesFrom rd a m ++ bytesFrom rd (a + m) n := by
  rw [bytesFrom, bytesFrom, bytesFrom, ← List.map_append, List.range'_append_1]

/-! ## DMEM and the ring buffers -/

/-- A DMEM byte is read from the DMEM field and the memory draws only. -/
theorem State.dmemByte_congr {s t : State} (hd : t.dmem = s.dmem) (he : t.epoch = s.epoch) :
    t.dmemByte = s.dmemByte := by
  funext k
  simp only [State.dmemByte, hd, he]

/-- A DMEM range is read from the DMEM field and the memory draws only. -/
theorem State.dmemRead_congr {s t : State} (hd : t.dmem = s.dmem) (he : t.epoch = s.epoch) :
    t.dmemRead = s.dmemRead := by
  funext a n
  simp only [State.dmemRead, State.dmemByte_congr hd he]

/-- A DMEM byte after a DMEM write. -/
theorem State.dmemByte_dmemWrite (s : State) (a : Nat) (B : List Byte) (k : Nat) :
    (s.dmemWrite a B).dmemByte k = if a ≤ k ∧ k < a + B.length then B.getD (k - a) 0 else s.dmemByte k := by
  simp only [State.dmemByte, State.dmemWrite_dmem, State.dmemWrite_epoch, Memory.get_putAll]
  split
  · rename_i h
    have hlt : k - a < B.length := by omega
    simp [List.getD_eq_getElem?_getD, List.getElem?_eq_getElem hlt]
  · rfl

/-- A DMEM write leaves every byte outside its range alone. -/
theorem State.dmemByte_dmemWrite_outside (s : State) {a k : Nat} {B : List Byte} (h : k < a ∨ a + B.length ≤ k) :
    (s.dmemWrite a B).dmemByte k = s.dmemByte k := by
  rw [State.dmemByte_dmemWrite, if_neg (by omega)]

/-- Reading back what a DMEM write stored. -/
theorem State.dmemRead_dmemWrite_self (s : State) (a : Nat) (B : List Byte) :
    (s.dmemWrite a B).dmemRead a B.length = B := by
  apply List.ext_getElem
  · simp [State.dmemRead]
  · intro i h1 h2
    have : ((s.dmemWrite a B).dmemRead a B.length)[i]? = some ((s.dmemWrite a B).dmemByte (a + i)) :=
      bytesFrom_getElem? _ _ _ _ h2
    rw [List.getElem?_eq_getElem h1, Option.some.injEq] at this
    rw [this, State.dmemByte_dmemWrite, if_pos (by omega)]
    simp [List.getD_eq_getElem?_getD, List.getElem?_eq_getElem h2]

/-- A ring-buffer byte after bytes are put at `a`. -/
theorem Channel.byteAt_putAll (draw : Nat → Byte) (ch : Channel) (a : Nat) (B : List Byte) (k : Nat) :
    ({ ch with rb := ch.rb.putAll a B } : Channel).byteAt draw k
      = if a ≤ k ∧ k < a + B.length then B.getD (k - a) 0 else ch.byteAt draw k := by
  simp only [Channel.byteAt, Memory.get_putAll]
  split
  · rename_i h
    have hlt : k - a < B.length := by omega
    simp [List.getD_eq_getElem?_getD, List.getElem?_eq_getElem hlt]
  · rfl

/-- Reading a byte depends on the channel's memory only. -/
theorem Channel.byteAt_of_rb {ch ch' : Channel} (h : ch'.rb = ch.rb) (draw : Nat → Byte) (k : Nat) :
    ch'.byteAt draw k = ch.byteAt draw k := by
  simp [Channel.byteAt, h]

end Sys2Proof.Machine
end

