-- ==== Sys2Proof/Laws/Framing.lean ====
section
/-!
SUPPORT. What un-escaping, the frame checks and the verdict functions can answer, each said once.
-/

namespace Sys2Proof.Machine

/-! ## The lengths of a frame's parts (00_scope.md R9, R14) -/

@[simp] theorem Config.isbHeaderLength_eq : Config.isbHeaderLength = 4 := rfl
@[simp] theorem Config.isbFooterLength_eq : Config.isbFooterLength = 4 := rfl
@[simp] theorem headerTail_eq : headerTail = 3 := rfl
@[simp] theorem checksumLength_eq : checksumLength = 3 := rfl
@[simp] theorem dataHeaderLength_eq : dataHeaderLength = 12 := rfl

/-- `WORST(n)` as R231 writes it. -/
theorem worstSize_eq (encEn : Bool) (n : Nat) : worstSize encEn n = if encEn then 2 * n + 14 else n + 8 := by
  unfold worstSize
  simp only [headerTail_eq, checksumLength_eq, Config.isbHeaderLength_eq, Config.isbFooterLength_eq]
  split <;> omega

/-- The fields of `|R| >= 6` unescaped bytes (R201). -/
theorem splitIsb_eq (start : Byte) {R : List Byte} (h : 6 ≤ R.length) :
    splitIsb start R =
      { start := start, pid := at' R 0, counter := at' R 1, flags := at' R 2,
        payload := slice R 3 (3 + (R.length - 6)),
        received := word24 (at' R (3 + (R.length - 6))) (at' R (4 + (R.length - 6))) (at' R (5 + (R.length - 6))) } := by
  have e : R.length - checksumLength = 3 + (R.length - 6) := by simp only [checksumLength_eq]; omega
  have e1 : 3 + (R.length - 6) + 1 = 4 + (R.length - 6) := by omega
  have e2 : 3 + (R.length - 6) + 2 = 5 + (R.length - 6) := by omega
  simp only [splitIsb, e, e1, e2, headerTail_eq]

/-- The checks R201 and R238 share, with the lengths as numbers. -/
theorem unpackIsb_eq (p : Params) (F : List Byte) : unpackIsb p F =
    match unescape p (slice F 1 (F.length - 1)) with
    | none => .malformed
    | some R =>
      if R.length < 6 then .malformed
      else if p.maxBody < R.length - 6 then .tooLong
      else .frame (splitIsb (at' F 0) R) := rfl

/-- The checks of R206, with the length of the data header as a number. -/
theorem dataHeader_eq (p : Params) (flags : Byte) (P : List Byte) : dataHeader p flags P =
    if P.length < 12 then none
    else if P.length - 12 < (headerField flags P 4).toNat then none
    else if p.maxDataset < (headerField flags P 8).toNat + (headerField flags P 4).toNat then none
    else some ⟨headerField flags P 0, headerField flags P 4, headerField flags P 8⟩ := rfl

/-- The verdict on a native frame whose checksum matches, with its data offsets as numbers (R201). -/
theorem classifyIsb_eq (p : Params) (fr : IsbFrame) : classifyIsb p fr =
    match pidClass p fr.pid with
    | .data =>
      match dataHeader p fr.flags fr.payload with
      | none => .bad .malformed
      | some dh => .good .nativeData 16 dh.size.toNat fr.headerWord (some dh)
    | .cmd => .good .nativeCmd 4 fr.payload.length fr.headerWord none
    | .ack => .good .nativeAck 4 fr.payload.length fr.headerWord none := rfl

/-! ## Un-escaping -/

@[simp] theorem unescape_nil (p : Params) : unescape p [] = some [] := rfl

/-- An escape pair gives the complement of its second byte (R230). -/
theorem unescape_pair (p : Params) (y : Byte) (rest : List Byte) (h : inEscSet p (~~~y) = true) :
    unescape p (p.escKey :: y :: rest) = (unescape p rest).map (fun r => ~~~y :: r) := by
  simp [unescape, h]

/-- A byte outside `ESC_SET` stands for itself (R230). -/
theorem unescape_literal (p : Params) (x : Byte) (rest : List Byte) (hk : x ≠ p.escKey)
    (h : inEscSet p x = false) : unescape p (x :: rest) = (unescape p rest).map (fun r => x :: r) := by
  cases rest with
  | nil => simp [unescape, hk, h]
  | cons y rest => simp [unescape, hk, h]

/-- Un-escaping never makes a string longer. -/
theorem unescape_length (p : Params) (X : List Byte) : ∀ R, unescape p X = some R → R.length ≤ X.length := by
  induction X using unescape.induct with
  | p => exact p
  | case1 => simp
  | case2 => simp [unescape]
  | case3 x h1 h2 => simp [unescape, h1, h2]
  | case4 x h1 h2 =>
    intro R h
    simp [unescape, h1, h2] at h
    simp [← h]
  | case5 y rest h ih =>
    intro R hR
    rw [unescape_pair p y rest h] at hR
    obtain ⟨r, hr, rfl⟩ := Option.map_eq_some_iff.1 hR
    have := ih r hr
    simp only [List.length_cons]
    omega
  | case6 y rest h => simp [unescape, h]
  | case7 x y rest h1 h2 => simp [unescape, h1, h2]
  | case8 x y rest h1 h2 ih =>
    intro R hR
    rw [unescape_literal p x (y :: rest) h1 (by simpa using h2)] at hR
    obtain ⟨r, hr, rfl⟩ := Option.map_eq_some_iff.1 hR
    have := ih r hr
    simp only [List.length_cons] at this ⊢
    omega

@[simp] theorem slice_length (A : List Byte) (i j : Nat) : (slice A i j).length = min j A.length - i := by
  simp [slice]

/-- What a frame that unpacks is made of: its start byte, and a payload at least eight bytes shorter than the
frame and no longer than `MAX_BODY` (R201, R238). -/
theorem unpackIsb_frame {p : Params} {F : List Byte} {fr : IsbFrame} (h : unpackIsb p F = .frame fr) :
    fr.start = at' F 0 ∧ fr.payload.length + 8 ≤ F.length ∧ fr.payload.length ≤ p.maxBody ∧
      ∃ R, unescape p (slice F 1 (F.length - 1)) = some R ∧ fr = splitIsb (at' F 0) R ∧ 6 ≤ R.length := by
  rw [unpackIsb_eq] at h
  split at h
  · cases h
  · rename_i R hR
    split at h
    · cases h
    · split at h
      · cases h
      · rename_i h6 hb
        cases h
        have := unescape_length p _ R hR
        simp only [slice_length] at this
        refine ⟨rfl, ?_, ?_, R, hR, rfl, by omega⟩ <;> rw [splitIsb_eq _ (by omega)] <;> simp <;> omega

/-! ## Verdicts -/

/-- What a data header that passes its checks satisfies (R206). -/
theorem dataHeader_some {p : Params} {flags : Byte} {P : List Byte} {dh : DataHeader}
    (h : dataHeader p flags P = some dh) :
    12 ≤ P.length ∧ dh.size.toNat + 12 ≤ P.length ∧ dh.offset.toNat + dh.size.toNat ≤ p.maxDataset := by
  rw [dataHeader_eq] at h
  split at h
  · cases h
  · split at h
    · cases h
    · split at h
      · cases h
      · cases h
        simp only
        omega

/-- The tags of the native binary protocol. -/
def ResultTag.native (tag : ResultTag) : Prop := tag = .nativeData ∨ tag = .nativeCmd ∨ tag = .nativeAck

/-- Everything an accepting verdict can say (R197, R200 to R206, R208, R210). -/
structure GoodFacts (p : Params) (k : Family) (F : List Byte) (tag : ResultTag) (doff dlen : Nat) (hdr : Word)
    (dh : Option DataHeader) : Prop where
  not_none : tag ≠ .none
  not_error : tag ≠ .parseError
  region : doff + dlen ≤ F.length
  header_only_data : tag ≠ .nativeData → dh = none
  foreign : k ≠ .isbV1 → k ≠ .isbV2 → hdr = 0 ∧ dh = none ∧ ¬ tag.native
  isb : k = .isbV1 ∨ k = .isbV2 → tag.native ∧ ∃ fr, unpackIsb p F = .frame fr ∧ fr.received = fr.expected p ∧
    hdr = fr.headerWord

/-- The verdict on a native frame whose checksum matches. -/
theorem classifyIsb_good {p : Params} {fr : IsbFrame} {tag : ResultTag} {doff dlen : Nat} {hdr : Word}
    {dh : Option DataHeader} (h : classifyIsb p fr = .good tag doff dlen hdr dh) :
    tag.native ∧ doff + dlen ≤ fr.payload.length + 4 ∧ hdr = fr.headerWord ∧ (tag ≠ .nativeData → dh = none) := by
  rw [classifyIsb_eq] at h
  split at h
  · split at h
    · cases h
    · rename_i dh' hdh
      cases h
      have := dataHeader_some hdh
      exact ⟨Or.inl rfl, by omega, rfl, fun h => absurd rfl h⟩
  · cases h
    exact ⟨Or.inr (Or.inl rfl), by omega, rfl, fun _ => rfl⟩
  · cases h
    exact ⟨Or.inr (Or.inr rfl), by omega, rfl, fun _ => rfl⟩

theorem classifyIsb_bad {p : Params} {fr : IsbFrame} {cause : Cause} (h : classifyIsb p fr = .bad cause) :
    cause = .malformed := by
  unfold classifyIsb at h
  split at h
  · split at h <;> cases h
    rfl
  · cases h
  · cases h

theorem frameIsb_good {p : Params} {k : Family} {F : List Byte} {tag : ResultTag} {doff dlen : Nat} {hdr : Word}
    {dh : Option DataHeader} (hk : k = .isbV1 ∨ k = .isbV2) (h : frameIsb p F = .good tag doff dlen hdr dh) :
    GoodFacts p k F tag doff dlen hdr dh := by
  unfold frameIsb at h
  split at h
  · unfold isbValidate at h
    split at h
    · cases h
    · cases h
    · rename_i fr hfr
      split at h
      · rename_i hck
        obtain ⟨hn, hreg, hhdr, hdh⟩ := classifyIsb_good h
        have hlen := (unpackIsb_frame hfr).2.1
        refine ⟨?_, ?_, by omega, hdh, ?_, fun _ => ⟨hn, fr, hfr, hck, hhdr⟩⟩
        · rintro rfl; rcases hn with h | h | h <;> cases h
        · rintro rfl; rcases hn with h | h | h <;> cases h
        · intro h1 h2
          rcases hk with h | h
          · exact absurd h h1
          · exact absurd h h2
      · cases h
  · cases h

/-- What an accepting verdict says. -/
theorem frame_good {p : Params} {cap : Nat} {k : Family} {F : List Byte} {tag : ResultTag} {doff dlen : Nat}
    {hdr : Word} {dh : Option DataHeader} (h : frame p cap k F = .good tag doff dlen hdr dh) :
    GoodFacts p k F tag doff dlen hdr dh := by
  have foreign : ∀ {t : ResultTag} {d n : Nat}, t ≠ .none → t ≠ .parseError → ¬ t.native → d + n ≤ F.length →
      k ≠ .isbV1 → k ≠ .isbV2 → GoodFacts p k F t d n 0 none := by
    intro t d n h1 h2 h3 h4 h5 h6
    exact ⟨h1, h2, h4, fun _ => rfl, fun _ _ => ⟨rfl, rfl, h3⟩, fun h => by rcases h with h | h <;> contradiction⟩
  cases k with
  | isbV2 => exact frameIsb_good (Or.inr rfl) h
  | isbV1 => exact frameIsb_good (Or.inl rfl) h
  | ublox =>
    simp only [frame, frameUblox] at h
    split at h
    · cases h
    · split at h
      · cases h
      · split at h
        · cases h
        · split at h
          · cases h
            exact foreign (by simp) (by simp) (by simp [ResultTag.native]) (by omega) (by simp) (by simp)
          · cases h
  | rtcm3 =>
    simp only [frame, frameRtcm3] at h
    split at h
    · cases h
    · split at h
      · cases h
      · split at h
        · cases h
        · split at h
          · cases h
          · split at h
            · cases h
              exact foreign (by simp) (by simp) (by simp [ResultTag.native]) (by omega) (by simp) (by simp)
            · cases h
  | sony =>
    simp only [frame, foreignVerdict] at h
    split at h <;> cases h
    exact foreign (by simp) (by simp) (by simp [ResultTag.native]) (by omega) (by simp) (by simp)
  | spartn =>
    simp only [frame, foreignVerdict] at h
    split at h <;> cases h
    exact foreign (by simp) (by simp) (by simp [ResultTag.native]) (by omega) (by simp) (by simp)
  | ascii =>
    simp only [frame, frameAscii] at h
    split at h
    · unfold asciiValidate at h
      simp only at h
      split at h
      · split at h
        · cases h
          exact foreign (by simp) (by simp) (by simp [ResultTag.native]) (by omega) (by simp) (by simp)
        · cases h
      · cases h
        exact foreign (by simp) (by simp) (by simp [ResultTag.native]) (by omega) (by simp) (by simp)
    · split at h <;> cases h

/-- The causes of a rejecting verdict (R194). -/
theorem frame_bad {p : Params} {cap : Nat} {k : Family} {F : List Byte} {cause : Cause}
    (h : frame p cap k F = .bad cause) : cause = .cksum ∨ cause = .length ∨ cause = .malformed := by
  have isb : frameIsb p F = .bad cause → cause = .cksum ∨ cause = .length ∨ cause = .malformed := by
    intro h
    unfold frameIsb at h
    split at h
    · unfold isbValidate at h
      split at h
      · cases h; simp
      · cases h; simp
      · split at h
        · simp [classifyIsb_bad h]
        · cases h; simp
    · cases h
  cases k with
  | isbV2 => exact isb h
  | isbV1 => exact isb h
  | ublox =>
    simp only [frame, frameUblox] at h
    repeat' split at h
    all_goals cases h
    all_goals simp
  | rtcm3 =>
    simp only [frame, frameRtcm3] at h
    repeat' split at h
    all_goals cases h
    all_goals simp
  | sony =>
    simp only [frame, foreignVerdict] at h
    split at h <;> cases h
    simp
  | spartn =>
    simp only [frame, foreignVerdict] at h
    split at h <;> cases h
    simp
  | ascii =>
    simp only [frame, frameAscii, asciiValidate] at h
    repeat' split at h
    all_goals cases h
    all_goals simp

/-- The data region a tag that is not native calls for (R202 to R204, R208, R210), and which families answer a native
tag. -/
theorem frame_good_region {p : Params} {cap : Nat} {k : Family} {F : List Byte} {tag : ResultTag} {doff dlen : Nat}
    {hdr : Word} {dh : Option DataHeader} (h : frame p cap k F = .good tag doff dlen hdr dh) :
    (tag = .ublox → doff = 6 ∧ dlen = (at' F 4).toNat + 256 * (at' F 5).toNat) ∧
    (tag = .rtcm3 → doff = 3 ∧ dlen = 256 * (at' F 1 &&& 0x03).toNat + (at' F 2).toNat) ∧
    (tag = .asciiNmea ∨ tag = .sony ∨ tag = .spartn → doff = 0 ∧ dlen = F.length) ∧
    (tag.native → k = .isbV1 ∨ k = .isbV2) := by
  have isb : (k = .isbV1 ∨ k = .isbV2) → tag.native := fun hk => ((frame_good h).isb hk).1
  cases k with
  | isbV2 => rcases isb (Or.inr rfl) with rfl | rfl | rfl <;> simp
  | isbV1 => rcases isb (Or.inl rfl) with rfl | rfl | rfl <;> simp
  | ublox =>
    simp only [frame, frameUblox] at h
    repeat' split at h
    all_goals cases h
    all_goals simp [ResultTag.native]
  | rtcm3 =>
    simp only [frame, frameRtcm3] at h
    repeat' split at h
    all_goals cases h
    all_goals simp [ResultTag.native]
  | sony =>
    simp only [frame, foreignVerdict] at h
    split at h <;> cases h
    simp [ResultTag.native]
  | spartn =>
    simp only [frame, foreignVerdict] at h
    split at h <;> cases h
    simp [ResultTag.native]
  | ascii =>
    simp only [frame, frameAscii, asciiValidate] at h
    repeat' split at h
    all_goals cases h
    all_goals simp [ResultTag.native]

/-- A native frame that is accepted is accepted by the class of its packet id (R201). -/
theorem frame_good_isb {p : Params} {cap : Nat} {k : Family} {F : List Byte} {tag : ResultTag} {doff dlen : Nat}
    {hdr : Word} {dh : Option DataHeader} {fr : IsbFrame} (hk : k = .isbV1 ∨ k = .isbV2)
    (h : frame p cap k F = .good tag doff dlen hdr dh) (hfr : unpackIsb p F = .frame fr) :
    classifyIsb p fr = .good tag doff dlen hdr dh := by
  have e : frame p cap k F = frameIsb p F := by rcases hk with rfl | rfl <;> rfl
  rw [e, frameIsb] at h
  split at h
  · rw [isbValidate, hfr] at h
    simp only at h
    split at h
    · exact h
    · cases h
  · cases h

end Sys2Proof.Machine
end

