-- ==== Sys2Proof/Laws/Parser.lean ====
section
/-!
SUPPORT. Everything the parser's step, its loop and PARSE_CORE can do, said once: a step that goes on moves only
the cursors and the parse state, a decision is the FAIL or the SUCCEED of the candidate, and every one of them
keeps the channel's invariant.
-/

namespace Sys2Proof.Machine

open Sys2Proof.Safety

/-- The channel differs from `ch` in its cursors `head` and `scan`, its parse state and its candidate only. -/
def Channel.Scanned (ch ch' : Channel) : Prop :=
  ch' = { ch with head := ch'.head, scan := ch'.scan, pstate := ch'.pstate, cand := ch'.cand }

theorem Channel.Scanned.refl (ch : Channel) : ch.Scanned ch := rfl

theorem Channel.Scanned.trans {a b c : Channel} (h1 : a.Scanned b) (h2 : b.Scanned c) : a.Scanned c := by
  unfold Channel.Scanned at *
  rw [h1] at h2
  exact h2

/-- The bytes of a region of the ring buffer. -/
@[simp] theorem Channel.bytes_length (draw : Nat → Byte) (ch : Channel) (i j : Nat) :
    (ch.bytes draw i j).length = j - i := by
  simp [Channel.bytes]

/-- The candidate with the byte at `scan` added (R194). -/
def Channel.candidate (env : ParseEnv) (ch : Channel) : List Byte :=
  ch.bytes env.draw ch.head.toNat (ch.scan.toNat + 1)

/-- The number of steps left before the loop of PARSE_CORE runs out of bytes, at most (R214). -/
def Channel.stepsLeft (ch : Channel) : Nat :=
  2 * (ch.tail.toNat - ch.scan.toNat) + (if ch.pstate = .haveStart then 1 else 0)

theorem Channel.stepsLeft_le (ch : Channel) : ch.stepsLeft ≤ ch.parseFuel := by
  unfold Channel.stepsLeft Channel.parseFuel
  split <;> omega

/-- A step that moves `scan` on leaves fewer steps. -/
theorem Channel.stepsLeft_lt {ch ch' : Channel} (ht : ch'.tail = ch.tail) (hs : ch'.scan.toNat = ch.scan.toNat + 1)
    (hlt : ch.scan.toNat < ch.tail.toNat) : ch'.stepsLeft < ch.stepsLeft := by
  unfold Channel.stepsLeft
  rw [ht, hs]
  split <;> split <;> omega

/-- The capacity of a channel is far below 2^32, so no cursor wraps (R7). -/
theorem Params.lawful_capMax {p : Params} (h : p.lawful = true) : p.capMax ≤ 1048576 := by
  simp only [Params.lawful, Params.capMaxOk, Bool.and_eq_true, decide_eq_true_eq] at h
  omega

theorem Channel.scan_succ {p : Params} {draw : Nat → Byte} {ch : Channel} (hp : p.lawful = true)
    (hi : ChannelInv p draw ch) (hs : ch.scan.toNat < ch.tail.toNat) : (ch.scan + 1).toNat = ch.scan.toNat + 1 := by
  have := Params.lawful_capMax hp
  have := hi.tail_le_cap
  have := hi.cap_le
  have h1 : (1 : Word).toNat = 1 := rfl
  rw [BitVec.toNat_add, h1]
  omega

theorem matchStart_some {mask : BitVec 7} {b : Byte} {k : Family} (h : matchStart mask b = some k) :
    b = k.startByte := by
  have := List.find?_some h
  simp only [Bool.and_eq_true, beq_iff_eq] at this
  exact this.2

/-- What one step that goes on does (R196, R215). -/
structure StepOn (p : Params) (draw : Nat → Byte) (ch ch' : Channel) : Prop where
  inv : ChannelInv p draw ch'
  scanned : ch.Scanned ch'
  head_le : ch.head.toNat ≤ ch'.head.toNat
  steps : ch'.stepsLeft < ch.stepsLeft

/-- What one step that decides does (R196, R198, R199). -/
inductive StepDone (env : ParseEnv) (ch : Channel) : Channel → ResultTag → Prop where
  | bad (k : Family) (cause : Cause) (hs : ch.pstate = .accum) (hk : ch.cand = some k)
      (hv : frame env.params ch.cap.toNat k (ch.candidate env) = .bad cause) :
      StepDone env ch (ch.fail ch.head cause) .parseError
  | good (k : Family) (tag : ResultTag) (doff dlen : Nat) (hdr : Word) (dh : Option DataHeader)
      (hs : ch.pstate = .accum) (hk : ch.cand = some k)
      (hv : frame env.params ch.cap.toNat k (ch.candidate env) = .good tag doff dlen hdr dh) :
      StepDone env ch (ch.succeed env ch.head ch.scan (ch.candidate env) doff dlen hdr dh) tag

/-- SUCCEED overwrites the cursors and the parse state, so the values they had do not matter. -/
theorem Channel.succeed_of_scan (env : ParseEnv) (ch : Channel) (x : Word) (q : PState) (s p : Word)
    (F : List Byte) (doff dlen : Nat) (hdr : Word) (dh : Option DataHeader) :
    ({ ch with scan := x, pstate := q } : Channel).succeed env s p F doff dlen hdr dh
      = ch.succeed env s p F doff dlen hdr dh := by
  unfold Channel.succeed Channel.decodeInPlace Channel.candIsIsb
  cases dh <;> simp only [Channel.setDataHeader]
  · split
    · split <;> rfl
    · rfl
  · split
    · split <;> rfl
    · rfl

/-- Everything one step can do. -/
theorem Channel.step_cases {env : ParseEnv} {ch : Channel} (hp : env.params.lawful = true)
    (hi : ChannelInv env.params env.draw ch) (hs : ch.scan.toNat < ch.tail.toNat) :
    (∃ ch', ch.step env = (ch', .cont) ∧ StepOn env.params env.draw ch ch') ∨
    (∃ ch' tag, ch.step env = (ch', .done tag) ∧ StepDone env ch ch' tag) := by
  have hscan := Channel.scan_succ hp hi hs
  obtain ⟨h1, h2, h3, h4, h5, h6, h7, h8, h9, h10, h11, h12, h13⟩ := hi
  unfold Channel.step
  simp only
  split
  · rename_i hst
    left
    obtain ⟨hhs, hc⟩ := h6 hst
    refine ⟨_, rfl, ?_⟩
    unfold Channel.stepIdle
    split
    · refine ⟨⟨h1, h2, le_refl _, by simp only [hscan]; omega, h5, fun _ => ⟨rfl, hc⟩, ?_, ?_, ?_, ?_, ?_, h12, h13⟩,
        ?_, ?_, ?_⟩
      · intro h; rw [hst] at h; cases h
      · intro h; rw [hst] at h; cases h
      · intro h; rw [hst] at h; cases h
      · intro h; rw [hst] at h; cases h
      · intro k hk
        simp only [hc, reduceCtorEq] at hk
      · rfl
      · simp only [hscan]; omega
      · exact Channel.stepsLeft_lt rfl hscan hs
    · rename_i k hk
      have hb := matchStart_some hk
      refine ⟨⟨h1, h2, ?_, ?_, h5, ?_, ?_, ?_, ?_, ?_, ?_, h12, h13⟩, ?_, ?_, ?_⟩
      · simp only [hscan]; omega
      · simp only [hscan]; omega
      · intro h; simp only at h; split at h <;> cases h
      · intro h
        simp only at h
        split at h
        · rename_i hu
          exact ⟨by simp [hu], by simp only [hscan]⟩
        · cases h
      · intro h
        exact ⟨by simp, by simp only [hscan]; omega⟩
      · intro h hu
        simp only [Option.some.injEq] at hu
        simp [hu] at h
      · simp only; split <;> simp
      · intro k' hk'
        simp only [Option.some.injEq] at hk'
        subst hk'
        simp only [← hb]
        rfl
      · rfl
      · show ch.head.toNat ≤ ch.scan.toNat
        exact h3
      · exact Channel.stepsLeft_lt rfl hscan hs
  · rename_i hst
    left
    obtain ⟨hc, hsc⟩ := h7 hst
    refine ⟨_, rfl, ?_⟩
    unfold Channel.stepHaveStart
    split
    · rename_i hb
      refine ⟨⟨h1, h2, ?_, ?_, h5, ?_, ?_, ?_, ?_, ?_, ?_, h12, h13⟩, ?_, ?_, ?_⟩
      · simp only [hscan]; omega
      · simp only [hscan]; omega
      · intro h; cases h
      · intro h; cases h
      · intro _
        exact ⟨by simp [hc], by simp only [hscan]; omega⟩
      · intro _ _
        refine ⟨by simp only [hscan]; omega, ?_⟩
        rw [← hb, hsc]
        rfl
      · simp
      · exact h11
      · rfl
      · exact le_refl _
      · exact Channel.stepsLeft_lt rfl hscan hs
    · refine ⟨⟨h1, h2, le_refl _, h4, h5, fun _ => ⟨rfl, rfl⟩, ?_, ?_, ?_, ?_, ?_, h12, h13⟩, ?_, ?_, ?_⟩
      · intro h; cases h
      · intro h; cases h
      · intro h; cases h
      · simp
      · intro k hk; cases hk
      · rfl
      · exact h3
      · simp only [Channel.stepsLeft]
        rw [if_pos hst]
        simp
  · rename_i hst
    obtain ⟨hc, hsc⟩ := h8 hst
    obtain ⟨k, hk⟩ := Option.ne_none_iff_exists'.1 hc
    have hverdict : ch.verdict env = frame env.params ch.cap.toNat k (ch.candidate env) := by
      simp only [Channel.verdict, hk]
      rfl
    unfold Channel.stepAccum
    rw [hverdict]
    rcases hv : frame env.params ch.cap.toNat k (ch.candidate env)
      with _ | cause | ⟨tag, doff, dlen, hdr, dh⟩
    · left
      refine ⟨_, rfl, ⟨h1, h2, ?_, ?_, h5, ?_, ?_, ?_, ?_, ?_, h11, h12, h13⟩, ?_, ?_, ?_⟩
      · simp only [hscan]; omega
      · simp only [hscan]; omega
      · intro h; simp only [hst] at h; cases h
      · intro h; simp only [hst] at h; cases h
      · intro _
        exact ⟨hc, by simp only [hscan]; omega⟩
      · intro _ hu
        obtain ⟨a, b⟩ := h9 hst hu
        exact ⟨by simp only [hscan]; omega, b⟩
      · exact h10
      · rfl
      · exact le_refl _
      · exact Channel.stepsLeft_lt rfl hscan hs
    · right
      exact ⟨_, _, rfl, StepDone.bad k cause hst hk hv⟩
    · right
      refine ⟨_, _, rfl, ?_⟩
      simp only [Channel.succeed_of_scan env ch (ch.scan + 1) .validating]
      exact StepDone.good k tag doff dlen hdr dh hst hk hv
  · rename_i hst
    exact absurd hst h10

/-- Everything the loop of PARSE_CORE can do: steps that go on, and then either the end of the bytes or one
decision (R211, R214). -/
theorem Channel.parseLoop_cases {env : ParseEnv} (hp : env.params.lawful = true) (fuel : Nat) :
    ∀ {ch : Channel}, ChannelInv env.params env.draw ch → ch.stepsLeft ≤ fuel →
      ∃ mid, ChannelInv env.params env.draw mid ∧ ch.Scanned mid ∧ ch.head.toNat ≤ mid.head.toNat ∧
        ((Channel.parseLoop env fuel ch = (mid, .none) ∧ mid.scan.toNat = mid.tail.toNat) ∨
         (mid.scan.toNat < mid.tail.toNat ∧
          ∃ ch' tag, Channel.parseLoop env fuel ch = (ch', tag) ∧ StepDone env mid ch' tag)) := by
  induction fuel with
  | zero =>
    intro ch hi hf
    have := hi.scan_le_tail
    unfold Channel.stepsLeft at hf
    exact ⟨ch, hi, Channel.Scanned.refl ch, le_refl _, Or.inl ⟨rfl, by omega⟩⟩
  | succ fuel ih =>
    intro ch hi hf
    by_cases hs : ch.scan.toNat < ch.tail.toNat
    · rcases Channel.step_cases hp hi hs with ⟨ch', he, hon⟩ | ⟨ch', tag, he, hdone⟩
      · obtain ⟨mid, hm1, hm2, hm3, hm4⟩ := ih hon.inv (by have := hon.steps; omega)
        refine ⟨mid, hm1, hon.scanned.trans hm2, le_trans hon.head_le hm3, ?_⟩
        have hl : Channel.parseLoop env (fuel + 1) ch = Channel.parseLoop env fuel ch' := by
          rw [Channel.parseLoop, if_pos hs, he]
        rw [hl]
        exact hm4
      · refine ⟨ch, hi, Channel.Scanned.refl ch, le_refl _, Or.inr ⟨hs, ch', tag, ?_, hdone⟩⟩
        rw [Channel.parseLoop, if_pos hs, he]
    · have := hi.scan_le_tail
      refine ⟨ch, hi, Channel.Scanned.refl ch, le_refl _, Or.inl ⟨?_, by omega⟩⟩
      rw [Channel.parseLoop, if_neg hs]

/-- Clearing PKT_VALID keeps the invariant. -/
theorem Channel.inv_pktValid {p : Params} {draw : Nat → Byte} {ch : Channel} (h : ChannelInv p draw ch) (b : Bool) :
    ChannelInv p draw { ch with pktValid := b } :=
  ⟨h.1, h.2, h.3, h.4, h.5, h.6, h.7, h.8, h.9, h.10, h.11, h.12, h.13⟩

/-- More fuel than steps left changes nothing (R214). -/
theorem Channel.parseLoop_fuel {env : ParseEnv} (hp : env.params.lawful = true) (f : Nat) :
    ∀ {ch : Channel} (g : Nat), ChannelInv env.params env.draw ch → ch.stepsLeft ≤ f → ch.stepsLeft ≤ g →
      Channel.parseLoop env f ch = Channel.parseLoop env g ch := by
  induction f with
  | zero =>
    intro ch g _ hf _
    have hs : ¬ ch.scan.toNat < ch.tail.toNat := by unfold Channel.stepsLeft at hf; omega
    cases g with
    | zero => rfl
    | succ g => simp only [Channel.parseLoop, if_neg hs]
  | succ f ih =>
    intro ch g hi hf hg
    by_cases hs : ch.scan.toNat < ch.tail.toNat
    · have : 0 < ch.stepsLeft := by unfold Channel.stepsLeft; omega
      obtain ⟨g', rfl⟩ : ∃ g', g = g' + 1 := ⟨g - 1, by omega⟩
      simp only [Channel.parseLoop, if_pos hs]
      rcases Channel.step_cases hp hi hs with ⟨ch', he, hon⟩ | ⟨ch', tag, he, _⟩
      · have := hon.steps
        simp only [he]
        exact ih g' hon.inv (by omega) (by omega)
      · simp only [he]
    · cases g with
      | zero => simp only [Channel.parseLoop, if_neg hs]
      | succ g => simp only [Channel.parseLoop, if_neg hs]

/-- A step that goes on neither reads nor writes PKT_VALID (R196). -/
theorem Channel.step_pktValid {env : ParseEnv} {ch ch' : Channel} (h : ch.step env = (ch', .cont)) (v : Bool) :
    ({ ch with pktValid := v } : Channel).step env = ({ ch' with pktValid := v }, .cont) := by
  have hb : ({ ch with pktValid := v } : Channel).byteAt env.draw = ch.byteAt env.draw := rfl
  have hv : ({ ch with pktValid := v } : Channel).verdict env = ch.verdict env := rfl
  unfold Channel.step at h ⊢
  simp only [hb] at h ⊢
  split at h
  · cases h
    cases hm : matchStart ch.mask (ch.byteAt env.draw ch.scan.toNat) <;> simp only [Channel.stepIdle, hm]
  · cases h
    by_cases hs : ch.byteAt env.draw ch.scan.toNat = Config.ubxSync2 <;> simp only [Channel.stepHaveStart, hs, if_true, if_false]
  · unfold Channel.stepAccum at h ⊢
    rw [hv]
    split at h <;> cases h
    rfl
  · cases h
    rfl

/-- PARSE_CORE is PARSE_CORE again after a step that goes on (R211). -/
theorem Channel.parseCore_step {env : ParseEnv} {ch ch' : Channel} (hp : env.params.lawful = true)
    (hi : ChannelInv env.params env.draw ch) (hs : ch.scan.toNat < ch.tail.toNat)
    (h : ch.step env = (ch', .cont)) : ch.parseCore env = ch'.parseCore env := by
  have hon : StepOn env.params env.draw ch ch' := by
    rcases Channel.step_cases hp hi hs with ⟨x, he, hon⟩ | ⟨x, tag, he, _⟩ <;> rw [h] at he <;> cases he
    exact hon
  have hl : Channel.parseLoop env ch.parseFuel { ch with pktValid := false }
      = Channel.parseLoop env ch'.parseFuel { ch' with pktValid := false } := by
    have hf : ch.parseFuel = (2 * (ch.tail.toNat - ch.scan.toNat)) + 1 := rfl
    rw [hf, Channel.parseLoop, if_pos hs, Channel.step_pktValid h]
    refine Channel.parseLoop_fuel hp _ _ (Channel.inv_pktValid hon.inv false) ?_ (Channel.stepsLeft_le ch')
    have := hon.steps
    have := Channel.stepsLeft_le ch
    show ch'.stepsLeft ≤ _
    omega
  unfold Channel.parseCore
  rw [hl]

/-- Everything PARSE_CORE can do (R211). `mid` is the channel when its bytes end or a candidate is judged. -/
theorem Channel.parseCore_cases {env : ParseEnv} {ch : Channel} (hp : env.params.lawful = true)
    (hi : ChannelInv env.params env.draw ch) :
    ∃ mid, ChannelInv env.params env.draw mid ∧ ({ ch with pktValid := false } : Channel).Scanned mid ∧
      ch.head.toNat ≤ mid.head.toNat ∧
      ((ch.parseCore env = ({ mid with lastTag := .none }, .none) ∧ mid.scan.toNat = mid.tail.toNat) ∨
       (mid.scan.toNat < mid.tail.toNat ∧
        ∃ ch' tag, ch.parseCore env = ({ ch' with lastTag := tag }, tag) ∧ StepDone env mid ch' tag)) := by
  have hl : ({ ch with pktValid := false } : Channel).stepsLeft ≤ ch.parseFuel := Channel.stepsLeft_le ch
  obtain ⟨mid, h1, h2, h3, h4⟩ := Channel.parseLoop_cases hp ch.parseFuel (Channel.inv_pktValid hi false) hl
  refine ⟨mid, h1, h2, h3, ?_⟩
  unfold Channel.parseCore
  rcases h4 with ⟨he, hs⟩ | ⟨hs, ch', tag, he, hd⟩
  · exact Or.inl ⟨by simp only [he], hs⟩
  · exact Or.inr ⟨hs, ch', tag, by simp only [he], hd⟩

/-! ## Decisions -/

@[simp] theorem swap32_length (P : List Byte) : (swap32 P).length = P.length := by
  induction P using swap32.induct with
  | case1 b0 b1 b2 b3 rest ih => simp [swap32, ih]
  | case2 rest h =>
    unfold swap32
    split
    · exact absurd rfl (h _ _ _ _ _)
    · rfl

/-- NORMALIZE does not change the length (R237). -/
@[simp] theorem normalize_length (hostLe : Bool) (flags : Byte) (P : List Byte) :
    (normalize hostLe flags P).length = P.length := by
  unfold normalize
  split <;> simp

@[simp] theorem IsbFrame.decoded_length (hostLe : Bool) (fr : IsbFrame) :
    (fr.decoded hostLe).length = fr.payload.length + 4 := by
  simp [IsbFrame.decoded, IsbFrame.header]

/-- The bytes SUCCEED writes at the frame's start (R207): none, or the decoded frame, which ends at least four
bytes before the frame does. -/
theorem Channel.decodeInPlace_cases (env : ParseEnv) (ch : Channel) (s : Word) (F : List Byte) :
    ch.decodeInPlace env s F = ch ∨
    ((ch.cand = some .isbV1 ∨ ch.cand = some .isbV2) ∧
      ∃ D : List Byte, D.length + 4 ≤ F.length ∧
        ch.decodeInPlace env s F = { ch with rb := ch.rb.putAll s.toNat D }) := by
  unfold Channel.decodeInPlace
  split
  · rename_i hc
    have hc' : ch.cand = some .isbV1 ∨ ch.cand = some .isbV2 := by
      simp only [Channel.candIsIsb, Bool.or_eq_true, beq_iff_eq] at hc
      exact hc.symm
    split
    · rename_i fr hfr
      right
      have := (unpackIsb_frame hfr).2.1
      exact ⟨hc', fr.decoded env.hostLe, by simp; omega, rfl⟩
    · exact Or.inl rfl
    · exact Or.inl rfl
  · exact Or.inl rfl

/-- Every field SUCCEED leaves behind (R198). -/
theorem Channel.succeed_eq (env : ParseEnv) (ch : Channel) (s p : Word) (F : List Byte) (doff dlen : Nat)
    (hdr : Word) (dh : Option DataHeader) :
    ch.succeed env s p F doff dlen hdr dh =
      { ch with
        rb := (ch.decodeInPlace env s F).rb
        pktStart := s
        pktLen := BitVec.ofNat 32 F.length
        dataStart := s + BitVec.ofNat 32 doff
        dataLen := BitVec.ofNat 32 dlen
        pktHdr := hdr
        pktValid := true
        head := p + 1
        scan := p + 1
        pstate := .idle
        cand := none
        dhdrId := (dh.map DataHeader.id).getD ch.dhdrId
        dhdrSize := (dh.map DataHeader.size).getD ch.dhdrSize
        dhdrOffset := (dh.map DataHeader.offset).getD ch.dhdrOffset } := by
  unfold Channel.succeed
  rcases Channel.decodeInPlace_cases env ch s F with h | ⟨_, D, _, h⟩ <;> rw [h] <;> cases dh <;> rfl

/-- FAIL keeps the invariant and moves `head` on (R199, R215). -/
theorem Channel.fail_inv {p : Params} {draw : Nat → Byte} {ch : Channel} (hp : p.lawful = true)
    (hi : ChannelInv p draw ch) (hs : ch.scan.toNat < ch.tail.toNat) (cause : Cause) :
    (ch.head + 1).toNat = ch.head.toNat + 1 ∧ ChannelInv p draw (ch.fail ch.head cause) := by
  have := Params.lawful_capMax hp
  obtain ⟨h1, h2, h3, h4, h5, h6, h7, h8, h9, h10, h11, h12, h13⟩ := hi
  have e1 : (1 : Word).toNat = 1 := rfl
  have hh : (ch.head + 1).toNat = ch.head.toNat + 1 := by
    rw [BitVec.toNat_add, e1]
    omega
  refine ⟨hh, h1, h2, le_refl _, ?_, h5, fun _ => ⟨rfl, rfl⟩, ?_, ?_, ?_, by simp [Channel.fail], ?_, h12, h13⟩
  · show (ch.head + 1).toNat ≤ ch.tail.toNat
    omega
  all_goals simp [Channel.fail]

/-- SUCCEED keeps the invariant (R198, R207, R215). -/
theorem Channel.succeed_inv {env : ParseEnv} {ch : Channel} (hp : env.params.lawful = true)
    (hi : ChannelInv env.params env.draw ch) (hs : ch.scan.toNat < ch.tail.toNat) (doff dlen : Nat) (hdr : Word)
    (dh : Option DataHeader) :
    ChannelInv env.params env.draw (ch.succeed env ch.head ch.scan (ch.candidate env) doff dlen hdr dh) := by
  have hscan := Channel.scan_succ hp hi hs
  obtain ⟨h1, h2, h3, h4, h5, h6, h7, h8, h9, h10, h11, h12, h13⟩ := hi
  rw [Channel.succeed_eq]
  refine ⟨h1, h2, le_refl _, ?_, h5, fun _ => ⟨rfl, rfl⟩, ?_, ?_, ?_, ?_, ?_, ?_, ?_⟩
  · show (ch.scan + 1).toNat ≤ ch.tail.toNat
    omega
  · simp
  · simp
  · simp
  · simp
  · simp
  · rcases Channel.decodeInPlace_cases env ch ch.head (ch.candidate env) with h | ⟨_, D, _, h⟩ <;> simp only [h]
    · exact h12
    · exact Memory.wf_putAll D h12 _
  · rcases Channel.decodeInPlace_cases env ch ch.head (ch.candidate env) with h | ⟨_, D, hD, h⟩ <;> simp only [h]
    · exact h13
    · refine Memory.below_putAll D h13 ?_
      simp only [Channel.candidate, Channel.bytes_length] at hD
      omega

/-- A decision keeps the invariant. -/
theorem StepDone.inv {env : ParseEnv} {ch ch' : Channel} {tag : ResultTag} (hp : env.params.lawful = true)
    (hi : ChannelInv env.params env.draw ch) (hs : ch.scan.toNat < ch.tail.toNat) (h : StepDone env ch ch' tag) :
    ChannelInv env.params env.draw ch' := by
  cases h with
  | bad => exact (Channel.fail_inv hp hi hs _).2
  | good => exact Channel.succeed_inv hp hi hs _ _ _ _

/-- Writing LAST_TAG keeps the invariant. -/
theorem Channel.inv_lastTag {p : Params} {draw : Nat → Byte} {ch : Channel} (h : ChannelInv p draw ch)
    (tag : ResultTag) : ChannelInv p draw { ch with lastTag := tag } :=
  ⟨h.1, h.2, h.3, h.4, h.5, h.6, h.7, h.8, h.9, h.10, h.11, h.12, h.13⟩

/-- PARSE_CORE keeps the invariant (R215). -/
theorem Channel.parseCore_inv {env : ParseEnv} {ch : Channel} (hp : env.params.lawful = true)
    (hi : ChannelInv env.params env.draw ch) : ChannelInv env.params env.draw (ch.parseCore env).1 := by
  obtain ⟨mid, hm, _, _, ⟨he, _⟩ | ⟨hs, ch', tag, he, hd⟩⟩ := Channel.parseCore_cases hp hi <;> rw [he]
  · exact Channel.inv_lastTag hm _
  · exact Channel.inv_lastTag (hd.inv hp hm hs) _

end Sys2Proof.Machine
end

