-- ==== Sys2Proof/Laws/Commands.lean ====
section
/-!
SUPPORT. How a command reaches its meaning: `exec` at each command, the channel checks, and the few facts every
meaning shares.
-/

namespace Sys2Proof.Machine

open Sys2Proof.Safety

/-! ## `exec` at each command -/

theorem exec_nop (s : State) : exec .nop s = .next (s.done .nop) := rfl
theorem exec_init (c : BitVec 4) (s : State) : exec (.init c) s = .next (runInit c s) := rfl
theorem exec_setMask (c : BitVec 4) (m : BitVec 7) (s : State) : exec (.setMask c m) s = .next (runSetMask c m s) := rfl
theorem exec_append (c : BitVec 4) (s : State) : exec (.append c) s = .next (runAppend c s) := rfl
theorem exec_free (c : BitVec 4) (s : State) : exec (.free c) s = .next (runFree c s) := rfl
theorem exec_parseByte (c : BitVec 4) (b : Byte) (s : State) :
    exec (.parseByte c b) s = .next (runParseByte c b s) := rfl
theorem exec_parse (c : BitVec 4) (s : State) : exec (.parse c) s = .next (runParse c s) := rfl
theorem exec_cksum (s : State) : exec .cksum s = .next (runCksum s) := rfl
theorem exec_crc24 (s : State) : exec .crc24 s = .next (runCrc24 s) := rfl
theorem exec_getbits (s : State) : exec .getbits s = .next (runGetbits s) := rfl
theorem exec_encode (c : BitVec 4) (v : Version) (s : State) : exec (.encode c v) s = .next (runEncode c v s) := rfl
theorem exec_decode (s : State) : exec .decode s = .next (runDecode s) := rfl
theorem exec_decodeByte (s : State) : exec .decodeByte s = .next (runDecodeByte s) := rfl
theorem exec_decodeFooter (s : State) : exec .decodeFooter s = .next (runDecodeFooter s) := rfl
theorem exec_encEnable (b : Bool) (s : State) :
    exec (.encEnable b) s = .next (({ s with ctrl := ⟨b, s.ctrl.hostLe⟩ } : State).done (.encEnable b)) := rfl
theorem exec_setHostOrder (b : Bool) (s : State) :
    exec (.setHostOrder b) s = .next (({ s with ctrl := ⟨s.ctrl.encEn, b⟩ } : State).done (.setHostOrder b)) := rfl

/-! ## The channel checks (R254, R255) -/

/-- On a ready channel the command runs. -/
theorem State.withChannel_ready {s : State} {c : BitVec 4} (h : channelReady s c) (i : Instr)
    (run : Channel → State) : s.withChannel i c run = run (s.chan c) := by
  simp [State.withChannel, State.hasChannel, h.1, h.2]

theorem State.withChannel_badChannel {s : State} {c : BitVec 4} (h : s.params.nch ≤ c.toNat) (i : Instr)
    (run : Channel → State) : s.withChannel i c run = s.raise i .badChannel := by
  have : ¬ c.toNat < s.params.nch := by omega
  simp [State.withChannel, State.hasChannel, this]

theorem State.withChannel_notInit {s : State} {c : BitVec 4} (h : c.toNat < s.params.nch)
    (hi : (s.chan c).inited = false) (i : Instr) (run : Channel → State) :
    s.withChannel i c run = s.raise i .notInit := by
  simp [State.withChannel, State.hasChannel, hi, h]

/-- Everything the channel checks can do: run the command on a ready channel, or fail. -/
theorem State.withChannel_cases (s : State) (i : Instr) (c : BitVec 4) (run : Channel → State) :
    (channelReady s c ∧ s.withChannel i c run = run (s.chan c)) ∨
    ∃ code, (code = .badChannel ∨ code = .notInit) ∧ s.withChannel i c run = s.raise i code := by
  by_cases h : c.toNat < s.params.nch
  · cases hi : (s.chan c).inited with
    | true => exact Or.inl ⟨⟨h, hi⟩, State.withChannel_ready ⟨h, hi⟩ i run⟩
    | false => exact Or.inr ⟨.notInit, by simp, State.withChannel_notInit h hi i run⟩
  · exact Or.inr ⟨.badChannel, by simp, State.withChannel_badChannel (by omega) i run⟩

/-- `raise` writes STATUS and nothing else (R12). -/
theorem State.raise_eq (s : State) (i : Instr) (code : StatusCode) :
    s.raise i code = { s with status := ⟨i.opcode, code⟩ } := rfl

/-! ## The parser's commands -/

/-- The fields no parse writes (R212, R215). -/
structure Channel.Kept (ch ch' : Channel) : Prop where
  inited : ch'.inited = ch.inited
  tail : ch'.tail = ch.tail
  cap : ch'.cap = ch.cap
  mask : ch'.mask = ch.mask
  txCnt : ch'.txCnt = ch.txCnt

theorem Channel.Kept.refl (ch : Channel) : ch.Kept ch := ⟨rfl, rfl, rfl, rfl, rfl⟩

theorem Channel.Kept.trans {a b c : Channel} (h1 : a.Kept b) (h2 : b.Kept c) : a.Kept c :=
  ⟨h2.1.trans h1.1, h2.2.trans h1.2, h2.3.trans h1.3, h2.4.trans h1.4, h2.5.trans h1.5⟩

theorem Channel.step_kept (env : ParseEnv) (ch : Channel) : ch.Kept (ch.step env).1 := by
  have succeed : ∀ (x : Channel) (s p : Word) (F : List Byte) (doff dlen : Nat) (hdr : Word)
      (dh : Option DataHeader), x.Kept (x.succeed env s p F doff dlen hdr dh) := by
    intro x s p F doff dlen hdr dh
    rw [Channel.succeed_eq]
    exact ⟨rfl, rfl, rfl, rfl, rfl⟩
  unfold Channel.step
  simp only
  split
  · unfold Channel.stepIdle
    split <;> exact ⟨rfl, rfl, rfl, rfl, rfl⟩
  · unfold Channel.stepHaveStart
    split <;> exact ⟨rfl, rfl, rfl, rfl, rfl⟩
  · unfold Channel.stepAccum
    split
    · exact ⟨rfl, rfl, rfl, rfl, rfl⟩
    · exact ⟨rfl, rfl, rfl, rfl, rfl⟩
    · exact Channel.Kept.trans (b := { ch with scan := ch.scan + 1, pstate := .validating })
        ⟨rfl, rfl, rfl, rfl, rfl⟩ (succeed _ _ _ _ _ _ _ _)
  · exact Channel.Kept.refl ch

theorem Channel.parseLoop_kept (env : ParseEnv) (fuel : Nat) :
    ∀ ch : Channel, ch.Kept (Channel.parseLoop env fuel ch).1 := by
  induction fuel with
  | zero => intro ch; exact Channel.Kept.refl ch
  | succ fuel ih =>
    intro ch
    have hk := Channel.step_kept env ch
    unfold Channel.parseLoop
    split
    · split
      · rename_i ch' he
        rw [he] at hk
        exact hk.trans (ih ch')
      · rename_i ch' tag he
        rw [he] at hk
        exact hk
    · exact Channel.Kept.refl ch

theorem Channel.parseCore_kept (env : ParseEnv) (ch : Channel) : ch.Kept (ch.parseCore env).1 := by
  have h := Channel.parseLoop_kept env ch.parseFuel { ch with pktValid := false }
  exact ⟨h.1, h.2, h.3, h.4, h.5⟩

/-- RXERR after a step: one more when the step rejects a candidate, and the same otherwise (R198, R199). -/
theorem Channel.step_rxErr (env : ParseEnv) (ch : Channel) :
    (ch.step env).1.rxErr = if (ch.step env).2 = .done .parseError then ch.rxErr + 1 else ch.rxErr := by
  unfold Channel.step
  simp only
  split
  · unfold Channel.stepIdle
    split <;> rfl
  · unfold Channel.stepHaveStart
    split <;> rfl
  · unfold Channel.stepAccum
    split
    · rfl
    · rfl
    · rename_i tag doff dlen hdr dh hv
      have hne : tag ≠ .parseError := by
        unfold Channel.verdict at hv
        split at hv
        · exact (frame_good hv).not_error
        · cases hv
      rw [Channel.succeed_eq, if_neg (by simpa using hne)]
  · rfl

/-- RXERR after the loop of PARSE_CORE. -/
theorem Channel.parseLoop_rxErr (env : ParseEnv) (fuel : Nat) : ∀ ch : Channel,
    (Channel.parseLoop env fuel ch).1.rxErr
      = if (Channel.parseLoop env fuel ch).2 = .parseError then ch.rxErr + 1 else ch.rxErr := by
  induction fuel with
  | zero => intro ch; rfl
  | succ fuel ih =>
    intro ch
    have hs := Channel.step_rxErr env ch
    unfold Channel.parseLoop
    split
    · split
      · rename_i ch' he
        rw [he, if_neg (by simp)] at hs
        simp only at hs
        rw [ih, hs]
      · rename_i ch' tag he
        rw [he] at hs
        simpa using hs
    · rfl

/-- RXERR after PARSE_CORE, from any state: it counts a PARSE_ERROR and nothing else (R181, R211). -/
theorem Channel.parseCore_rxErr (env : ParseEnv) (ch : Channel) :
    (ch.parseCore env).1.rxErr = if (ch.parseCore env).2 = .parseError then ch.rxErr + 1 else ch.rxErr :=
  Channel.parseLoop_rxErr env ch.parseFuel { ch with pktValid := false }

/-- PARSE_CORE returns the tag it keeps in LAST_TAG (R211). -/
theorem Channel.parseCore_tag (env : ParseEnv) (ch : Channel) : (ch.parseCore env).1.lastTag = (ch.parseCore env).2 := rfl

/-- With no byte to examine, PARSE_CORE returns NONE and writes PKT_VALID and LAST_TAG only (R212). -/
theorem Channel.parseCore_empty (env : ParseEnv) {ch : Channel} (h : ch.scan = ch.tail) :
    ch.parseCore env = ({ ch with pktValid := false, lastTag := .none }, .none) := by
  unfold Channel.parseCore Channel.parseFuel
  rw [Channel.parseLoop, if_neg (by simp [h])]

/-- PARSE on a ready channel (R212). -/
theorem runParse_ready {s : State} {c : BitVec 4} (h : channelReady s c) :
    runParse c s = ((s.setChan c ((s.chan c).parseCore (s.parseEnv c)).1).setRes 0
      ((s.chan c).parseCore (s.parseEnv c)).2.word).done (.parse c) := by
  unfold runParse
  rw [State.withChannel_ready h]

/-- PARSE_BYTE on a ready channel with room stores the byte (R213). -/
theorem runParseByte_stored {s : State} {c : BitVec 4} (h : channelReady s c) (b : Byte)
    (hf : (s.chan c).tail ≠ (s.chan c).cap) :
    runParseByte c b s =
      ((s.setChan c (((s.chan c).store [b]).parseCore (s.parseEnv c)).1).setRes 0
        (((s.chan c).store [b]).parseCore (s.parseEnv c)).2.word).setStatus (.parseByte c b) .ok := by
  unfold runParseByte
  rw [State.withChannel_ready h]
  simp only [decide_eq_false hf]
  rfl

/-- PARSE_BYTE on a full channel drops the byte and parses (R213). -/
theorem runParseByte_full {s : State} {c : BitVec 4} (h : channelReady s c) (b : Byte)
    (hf : (s.chan c).tail = (s.chan c).cap) :
    runParseByte c b s =
      ((s.setChan c ((s.chan c).parseCore (s.parseEnv c)).1).setRes 0
        ((s.chan c).parseCore (s.parseEnv c)).2.word).setStatus (.parseByte c b) .bufferFull := by
  unfold runParseByte
  rw [State.withChannel_ready h]
  simp only [decide_eq_true hf]
  rfl

/-- APPEND on a ready channel whose operands pass both checks (R146). -/
theorem runAppend_ready {s : State} {c : BitVec 4} (h : channelReady s c)
    (hd : (s.arg 0).toNat + (s.arg 1).toNat ≤ s.params.dmemSize)
    (hc : (s.chan c).tail.toNat + (s.arg 1).toNat ≤ (s.chan c).cap.toNat) :
    runAppend c s =
      let stored := (s.chan c).store (s.dmemRead (s.arg 0).toNat (s.arg 1).toNat)
      ((s.setChan c stored).setRes 0 (stored.cap - stored.tail)).done (.append c) := by
  unfold runAppend
  rw [State.withChannel_ready h]
  simp only [State.inDmem, decide_eq_true hd, if_true, if_neg (Nat.not_lt.2 hc)]

/-- FREE on a ready channel (R148). -/
theorem runFree_ready {s : State} {c : BitVec 4} (h : channelReady s c) :
    runFree c s =
      let freed := (s.chan c).freed (s.rbDraws c)
      (((s.setChan c freed.1).setRes 0 (freed.1.cap - freed.1.tail)).setRes 1 (if freed.2 then 1 else 0)).done
        (.free c) := by
  unfold runFree
  rw [State.withChannel_ready h]

/-! ## FREE's compaction (R147 to R149) -/

theorem Channel.overflowed_iff (ch : Channel) :
    ch.overflowed = true ↔ ch.tail = ch.cap ∧ ch.pstate ≠ .idle ∧ ch.scan = ch.tail := by
  simp [Channel.overflowed]

/-- FREE without a drop. -/
theorem Channel.freed_kept (draw : Nat → Byte) {ch : Channel}
    (h : (Channel.compact draw { ch with pktValid := false }).overflowed = false) :
    ch.freed draw = (Channel.compact draw { ch with pktValid := false }, false) := by
  rw [Channel.freed]
  simp only [h]
  rfl

/-- FREE with a drop. -/
theorem Channel.freed_dropped (draw : Nat → Byte) {ch : Channel}
    (h : (Channel.compact draw { ch with pktValid := false }).overflowed = true) :
    ch.freed draw = ((Channel.compact draw { ch with pktValid := false }).dropOverflow draw, true) := by
  rw [Channel.freed]
  simp only [h]
  rfl

/-- A ring-buffer byte after COMPACT (R147). -/
theorem Channel.byteAt_compact (draw : Nat → Byte) (ch : Channel) (k : Nat) :
    (Channel.compact draw ch).byteAt draw k =
      if k < ch.tail.toNat - ch.head.toNat then ch.byteAt draw (ch.head.toNat + k) else ch.byteAt draw k := by
  simp only [Channel.compact, Channel.byteAt]
  rw [Memory.get_putAll]
  simp only [bytesFrom_length, Nat.zero_le, true_and, Nat.zero_add, Nat.sub_zero]
  split
  · rename_i h
    rw [bytesFrom_getElem? _ _ _ _ h]
    rfl
  · rfl

end Sys2Proof.Machine
end

