-- ==== Sys2Proof/Laws/Invariant.lean ====
section
/-!
SUPPORT. How the machine's invariant passes through each shared operation: the channel operations keep
`ChannelInv`, and the writes of a channel, of DMEM and of the registers keep `Inv`.
-/

namespace Sys2Proof.Machine

open Sys2Proof.Safety

/-! ## Channel operations -/

/-- INIT establishes the invariant (R150). The ring-buffer bytes are the old ones. -/
theorem Channel.initialized_inv {p : Params} {draw : Nat → Byte} {ch : Channel} {cap : Word} (h1 : 1 ≤ cap.toNat)
    (h2 : cap.toNat ≤ p.capMax) (hw : ch.rb.wf = true) (hb : memBelow ch.rb p.capMax) :
    ChannelInv p draw (ch.initialized cap) := by
  refine ⟨h1, h2, ?_, ?_, ?_, fun _ => ⟨rfl, rfl⟩, ?_, ?_, ?_, ?_, ?_, hw, hb⟩
  all_goals simp [Channel.initialized]

/-- A change of the mask keeps the invariant. -/
theorem Channel.inv_mask {p : Params} {draw : Nat → Byte} {ch : Channel} (h : ChannelInv p draw ch) (m : BitVec 7) :
    ChannelInv p draw { ch with mask := m } :=
  ⟨h.1, h.2, h.3, h.4, h.5, h.6, h.7, h.8, h.9, h.10, h.11, h.12, h.13⟩

/-- A count of a packet sent keeps the invariant. -/
theorem Channel.inv_txCnt {p : Params} {draw : Nat → Byte} {ch : Channel} (h : ChannelInv p draw ch) (n : Word) :
    ChannelInv p draw { ch with txCnt := n } :=
  ⟨h.1, h.2, h.3, h.4, h.5, h.6, h.7, h.8, h.9, h.10, h.11, h.12, h.13⟩

/-- `tail` after bytes are stored. -/
theorem Channel.store_tail {p : Params} {draw : Nat → Byte} {ch : Channel} (hp : p.lawful = true)
    (hi : ChannelInv p draw ch) {B : List Byte} (hc : ch.tail.toNat + B.length ≤ ch.cap.toNat) :
    (ch.store B).tail.toNat = ch.tail.toNat + B.length := by
  have := Params.lawful_capMax hp
  have := hi.cap_le
  simp only [Channel.store]
  rw [BitVec.toNat_add, BitVec.toNat_ofNat]
  omega

/-- A byte below `tail` is untouched by a store. -/
theorem Channel.byteAt_store_below (draw : Nat → Byte) (ch : Channel) (B : List Byte) {k : Nat}
    (hk : k < ch.tail.toNat) : (ch.store B).byteAt draw k = ch.byteAt draw k := by
  simp only [Channel.store, Channel.byteAt]
  rw [Memory.get_putAll, if_neg (by omega)]

/-- Bytes stored within the capacity keep the invariant (R150). -/
theorem Channel.store_inv {p : Params} {draw : Nat → Byte} {ch : Channel} (hp : p.lawful = true)
    (hi : ChannelInv p draw ch) {B : List Byte} (hc : ch.tail.toNat + B.length ≤ ch.cap.toNat) :
    ChannelInv p draw (ch.store B) := by
  have ht := Channel.store_tail hp hi hc
  have hcap := hi.cap_le
  refine ⟨hi.cap_pos, hi.cap_le, hi.head_le_scan, ?_, ?_, hi.idle, hi.have_start, hi.accum, ?_,
    hi.not_validating, ?_, Memory.wf_putAll B hi.rb_wf _, Memory.below_putAll B hi.rb_below (by omega)⟩
  · rw [ht]
    exact le_trans hi.scan_le_tail (Nat.le_add_right _ _)
  · rw [ht]
    exact hc
  · intro hs hu
    obtain ⟨a, b⟩ := hi.accum_ublox hs hu
    have hle := hi.scan_le_tail
    refine ⟨a, ?_⟩
    show (ch.store B).byteAt draw (ch.head.toNat + 1) = _
    rw [Channel.byteAt_store_below draw ch B (by omega)]
    exact b
  · intro k hk
    have hne : ch.pstate ≠ .idle := fun h => by rw [show (ch.store B).cand = ch.cand from rfl, (hi.idle h).2] at hk; cases hk
    have hlt : ch.head.toNat < ch.tail.toNat := by
      have hle := hi.scan_le_tail
      cases hp' : ch.pstate with
      | idle => exact absurd hp' hne
      | haveStart => have := (hi.have_start hp').2; omega
      | accum => have := (hi.accum hp').2; omega
      | validating => exact absurd hp' hi.not_validating
    show (ch.store B).byteAt draw ch.head.toNat = _
    rw [Channel.byteAt_store_below draw ch B hlt]
    exact hi.start_byte k hk

/-- COMPACT keeps the invariant (R150). -/
theorem Channel.compact_inv {p : Params} {draw : Nat → Byte} {ch : Channel} (hi : ChannelInv p draw ch) :
    ChannelInv p draw (Channel.compact draw ch) := by
  obtain ⟨h1, h2, h3, h4, h5, h6, h7, h8, h9, h10, h11, h12, h13⟩ := hi
  have es : (ch.scan - ch.head).toNat = ch.scan.toNat - ch.head.toNat := BitVec.toNat_sub_of_le (BitVec.le_def.2 h3)
  have et : (ch.tail - ch.head).toNat = ch.tail.toNat - ch.head.toNat :=
    BitVec.toNat_sub_of_le (BitVec.le_def.2 (le_trans h3 h4))
  have e0 : (0 : Word).toNat = 0 := rfl
  have hbyte := Channel.byteAt_compact draw ch
  refine ⟨h1, h2, ?_, ?_, ?_, ?_, ?_, ?_, ?_, h10, ?_, Memory.wf_putAll _ h12 _, Memory.below_putAll _ h13 ?_⟩
  · show (0 : Word).toNat ≤ _
    omega
  · show (ch.scan - ch.head).toNat ≤ (ch.tail - ch.head).toNat
    omega
  · show (ch.tail - ch.head).toNat ≤ ch.cap.toNat
    omega
  · intro h
    obtain ⟨a, b⟩ := h6 h
    exact ⟨by simp only [Channel.compact, a, BitVec.sub_self]; rfl, b⟩
  · intro h
    obtain ⟨a, b⟩ := h7 h
    refine ⟨a, ?_⟩
    show (ch.scan - ch.head).toNat = (0 : Word).toNat + 1
    omega
  · intro h
    obtain ⟨a, b⟩ := h8 h
    refine ⟨a, ?_⟩
    show (0 : Word).toNat < (ch.scan - ch.head).toNat
    omega
  · intro h hu
    obtain ⟨a, b⟩ := h9 h hu
    refine ⟨?_, ?_⟩
    · show (0 : Word).toNat + 2 ≤ (ch.scan - ch.head).toNat
      omega
    · show (Channel.compact draw ch).byteAt draw ((0 : Word).toNat + 1) = _
      rw [hbyte, e0, if_pos (by omega)]
      simpa using b
  · intro k hk
    have hk' : ch.cand = some k := hk
    have hne : ch.head.toNat < ch.tail.toNat := by
      cases hp' : ch.pstate with
      | idle => rw [(h6 hp').2] at hk'; cases hk'
      | haveStart => have := (h7 hp').2; omega
      | accum => have := (h8 hp').2; omega
      | validating => exact absurd hp' h10
    show (Channel.compact draw ch).byteAt draw (0 : Word).toNat = _
    rw [hbyte, e0, if_pos (by omega)]
    simpa using h11 k hk'
  · simp only [bytesFrom_length]
    omega

/-- FREE keeps the invariant (R150). -/
theorem Channel.freed_inv {p : Params} {draw : Nat → Byte} {ch : Channel} (hi : ChannelInv p draw ch) :
    ChannelInv p draw (ch.freed draw).1 := by
  have hc := Channel.compact_inv (Channel.inv_pktValid hi false)
  cases ho : (Channel.compact draw { ch with pktValid := false }).overflowed with
  | false =>
    rw [Channel.freed_kept draw ho]
    exact hc
  | true =>
    rw [Channel.freed_dropped draw ho]
    obtain ⟨h1, h2, h3, h4, h5, h6, h7, h8, h9, h10, h11, h12, h13⟩ := hc
    have e1 : (1 : Word).toNat = 1 := rfl
    obtain ⟨o1, o2, o3⟩ := (Channel.overflowed_iff _).1 ho
    refine Channel.compact_inv ⟨h1, h2, le_refl _, ?_, h5, fun _ => ⟨rfl, rfl⟩, ?_, ?_, ?_, by simp, ?_, h12, h13⟩
    · rw [o1]
      exact h1
    all_goals simp

end Sys2Proof.Machine

namespace Sys2Proof.Safety

open Sys2Proof.Machine

/-! ## States -/

/-- The invariant reads the parameters, DMEM, the channels and the memory draws only. -/
theorem Inv.of_same {s t : State} (h : Inv s) (hp : t.params = s.params) (hd : t.dmem = s.dmem)
    (hc : t.chans = s.chans) (he : t.epoch = s.epoch) : Inv t := by
  have hchan : ∀ c, t.chan c = s.chan c := fun c => by simp only [State.chan, hc]
  have hdraw : ∀ c, t.rbDraws c = s.rbDraws c := fun c => by simp only [State.rbDraws, he]
  refine ⟨by rw [hp]; exact h.1, by rw [hd]; exact h.2, by rw [hd, hp]; exact h.3, ?_, ?_, ?_⟩
  · intro c hi
    rw [hchan] at hi ⊢
    rw [hp, hdraw]
    exact h.4 c hi
  · intro c hi
    rw [hchan] at hi ⊢
    exact h.5 c hi
  · intro c hi
    rw [hp] at hi
    rw [hchan]
    exact h.6 c hi

/-- A write of an existing channel keeps the invariant, if the new channel is initialized and meets its own. -/
theorem Inv.setChan {s : State} (h : Inv s) {c : BitVec 4} {ch : Channel} (hc : c.toNat < s.params.nch)
    (hn : ch.inited = true) (hi : ChannelInv s.params (s.rbDraws c) ch) : Inv (s.setChan c ch) := by
  refine ⟨h.1, h.2, h.3, ?_, ?_, ?_⟩
  · intro d hd
    by_cases hcd : c = d
    · subst hcd
      rw [State.chan_setChan_self]
      exact hi
    · rw [State.chan_setChan_ne _ _ hcd] at hd ⊢
      exact h.4 d hd
  · intro d hd
    by_cases hcd : c = d
    · subst hcd
      rw [State.chan_setChan_self, hn] at hd
      cases hd
    · rw [State.chan_setChan_ne _ _ hcd] at hd ⊢
      exact h.5 d hd
  · intro d hd
    have hcd : c ≠ d := by
      rintro rfl
      simp only [State.setChan_params] at hd
      omega
    rw [State.chan_setChan_ne _ _ hcd]
    exact h.6 d hd

/-- After a step that goes on, the channel is still ready and keeps the invariant, and PARSE is PARSE again
(42_parser.md R196, R211, R212). -/
theorem exec_parse_step {s : State} {c : BitVec 4} {ch' : Channel} (hi : Inv s) (hr : channelReady s c)
    (hs : (s.chan c).scan.toNat < (s.chan c).tail.toNat) (h : (s.chan c).step (s.parseEnv c) = (ch', .cont)) :
    Inv (s.setChan c ch') ∧ channelReady (s.setChan c ch') c ∧
      exec (.parse c) s = exec (.parse c) (s.setChan c ch') := by
  have hci := hi.channel c hr.2
  have hon : StepOn s.params (s.rbDraws c) (s.chan c) ch' := by
    rcases Channel.step_cases (env := s.parseEnv c) hi.params_lawful hci hs with ⟨x, he, hon⟩ | ⟨x, tag, he, _⟩ <;>
      rw [h] at he <;> cases he
    exact hon
  have hsc := hon.scanned
  unfold Channel.Scanned at hsc
  have hin : ch'.inited = true := by rw [hsc]; exact hr.2
  have hr' : channelReady (s.setChan c ch') c := ⟨hr.1, by rw [State.chan_setChan_self]; exact hin⟩
  refine ⟨hi.setChan hr.1 hin hon.inv, hr', ?_⟩
  rw [exec_parse, exec_parse, runParse_ready hr, runParse_ready hr',
    Channel.parseCore_step (env := s.parseEnv c) hi.params_lawful hci hs h]
  simp only [State.chan_setChan_self, State.setChan_setChan]
  rfl

/-- A DMEM write inside DMEM keeps the invariant. -/
theorem Inv.dmemWrite {s : State} (h : Inv s) {a : Nat} {B : List Byte} (hb : a + B.length ≤ s.params.dmemSize) :
    Inv (s.dmemWrite a B) :=
  ⟨h.1, Memory.wf_putAll B h.2 a, Memory.below_putAll B h.3 hb, h.4, h.5, h.6⟩

end Sys2Proof.Safety
end

