-- ==== Sys2Proof/Laws/Codec.lean ====
section
/-!
SUPPORT. The laws of the escape set (00_scope.md R8), of escaping, of the frame an encoder builds, and of the two
operations DECODE_BYTE shares.
-/

namespace Sys2Proof.Machine

open Sys2Proof.Safety

/-! ## The escape set -/

theorem inEscSet_iff (p : Params) (b : Byte) : inEscSet p b = true ↔ b ∈ p.escSet := by
  simp [inEscSet]

/-- R8 law (1): the escape key is protected. -/
theorem Params.lawful_escKey {p : Params} (h : p.lawful = true) : inEscSet p p.escKey = true := by
  simp only [Params.lawful, Params.escLaw1, Bool.and_eq_true] at h
  exact h.1.2.1.1

/-- R8 law (1): the stop byte is protected. -/
theorem Params.lawful_stop {p : Params} (h : p.lawful = true) : inEscSet p Config.stop = true := by
  simp only [Params.lawful, Params.escLaw1, Bool.and_eq_true] at h
  exact h.1.2.1.2

/-- R8 law (2): the complement of a protected byte is not protected. -/
theorem Params.lawful_complement {p : Params} (h : p.lawful = true) {x : Byte} (hx : inEscSet p x = true) :
    inEscSet p (~~~x) = false := by
  simp only [Params.lawful, Params.escLaw2, Bool.and_eq_true, List.all_eq_true] at h
  have := h.2 x ((inEscSet_iff p x).1 hx)
  simpa [inEscSet] using this

theorem Params.lawful_maxBody {p : Params} (h : p.lawful = true) : p.maxBody ≤ 65535 := by
  simp only [Params.lawful, Params.maxBodyOk, Bool.and_eq_true, decide_eq_true_eq] at h
  omega

theorem Params.lawful_dmemSize {p : Params} (h : p.lawful = true) : p.dmemSize ≤ 1048576 := by
  simp only [Params.lawful, Params.dmemSizeOk, Bool.and_eq_true, decide_eq_true_eq] at h
  omega

/-! ## Escaping -/

@[simp] theorem escapeAll_nil (p : Params) (e : Bool) : escapeAll p e [] = [] := rfl

theorem escapeAll_cons (p : Params) (e : Bool) (y : Byte) (Y : List Byte) :
    escapeAll p e (y :: Y) = escapeByte p e y ++ escapeAll p e Y := by
  simp [escapeAll]

theorem escapeAll_append (p : Params) (e : Bool) (X Y : List Byte) :
    escapeAll p e (X ++ Y) = escapeAll p e X ++ escapeAll p e Y := by
  simp [escapeAll]

/-- A protected byte is sent as a pair (R228). -/
theorem escapeByte_protected {p : Params} {y : Byte} (h : inEscSet p y = true) :
    escapeByte p true y = [p.escKey, ~~~y] := by
  simp [escapeByte, h]

/-- Any other byte is sent as it is (R228). -/
theorem escapeByte_plain {p : Params} {y : Byte} (h : inEscSet p y = false) (e : Bool) : escapeByte p e y = [y] := by
  simp [escapeByte, h]

/-- With escaping off nothing changes (R228). -/
theorem escapeAll_off (p : Params) (Y : List Byte) : escapeAll p false Y = Y := by
  induction Y with
  | nil => rfl
  | cons y Y ih => rw [escapeAll_cons, ih]; rfl

/-- The length of an escaped string (R227). -/
theorem escapeAll_length (p : Params) (Y : List Byte) :
    Y.length ≤ (escapeAll p true Y).length ∧ (escapeAll p true Y).length ≤ 2 * Y.length := by
  induction Y with
  | nil => simp
  | cons y Y ih =>
    rw [escapeAll_cons]
    cases h : inEscSet p y with
    | true => rw [escapeByte_protected h]; simp; omega
    | false => rw [escapeByte_plain h]; simp; omega

/-- What the bytes of an escaped string are: a protected byte among them is the escape key (R225). -/
theorem mem_escapeAll {p : Params} (hp : p.lawful = true) {Y : List Byte} {x : Byte}
    (hx : x ∈ escapeAll p true Y) (hs : inEscSet p x = true) : x = p.escKey := by
  induction Y with
  | nil => cases hx
  | cons y Y ih =>
    rw [escapeAll_cons, List.mem_append] at hx
    rcases hx with hx | hx
    · cases h : inEscSet p y with
      | true =>
        rw [escapeByte_protected h] at hx
        simp only [List.mem_cons, List.not_mem_nil, or_false] at hx
        rcases hx with rfl | rfl
        · rfl
        · rw [Params.lawful_complement hp h] at hs
          cases hs
      | false =>
        rw [escapeByte_plain h, List.mem_singleton] at hx
        subst hx
        rw [h] at hs
        cases hs
    · exact ih hx

/-- The escape key is not the complement of a protected byte, nor a literal. -/
theorem Params.lawful_key_ne {p : Params} (hp : p.lawful = true) {x : Byte} (h : inEscSet p x = false) :
    x ≠ p.escKey := by
  rintro rfl
  rw [Params.lawful_escKey hp] at h
  cases h

/-- Un-escaping passes over the escape of one byte. -/
theorem unescape_escapeByte {p : Params} (hp : p.lawful = true) (y : Byte) (rest : List Byte) :
    unescape p (escapeByte p true y ++ rest) = (unescape p rest).map (fun r => y :: r) := by
  cases h : inEscSet p y with
  | true =>
    rw [escapeByte_protected h]
    have := unescape_pair p (~~~y) rest (by simpa using h)
    simpa using this
  | false =>
    rw [escapeByte_plain h]
    exact unescape_literal p y rest (Params.lawful_key_ne hp h) h

/-! ## Frames -/

/-- The length of a frame (R227). -/
theorem frameBytes_length (p : Params) (e : Bool) (start pid counter flags : Byte) (P : List Byte) (ck : Word) :
    (frameBytes p e start pid counter flags P ck).length
      = 2 + (escapeAll p e ([pid, counter, flags] ++ P ++ [byteOf ck 2, byteOf ck 1, byteOf ck 0])).length := by
  simp only [frameBytes, List.length_cons, List.length_append, List.length_nil]
  omega

/-- A frame fits its worst case (R231). -/
theorem frameBytes_length_le (p : Params) (e : Bool) (start pid counter flags : Byte) (P : List Byte) (ck : Word) :
    (frameBytes p e start pid counter flags P ck).length ≤ worstSize e P.length := by
  rw [frameBytes_length]
  cases e with
  | true =>
    have := (escapeAll_length p ([pid, counter, flags] ++ P ++ [byteOf ck 2, byteOf ck 1, byteOf ck 0])).2
    simp only [List.length_append, List.length_cons, List.length_nil, worstSize_eq, if_true] at this ⊢
    omega
  | false =>
    rw [escapeAll_off]
    simp [worstSize_eq]
    omega

/-! ## ENCODE and DECODE where their checks pass -/

theorem State.inDmem_true {s : State} {a n : Nat} (h : a + n ≤ s.params.dmemSize) : s.inDmem a n = true := by
  simp [State.inDmem, h]

theorem State.inDmem_false {s : State} {a n : Nat} (h : s.params.dmemSize < a + n) : s.inDmem a n = false := by
  simp [State.inDmem, h]

/-- ENCODE on a ready channel whose operands pass every check (R232). -/
theorem runEncode_ready {s : State} {c : BitVec 4} (hr : channelReady s c) (ver : Version)
    (hn : (s.arg 1).toNat ≤ s.params.maxBody) (hc : worstSize s.ctrl.encEn (s.arg 1).toNat ≤ (s.arg 3).toNat)
    (hs : (s.arg 0).toNat + (s.arg 1).toNat ≤ s.params.dmemSize)
    (hd : (s.arg 2).toNat + (s.arg 3).toNat ≤ s.params.dmemSize) :
    runEncode c ver s =
      (((s.dmemWrite (s.arg 2).toNat (s.encoded ver)).setRes 0 (BitVec.ofNat 32 (s.encoded ver).length)).setChan c
        { s.chan c with txCnt := (s.chan c).txCnt + 1 }).done (.encode c ver) := by
  unfold runEncode
  rw [State.withChannel_ready hr]
  have h1 : ¬ (s.params.maxBody < (s.arg 1).toNat ∨ (s.arg 3).toNat < worstSize s.ctrl.encEn (s.arg 1).toNat) := by
    omega
  simp only [if_neg h1, State.inDmem_true hs, State.inDmem_true hd]
  rfl

/-- The frame ENCODE writes fits its worst case (R227, R231). -/
theorem State.encoded_length_le (s : State) (ver : Version) :
    (s.encoded ver).length ≤ worstSize s.ctrl.encEn (s.arg 1).toNat := by
  unfold State.encoded
  refine le_trans (frameBytes_length_le ..) ?_
  simp [State.dmemRead]

/-- The framing check of DECODE, read through DMEM (R238). -/
theorem framed_dmemRead (s : State) (a n : Nat) :
    framed (s.dmemRead a n) = true ↔
      2 ≤ n ∧ (s.dmemByte a = 0xFF ∨ s.dmemByte a = 0xEF) ∧ s.dmemByte (a + n - 1) = 0xFE := by
  simp only [framed, State.dmemRead, bytesFrom_length, decide_eq_true_eq]
  refine and_congr_right fun h => ?_
  rw [at'_bytesFrom _ _ _ _ (by omega), at'_bytesFrom _ _ _ _ (by omega)]
  have e : a + (n - 1) = a + n - 1 := by omega
  rw [e]
  rfl

/-- The bytes between the start and the stop of a range. -/
theorem slice_bytesFrom (rd : Nat → Byte) (a n : Nat) (h : 2 ≤ n) :
    slice (bytesFrom rd a n) 1 (n - 1) = bytesFrom rd (a + 1) (n - 2) := by
  apply List.ext_getElem?
  intro i
  simp only [slice]
  rw [List.getElem?_drop]
  by_cases hi : i < n - 2
  · rw [List.getElem?_take_of_lt (by omega), bytesFrom_getElem? _ _ _ _ (by omega), bytesFrom_getElem? _ _ _ _ hi]
    congr 2
    omega
  · rw [List.getElem?_eq_none (by simp; omega), List.getElem?_eq_none (by simp; omega)]

/-- What DECODE unpacks from DMEM, where the framing holds (R238). -/
theorem unpackIsb_dmemRead (s : State) (a n : Nat) (h : 2 ≤ n) :
    unpackIsb s.params (s.dmemRead a n) =
      match unescape s.params (s.dmemRead (a + 1) (n - 2)) with
      | none => .malformed
      | some R =>
        if R.length < 6 then .malformed
        else if s.params.maxBody < R.length - 6 then .tooLong
        else .frame (splitIsb (s.dmemByte a) R) := by
  rw [unpackIsb_eq]
  have h0 : at' (s.dmemRead a n) 0 = s.dmemByte a := at'_bytesFrom _ _ _ _ (by omega)
  have hs : slice (s.dmemRead a n) 1 ((s.dmemRead a n).length - 1) = s.dmemRead (a + 1) (n - 2) := by
    simp only [State.dmemRead, bytesFrom_length]
    exact slice_bytesFrom _ _ _ h
  cases hu : unescape s.params (s.dmemRead (a + 1) (n - 2)) <;> simp only [hs, h0, hu]

/-- DECODE where both ranges lie in DMEM (R238). -/
theorem runDecode_inDmem {s : State} (h1 : (s.arg 0).toNat + (s.arg 1).toNat ≤ s.params.dmemSize)
    (h2 : (s.arg 2).toNat + (s.arg 3).toNat ≤ s.params.dmemSize) :
    runDecode s =
      if framed (s.dmemRead (s.arg 0).toNat (s.arg 1).toNat) then
        match unpackIsb s.params (s.dmemRead (s.arg 0).toNat (s.arg 1).toNat) with
        | .malformed => s.raise .decode .malformed
        | .tooLong => s.raise .decode .malformed
        | .frame fr => decodeUnpacked s fr
      else s.raise .decode .malformed := by
  unfold runDecode
  rw [State.inDmem_true h1, State.inDmem_true h2]
  rfl

/-! ## DECODE_BYTE -/

/-- DECODE_BYTE with both cursors in DMEM (R240). -/
theorem runDecodeByte_inDmem {s : State} (h1 : (s.arg 0).toNat + 1 ≤ s.params.dmemSize)
    (h2 : (s.arg 1).toNat + 1 ≤ s.params.dmemSize) :
    runDecodeByte s =
      let c := s.dmemByte (s.arg 0).toNat
      if escpOf (s.arg 3) then
        if inEscSet s.params (~~~c) then (s.emitByte (~~~c)).done .decodeByte else s.rejectByte
      else if c = s.params.escKey then
        ((s.consumeByte true (laneOf (s.arg 3))).setRes 0 0).done .decodeByte
      else if inEscSet s.params c then s.rejectByte
      else (s.emitByte c).done .decodeByte := by
  unfold runDecodeByte
  rw [State.inDmem_true h1, State.inDmem_true h2]
  rfl

end Sys2Proof.Machine
end

