-- ==== Sys2Proof/Laws/Decode.lean ====
section
/-!
SUPPORT. The fields of an encoded command.
-/

namespace Sys2Proof

/-- The opcode byte of a command's word (R110, R118). -/
theorem wordOpc_encode (i : Instr) : wordOpc (encode i) = i.opcode := BitVec.extractLsb'_append_eq_left

/-- The operand bits of a command's word (R111). -/
theorem operands_encode (i : Instr) : (encode i).extractLsb' 0 24 = operandBits i := BitVec.extractLsb'_append_eq_right

/-- A field of the operand bits is a field of the word. -/
theorem field_encode (i : Instr) (start len : Nat) (h : start + len ≤ 24) :
    (encode i).extractLsb' start len = (operandBits i).extractLsb' start len := by
  rw [← operands_encode]
  apply BitVec.eq_of_getLsbD_eq
  intro k hk
  have : start + k < 24 := by omega
  simp [hk, this]

end Sys2Proof
end

