-- ==== Sys2Proof/Laws/PerInstr.lean ====
section
/-!
SUPPORT. One family of facts about each command as syntax: its word carries its opcode in bits [31:24], and its
operands fit their fields (30_encoding.md R110, R111, R118).
-/

/-- The word of the command carries the command's opcode byte, and every operand fits its field. -/
def Sys2Proof.Laws.OpcodeByte.Statement (i : Sys2Proof.Instr) : Prop :=
  Sys2Proof.wordOpc (Sys2Proof.encode i) = i.opcode ∧ i.wf = true

namespace Sys2Proof.Laws

open Sys2Proof

theorem OpcodeByte.nop : OpcodeByte.Statement .nop := ⟨wordOpc_encode _, Instr.wf_always _⟩
theorem OpcodeByte.init (ch : BitVec 4) : OpcodeByte.Statement (.init ch) := ⟨wordOpc_encode _, Instr.wf_always _⟩
theorem OpcodeByte.setMask (ch : BitVec 4) (mask : BitVec 7) : OpcodeByte.Statement (.setMask ch mask) :=
  ⟨wordOpc_encode _, Instr.wf_always _⟩
theorem OpcodeByte.append (ch : BitVec 4) : OpcodeByte.Statement (.append ch) := ⟨wordOpc_encode _, Instr.wf_always _⟩
theorem OpcodeByte.free (ch : BitVec 4) : OpcodeByte.Statement (.free ch) := ⟨wordOpc_encode _, Instr.wf_always _⟩
theorem OpcodeByte.parseByte (ch : BitVec 4) (byte : Byte) : OpcodeByte.Statement (.parseByte ch byte) :=
  ⟨wordOpc_encode _, Instr.wf_always _⟩
theorem OpcodeByte.parse (ch : BitVec 4) : OpcodeByte.Statement (.parse ch) := ⟨wordOpc_encode _, Instr.wf_always _⟩
theorem OpcodeByte.cksum : OpcodeByte.Statement .cksum := ⟨wordOpc_encode _, Instr.wf_always _⟩
theorem OpcodeByte.crc24 : OpcodeByte.Statement .crc24 := ⟨wordOpc_encode _, Instr.wf_always _⟩
theorem OpcodeByte.getbits : OpcodeByte.Statement .getbits := ⟨wordOpc_encode _, Instr.wf_always _⟩
theorem OpcodeByte.encode (ch : BitVec 4) (ver : Version) : OpcodeByte.Statement (.encode ch ver) :=
  ⟨wordOpc_encode _, Instr.wf_always _⟩
theorem OpcodeByte.decode : OpcodeByte.Statement .decode := ⟨wordOpc_encode _, Instr.wf_always _⟩
theorem OpcodeByte.decodeByte : OpcodeByte.Statement .decodeByte := ⟨wordOpc_encode _, Instr.wf_always _⟩
theorem OpcodeByte.decodeFooter : OpcodeByte.Statement .decodeFooter := ⟨wordOpc_encode _, Instr.wf_always _⟩
theorem OpcodeByte.encEnable (b : Bool) : OpcodeByte.Statement (.encEnable b) := ⟨wordOpc_encode _, Instr.wf_always _⟩
theorem OpcodeByte.setHostOrder (b : Bool) : OpcodeByte.Statement (.setHostOrder b) :=
  ⟨wordOpc_encode _, Instr.wf_always _⟩

end Sys2Proof.Laws
end

