-- ==== Sys2Proof/Laws/Registers.lean ====
section
/-!
SUPPORT. What the register map and the windows of the host address map answer, each said once, and how a step serves
the first pending operation.
-/

namespace Sys2Proof.Machine

/-- A register at or above the first channel bank (10_state.md R41). -/
theorem State.register_high (s : State) {off : Nat} (h : 0x100 ≤ off) : s.register off =
    if (off - 0x100) / 0x40 < s.params.nch then
      (s.chan (BitVec.ofNat 4 ((off - 0x100) / 0x40))).bankRegister ((off - 0x100) % 0x40)
    else 0 := by
  have ha : argAt off = none := by
    rw [argAt, List.find?_eq_none]
    intro i _
    have := i.isLt
    simp only [argOffset, beq_iff_eq]
    omega
  have hr : resAt off = none := by
    rw [resAt, List.find?_eq_none]
    intro i _
    have := i.isLt
    simp only [resOffset, beq_iff_eq]
    omega
  unfold State.register
  split <;> first | omega | skip
  rw [ha, hr]
  simp only [h, true_and]

/-- The bank register of channel `c` at bank offset `k` (10_state.md R30). -/
theorem State.register_bank (s : State) {c : BitVec 4} (hc : c.toNat < s.params.nch) {k : Nat} (hk : k < 0x40) :
    s.register (0x100 + 0x40 * c.toNat + k) = (s.chan c).bankRegister k := by
  have h1 : (0x100 + 0x40 * c.toNat + k - 0x100) / 0x40 = c.toNat := by omega
  have h2 : (0x100 + 0x40 * c.toNat + k - 0x100) % 0x40 = k := by omega
  rw [State.register_high s (by omega), h1, h2, if_pos hc, BitVec.ofNat_toNat, BitVec.setWidth_eq]

/-- The address of byte `k` of an access. -/
theorem accessAddr_ofNat {a k : Nat} (h : a < 2 ^ 32) : accessAddr (BitVec.ofNat 32 a) k = a + k := by
  simp only [accessAddr, BitVec.toNat_ofNat]
  omega

/-- An access above the register space. -/
theorem touchesRegisters_above {a : Nat} {w : Width} (h1 : 0x1000 ≤ a) (h2 : a < 2 ^ 32) :
    touchesRegisters (BitVec.ofNat 32 a) w = false := by
  rw [touchesRegisters, List.any_eq_false]
  intro k _
  have h : ¬ accessAddr (BitVec.ofNat 32 a) k < registerSpaceEnd := by
    rw [accessAddr_ofNat h2, registerSpaceEnd]
    omega
  simpa using h

/-- An access that starts in the register space. -/
theorem touchesRegisters_below {addr : Word} {w : Width} (h : addr.toNat < 0x1000) : touchesRegisters addr w = true := by
  have hw : 0 < w.count := by cases w <;> decide
  rw [touchesRegisters, List.any_eq_true]
  refine ⟨0, List.mem_range.2 hw, ?_⟩
  simpa [accessAddr, registerSpaceEnd] using h

/-- A byte of the DMEM window (20_memory.md R84). -/
theorem State.windowByte_dmem (s : State) {o : Nat} (hw : o < 0x00100000) :
    s.windowByte (0x00100000 + o) = if o < s.params.dmemSize then s.dmemByte o else 0 := by
  unfold State.windowByte
  rw [if_pos (by simp only [dmemWindow, windowSize]; omega)]
  have e : 0x00100000 + o - dmemWindow = o := by simp only [dmemWindow]; omega
  rw [e]

/-- A write of a byte of the DMEM window (20_memory.md R84). -/
theorem State.windowWriteByte_dmem (s : State) {o : Nat} (hw : o < 0x00100000) (v : Byte) :
    s.windowWriteByte (0x00100000 + o) v = if o < s.params.dmemSize then s.dmemWrite o [v] else s := by
  unfold State.windowWriteByte
  have e : 0x00100000 + o - dmemWindow = o := by simp only [dmemWindow]; omega
  have h1 : dmemWindow ≤ 0x00100000 + o := by simp only [dmemWindow]; omega
  have h2 : 0x00100000 + o < dmemWindow + windowSize := by simp only [dmemWindow, windowSize]; omega
  simp only [e, h1, h2, true_and]

/-- A byte of a ring buffer's window (20_memory.md R85). -/
theorem State.windowByte_rb (s : State) (c : BitVec 4) {i : Nat} (hi : i < 0x00100000) :
    s.windowByte (0x01000000 + 0x00100000 * c.toNat + i)
      = if c.toNat < s.params.nch ∧ i < (s.chan c).cap.toNat then s.rbByte c i else 0 := by
  have hc16 := c.isLt
  have h1 : (0x01000000 + 0x00100000 * c.toNat + i - rbWindow) / windowSize = c.toNat := by
    simp only [rbWindow, windowSize]; omega
  have h2 : (0x01000000 + 0x00100000 * c.toNat + i - rbWindow) % windowSize = i := by
    simp only [rbWindow, windowSize]; omega
  unfold State.windowByte
  rw [if_neg (by simp only [dmemWindow, windowSize]; omega), if_pos (by simp only [rbWindow, windowSize]; omega)]
  simp only [h1, h2, BitVec.ofNat_toNat, BitVec.setWidth_eq]

/-- The bytes one byte write at a time leaves: what the first `n` bytes of a window write do (20_memory.md R84). -/
theorem State.windowWrite_prefix (s : State) (v : Word) {o : Nat} (n : Nat) (hw : o + n ≤ 0x00100000) :
    let t := (List.range n).foldl (fun t k => t.windowWriteByte (0x00100000 + o + k) (byteOf v k)) s
    t = { s with dmem := t.dmem } ∧
      ∀ a, t.dmemByte a = if o ≤ a ∧ a < o + n ∧ a < s.params.dmemSize then byteOf v (a - o) else s.dmemByte a := by
  induction n with
  | zero =>
    refine ⟨rfl, fun a => ?_⟩
    rw [if_neg (by omega)]
    rfl
  | succ n ih =>
    obtain ⟨h1, h2⟩ := ih (by omega)
    simp only [List.range_succ, List.foldl_append, List.foldl_cons, List.foldl_nil] at h1 h2 ⊢
    generalize (List.range n).foldl (fun t k => t.windowWriteByte (0x00100000 + o + k) (byteOf v k)) s = t at h1 h2 ⊢
    have hp : t.params = s.params := by rw [h1]
    rw [Nat.add_assoc, State.windowWriteByte_dmem t (by omega), hp]
    split
    · rename_i hlt
      refine ⟨by rw [h1]; rfl, fun a => ?_⟩
      rw [State.dmemByte_dmemWrite]
      simp only [List.length_cons, List.length_nil]
      by_cases ha : a = o + n
      · subst ha
        rw [if_pos (by omega), if_pos (by omega)]
        simp
      · rw [if_neg (by omega), h2]
        refine if_congr (by omega) rfl rfl
    · refine ⟨h1, fun a => ?_⟩
      rw [h2]
      refine if_congr (by omega) rfl rfl

/-- Everything a write inside the DMEM window can do (20_memory.md R84). -/
theorem State.windowWrite_dmem (s : State) (w : Width) (v : Word) {o : Nat} (hw : o + w.count ≤ 0x00100000) :
    let t := s.windowWrite (BitVec.ofNat 32 (0x00100000 + o)) w v
    t = { s with dmem := t.dmem } ∧
      ∀ a, t.dmemByte a
        = if o ≤ a ∧ a < o + w.count ∧ a < s.params.dmemSize then byteOf v (a - o) else s.dmemByte a := by
  have h : ∀ k, accessAddr (BitVec.ofNat 32 (0x00100000 + o)) k = 0x00100000 + o + k := by
    intro k
    have : 0 < w.count := by cases w <;> decide
    exact accessAddr_ofNat (by omega)
  simp only [State.windowWrite, h]
  exact State.windowWrite_prefix s v w.count hw

/-- A host address outside every window (20_memory.md R83). -/
def unmapped (a : Nat) : Prop := a < 0x00100000 ∨ (0x00200000 ≤ a ∧ a < 0x01000000) ∨ 0x02000000 ≤ a

/-- A byte outside every window reads as 0 (20_memory.md R83). -/
theorem State.windowByte_unmapped (s : State) {a : Nat} (h : unmapped a) : s.windowByte a = 0 := by
  unfold unmapped at h
  unfold State.windowByte
  rw [if_neg (by simp only [dmemWindow, windowSize]; omega), if_neg (by simp only [rbWindow, windowSize]; omega)]

/-- A write outside the DMEM window reaches nothing (20_memory.md R83, R85). -/
theorem State.windowWriteByte_outside (s : State) {a : Nat} (h : a < 0x00100000 ∨ 0x00200000 ≤ a) (v : Byte) :
    s.windowWriteByte a v = s := by
  unfold State.windowWriteByte
  rw [if_neg (by simp only [dmemWindow, windowSize]; omega)]

/-- A read outside every window returns 0 (20_memory.md R83). -/
theorem State.windowRead_unmapped (s : State) {addr : Word} {w : Width}
    (h : ∀ k, k < w.count → unmapped (accessAddr addr k)) : s.windowRead addr w = 0 := by
  have hb : ∀ k, (if k < w.count then s.windowByte (accessAddr addr k) else 0) = 0 := by
    intro k
    split
    · rename_i hk
      exact State.windowByte_unmapped s (h k hk)
    · rfl
  simp only [State.windowRead, hb]
  rfl

/-- A write outside the DMEM window changes nothing (20_memory.md R83, R85). -/
theorem State.windowWrite_outside (s : State) {addr : Word} {w : Width} (v : Word)
    (h : ∀ k, k < w.count → accessAddr addr k < 0x00100000 ∨ 0x00200000 ≤ accessAddr addr k) :
    s.windowWrite addr w v = s := by
  unfold State.windowWrite
  refine List.foldlRecOn (motive := fun t => t = s) _ _ rfl fun t ht k hk => ?_
  rw [ht]
  exact State.windowWriteByte_outside s (h k (List.mem_range.1 hk)) _

/-- The `ARGi` at its own offset (10_state.md R41). -/
theorem argAt_argOffset (i : Fin 8) : argAt (0x020 + 4 * i.val) = some i := by
  revert i; decide

/-- No `ARGi` elsewhere. -/
theorem argAt_none {off : Nat} (h : ∀ i : Fin 8, off ≠ 0x020 + 4 * i.val) : argAt off = none := by
  rw [argAt, List.find?_eq_none]
  intro i _
  simp only [argOffset, beq_iff_eq]
  exact fun e => h i e.symm

/-- No register between the last `RESi` and the first channel bank (10_state.md R41). -/
theorem State.register_gap (s : State) {off : Nat} (h1 : 0x050 ≤ off) (h2 : off < 0x100) : s.register off = 0 := by
  have ha : argAt off = none := argAt_none fun i => by have := i.isLt; omega
  have hr : resAt off = none := by
    rw [resAt, List.find?_eq_none]
    intro i _
    have := i.isLt
    simp only [resOffset, beq_iff_eq]
    omega
  unfold State.register
  split <;> first | omega | skip
  rw [ha, hr]
  simp only
  rw [if_neg (by omega)]

/-- A step serves the first pending operation (10_state.md R20). -/
theorem step_pending {s : State} {op : HostOp} {rest : List HostOp} (hp : s.params.lawful = true)
    (h : s.port.pending = op :: rest) : step s = serve op { s with port := ⟨rest, s.port.replies⟩ } := by
  simp only [step, hp, if_true, serveNext, h]

/-- A step that serves a read above the register space (20_memory.md R84, R85). -/
theorem step_windowRead {s : State} {addr : Word} {w : Width} {rest : List HostOp} (hp : s.params.lawful = true)
    (h : s.port.pending = .read addr w :: rest) (ha : touchesRegisters addr w = false) :
    step s = .next { s with port := ⟨rest, s.windowRead addr w :: s.port.replies⟩ } := by
  rw [step_pending hp h]
  simp only [serve, serveRead, ha]
  rfl

/-- A step that serves a write above the register space (20_memory.md R84, R85). -/
theorem step_windowWrite {s : State} {addr v : Word} {w : Width} {rest : List HostOp} (hp : s.params.lawful = true)
    (h : s.port.pending = .write addr w v :: rest) (ha : touchesRegisters addr w = false) :
    step s = .next (({ s with port := ⟨rest, s.port.replies⟩ } : State).windowWrite addr w v) := by
  rw [step_pending hp h]
  simp only [serve, serveWrite, ha]
  rfl

end Sys2Proof.Machine
end

