-- ==== Sys2Proof/Machine/Assembler.lean ====
section
/-!
DEFINITION. The assembler of 30_encoding.md R121: one command a line, `MNEMONIC operands ; comment`. A line
is a list of characters. `none` is the assembler's refusal: an unknown mnemonic, a wrong number of operands,
an operand that is no number, or one that does not fit its field (log entry 19).
-/

namespace Sys2Proof.Machine

/-- The value of a decimal digit. -/
def decDigit (c : Char) : Option Nat :=
  if '0'.toNat ≤ c.toNat ∧ c.toNat ≤ '9'.toNat then some (c.toNat - '0'.toNat) else none

/-- The value of a hexadecimal digit, in either case. -/
def hexDigit (c : Char) : Option Nat :=
  if 'a'.toNat ≤ c.toNat ∧ c.toNat ≤ 'f'.toNat then some (c.toNat - 'a'.toNat + 10)
  else if 'A'.toNat ≤ c.toNat ∧ c.toNat ≤ 'F'.toNat then some (c.toNat - 'A'.toNat + 10)
  else decDigit c

/-- The number written by a digit string in a base, most significant digit first. -/
def digitsValue (digit : Char → Option Nat) (base : Nat) : Nat → List Char → Option Nat
  | acc, [] => some acc
  | acc, c :: cs =>
    match digit c with
    | some d => digitsValue digit base (base * acc + d) cs
    | none => none

/-- A number: decimal, or hexadecimal after `0x` (R121). -/
def numberOf : List Char → Option Nat
  | [] => none
  | ['0', 'x'] => none
  | '0' :: 'x' :: cs => digitsValue hexDigit 16 0 cs
  | cs => digitsValue decDigit 10 0 cs

/-- White space between the parts of a line. -/
def isBlank (c : Char) : Bool := c == ' ' || c == '\t'

/-- A line's part without the white space at its ends. -/
def trimBlanks (cs : List Char) : List Char := ((cs.dropWhile isBlank).reverse.dropWhile isBlank).reverse

/-- The parts of a list between commas. -/
def splitCommas (cs : List Char) : List (List Char) := (cs.splitOn ',').map trimBlanks

/-- A number that fits a field of `width` bits (R121). -/
def fieldOf (width : Nat) (cs : List Char) : Option (BitVec width) :=
  match numberOf cs with
  | some n => if n < 2 ^ width then some (BitVec.ofNat width n) else none
  | none => none

/-- The version operand of format CV: `v1` or `v2` (R121). -/
def versionOf : List Char → Option Version
  | ['v', '1'] => some .v1
  | ['v', '2'] => some .v2
  | _ => none

/-- The bit operand of format B: `0` or `1` (R121). -/
def bitOf (cs : List Char) : Option Bool :=
  match numberOf cs with
  | some 0 => some false
  | some 1 => some true
  | _ => none

/-- Format N takes no operand. -/
def asmN (i : Instr) : List (List Char) → Option Instr
  | [] => some i
  | _ => none

/-- Format C takes a channel. -/
def asmC (f : BitVec 4 → Instr) : List (List Char) → Option Instr
  | [ch] => (fieldOf 4 ch).map f
  | _ => none

/-- Formats CB, CM and CV take a channel and one more operand. -/
def asmC2 {α : Type} (f : BitVec 4 → α → Instr) (operand : List Char → Option α) : List (List Char) → Option Instr
  | [ch, x] =>
    match fieldOf 4 ch, operand x with
    | some c, some v => some (f c v)
    | _, _ => none
  | _ => none

/-- Format B takes a bit. -/
def asmB (f : Bool → Instr) : List (List Char) → Option Instr
  | [b] => (bitOf b).map f
  | _ => none

/-- The mnemonics of R118 and how each reads its operands. -/
def mnemonics : List (List Char × (List (List Char) → Option Instr)) :=
  [ (['N', 'O', 'P'], asmN .nop),
    (['I', 'N', 'I', 'T'], asmC .init),
    (['S', 'E', 'T', '_', 'M', 'A', 'S', 'K'], asmC2 .setMask (fieldOf 7)),
    (['A', 'P', 'P', 'E', 'N', 'D'], asmC .append),
    (['F', 'R', 'E', 'E'], asmC .free),
    (['P', 'A', 'R', 'S', 'E', '_', 'B', 'Y', 'T', 'E'], asmC2 .parseByte (fieldOf 8)),
    (['P', 'A', 'R', 'S', 'E'], asmC .parse),
    (['C', 'K', 'S', 'U', 'M'], asmN .cksum),
    (['C', 'R', 'C', '2', '4'], asmN .crc24),
    (['G', 'E', 'T', 'B', 'I', 'T', 'S'], asmN .getbits),
    (['E', 'N', 'C', 'O', 'D', 'E'], asmC2 .encode versionOf),
    (['D', 'E', 'C', 'O', 'D', 'E'], asmN .decode),
    (['D', 'E', 'C', 'O', 'D', 'E', '_', 'B', 'Y', 'T', 'E'], asmN .decodeByte),
    (['D', 'E', 'C', 'O', 'D', 'E', '_', 'F', 'O', 'O', 'T', 'E', 'R'], asmN .decodeFooter),
    (['E', 'N', 'C', '_', 'E', 'N', 'A', 'B', 'L', 'E'], asmB .encEnable),
    (['S', 'E', 'T', '_', 'H', 'O', 'S', 'T', '_', 'O', 'R', 'D', 'E', 'R'], asmB .setHostOrder) ]

/-- The command of a line (R121). -/
def commandOf (line : List Char) : Option Instr :=
  let text := trimBlanks (line.takeWhile fun c => c != ';')
  let name := text.takeWhile fun c => !isBlank c
  let rest := trimBlanks (text.dropWhile fun c => !isBlank c)
  let operands := if rest.isEmpty then [] else splitCommas rest
  match mnemonics.lookup name with
  | some asm => asm operands
  | none => none

/-- The word the assembler writes for a line (R121). -/
def assembleLine (line : List Char) : Option Word := (commandOf line).map encode

end Sys2Proof.Machine
end

