-- ==== Sys2Proof/Tests/Slice0.lean ====
section
/-!
SUPPORT. Tests of the model against the spec's own examples, and for each obligation with hypotheses a concrete
state and operands that meet them. Expected values are from spec/95_test_vectors.md (V-...), from the example of the
rule named, or worked by hand from the rule.
-/

namespace Sys2Proof.Tests

open Sys2Proof Sys2Proof.Machine Sys2Proof.Safety

/-! ## Helpers -/

/-- The outcome is a next state that passes a check. -/
def lands (o : Host.Outcome State Fault Refusal) (check : State → Bool) : Bool :=
  match o with
  | .next t => check t
  | .fault _ => false
  | .refused _ => false

/-- The outcome is this next state. -/
def answers (o : Host.Outcome State Fault Refusal) (t : State) : Bool := lands o fun u => u == t

/-- The four first operand registers. -/
def withArgs (s : State) (a0 a1 a2 a3 : Word) : State :=
  (((s.setArg 0 a0).setArg 1 a1).setArg 2 a2).setArg 3 a3

/-- Channel 0 right after INIT with capacity `cap`, with bytes appended and not examined. -/
def ready (cap : Word) (B : List Byte) : State :=
  State.reset.setChan 0 ((Channel.reset.initialized cap).store B)

/-- The state after PARSE on channel 0. -/
def parsed (s : State) : State := runParse 0 s

/-- The operations waiting at the host port. -/
def withOps (ops : List HostOp) : State := { State.reset with port := ⟨ops, []⟩ }

/-- The 13-byte frame of the example of R232. -/
def frame13 : List Byte := [0xEF, 0x03, 0x01, 0x11, 0x01, 0xFD, 0x01, 0x03, 0x04, 0xAF, 0xAC, 0x9A, 0xFE]

/-- The ready states meet the invariant. -/
theorem inv_ready (cap : Word) (B : List Byte) (h1 : 1 ≤ cap.toNat) (h2 : cap.toNat ≤ 4096)
    (h3 : B.length ≤ cap.toNat) : Inv (ready cap B) := by
  have hl : Params.default.lawful = true := by decide
  have hi : ChannelInv Params.default (State.reset.rbDraws 0) ((Channel.reset.initialized cap).store B) := by
    refine Channel.store_inv hl (Channel.initialized_inv h1 h2 rfl (fun z hz => by cases hz)) ?_
    simpa [Channel.initialized] using h3
  have hr : ∀ c, State.reset.chan c = Channel.reset := by intro c; simp [State.chan, State.reset]
  have h0 : ∀ c, c ≠ 0 → (ready cap B).chan c = Channel.reset := by
    intro c hc
    rw [ready, State.chan_setChan_ne _ _ (Ne.symm hc), hr]
  refine ⟨hl, rfl, (fun z hz => by cases hz), ?_, ?_, ?_⟩
  · intro c hc
    by_cases h : c = 0
    · subst h
      rw [ready, State.chan_setChan_self]
      exact hi
    · rw [h0 c h] at hc
      cases hc
  · intro c hc
    by_cases h : c = 0
    · subst h
      rw [ready, State.chan_setChan_self] at hc
      cases hc
    · exact h0 c h
  · intro c hc
    refine h0 c ?_
    rintro rfl
    exact absurd hc (show ¬ (2 : Nat) ≤ 0 by decide)

/-! ## WellFormed: one unlawful choice for each check (R7, R8) -/

theorem test_default_lawful : Params.default.lawful = true := by decide
theorem test_nch_refused : ({ Params.default with nch := 17 } : Params).lawful = false := by decide
theorem test_capMax_refused : ({ Params.default with capMax := 0 } : Params).lawful = false := by decide
theorem test_dmemSize_refused : ({ Params.default with dmemSize := 1048577 } : Params).lawful = false := by decide
theorem test_maxBody_refused : ({ Params.default with maxBody := 65536 } : Params).lawful = false := by decide
theorem test_maxDataset_refused : ({ Params.default with maxDataset := 2 ^ 32 } : Params).lawful = false := by decide
theorem test_escLaw1_refused : ({ Params.default with escSet := [0xFD, 0xFF] } : Params).lawful = false := by decide
theorem test_escLaw2_refused :
    ({ Params.default with escSet := 0x01 :: Params.default.escSet } : Params).lawful = false := by decide
theorem test_step_refuses_unlawful :
    step { State.reset with params := { Params.default with escSet := [] } } = .refused .unlawfulParams := rfl

/-! ## Decoding: words written out from R111 and R118 -/

theorem test_decode_nop : decode 0x00000000 = .ok .nop := by decide
theorem test_decode_init : decode 0b00000001_0001_00000000000000000000 = .ok (.init 1) := by decide
theorem test_decode_setMask : decode 0b00000010_1111_0000000000000_1001111 = .ok (.setMask 15 0x4F) := by decide
theorem test_decode_append : decode 0b00000011_0010_00000000000000000000 = .ok (.append 2) := by decide
theorem test_decode_free : decode 0b00000100_1000_00000000000000000000 = .ok (.free 8) := by decide
theorem test_decode_parseByte : decode 0b00000101_0001_000000000000_01100010 = .ok (.parseByte 1 0x62) := by decide
theorem test_decode_parse : decode 0b00000110_0100_00000000000000000000 = .ok (.parse 4) := by decide
theorem test_decode_cksum : decode 0b00010000_000000000000000000000000 = .ok .cksum := by decide
theorem test_decode_crc24 : decode 0b00010001_000000000000000000000000 = .ok .crc24 := by decide
theorem test_decode_getbits : decode 0b00010010_000000000000000000000000 = .ok .getbits := by decide
theorem test_decode_encode : decode 0b00100000_0011_0000000000000000000_1 = .ok (.encode 3 .v2) := by decide
theorem test_decode_decode : decode 0b00100001_000000000000000000000000 = .ok .decode := by decide
theorem test_decode_decodeByte : decode 0b00100010_000000000000000000000000 = .ok .decodeByte := by decide
theorem test_decode_decodeFooter : decode 0b00100011_000000000000000000000000 = .ok .decodeFooter := by decide
theorem test_decode_encEnable : decode 0b00110000_00000000000000000000000_1 = .ok (.encEnable true) := by decide
theorem test_decode_setHostOrder : decode 0b00110001_00000000000000000000000_0 = .ok (.setHostOrder false) := by decide
/-- V-DEC-W1 to V-DEC-W9: illegal words. -/
theorem test_decode_illegal :
    [0x07000000, 0xFF000000, 0x00000001, 0x05001000, 0x02000080, 0x20000002, 0x30100000, 0x31000002, 0x10100000].map
      decode = [.error (.unassignedOpcode 0x07), .error (.unassignedOpcode 0xFF), .error (.reservedBits 0x00),
        .error (.reservedBits 0x05), .error (.reservedBits 0x02), .error (.reservedBits 0x20),
        .error (.reservedBits 0x30), .error (.reservedBits 0x31), .error (.reservedBits 0x10)] := by decide
theorem test_decodeTableWord : decodeTableWord 32 0x05100062 = some (.parseByte 1 0x62) := by decide
theorem test_withFetchWord :
    answers (step (State.reset.withFetchWord 32 0x30000000))
      { State.reset with cmd := 0x30000000, status := ⟨0x30, .ok⟩, ctrl := ⟨false, true⟩ } = true := by decide
/-- R121's examples: `PARSE_BYTE 1, 0xB5` and `ENCODE 0, v1`. -/
theorem test_assemble :
    assembleLine ['P', 'A', 'R', 'S', 'E', '_', 'B', 'Y', 'T', 'E', ' ', '1', ',', ' ', '0', 'x', 'B', '5', ' ', ';']
        = some 0x051000B5 ∧
      assembleLine ['E', 'N', 'C', 'O', 'D', 'E', ' ', '0', ',', ' ', 'v', '1'] = some 0x20000000 ∧
      assembleLine ['P', 'A', 'R', 'S', 'E', ' ', '1', '6'] = none := by decide

/-- R122: an offset past the window is unmapped, and a ninth LDARGS value expands to nothing (log entries 21, 22). -/
theorem test_expansion_bounds :
    ByteSpace.dmem.addr 0x00100000 = unmappedAddr ∧ (ByteSpace.rb 15).addr 0xFFFFF = 0x01FFFFFF ∧
      (ldargsOps (List.replicate 9 7)).length = 8 ∧
      ldargsOps [5, 6] = [.write 0x20 .word 5, .write 0x24 .word 6] := by decide
/-- R10, R83: an access at the top of the address space does not wrap to the register space. -/
theorem test_top_of_address_space :
    answers (step (withOps [.read 0xFFFFFFFE .word])) { State.reset with port := ⟨[], [0]⟩ } = true := by decide
/-- R201: a native frame whose checksum does not match is rejected; R202: a ublox length that can never fit. -/
theorem test_verdict_causes :
    frame Params.default 64 .isbV2 [0xEF, 3, 1, 0x11, 0xAF, 0xAC, 0x9A, 0xFE] = .bad .cksum ∧
      frame Params.default 16 .ublox [0xB5, 0x62, 1, 2, 9, 0] = .bad .length := by decide

/-! ## Ring buffer and channel control -/

theorem test_nop : answers (exec .nop State.reset) State.reset = true := by decide
/-- V-RB-5. -/
theorem test_init :
    lands (exec (.init 0) (State.reset.setArg 0 16))
      (fun t => t.register 0x104 == 0x4F && t.register 0x108 == 16 && t.result 0 == 16 && t.status == ⟨0x01, .ok⟩)
      = true := by decide
/-- V-RB-3: BAD_CHANNEL comes before the capacity. -/
theorem test_init_bad_channel :
    lands (exec (.init 2) (State.reset.setArg 0 16)) (fun t => t.register 0x004 == 0x0102) = true := by decide
/-- V-RB-4. -/
theorem test_setMask_not_init :
    lands (exec (.setMask 0 0x04) State.reset) (fun t => t.register 0x004 == 0x0203) = true := by decide
/-- R144's example. -/
theorem test_setMask :
    lands (exec (.setMask 0 0x04) (ready 16 [])) (fun t => (t.chan 0).mask == 0x04) = true := by decide
/-- R146's example: 14 of 16 bytes used, 2 more fit. -/
theorem test_append :
    lands (exec (.append 0) (withArgs ((ready 16 (List.replicate 14 0x10)).dmemWrite 0 [0x20, 0x21, 0x22]) 1 2 0 0))
      (fun t => (t.chan 0).tail == 16 && t.result 0 == 0 && t.rbByte 0 14 == 0x21 && t.rbByte 0 15 == 0x22)
      = true := by decide
/-- R146's example: 3 more do not fit, and nothing is stored. -/
theorem test_append_full :
    answers (exec (.append 0) (withArgs (ready 16 (List.replicate 14 0x10)) 0 3 0 0))
      { withArgs (ready 16 (List.replicate 14 0x10)) 0 3 0 0 with status := ⟨0x03, .bufferFull⟩ } = true := by decide
/-- V-RB-13: a candidate moves and stays the same candidate. -/
theorem test_free :
    lands (exec (.free 0) (parsed (ready 16 [0x11, 0x22, 0x24, 0x41, 0x42])))
      (fun t => (t.chan 0).head == 0 && (t.chan 0).scan == 3 && (t.chan 0).tail == 3 && (t.chan 0).cand == some .ascii
        && t.rbByte 0 0 == 0x24 && t.rbByte 0 2 == 0x42 && t.result 0 == 13 && t.result 1 == 0) = true := by decide
/-- V-RB-15: the overflow drop. -/
theorem test_free_drop :
    lands (exec (.free 0) (parsed (ready 8 [0xEF, 1, 2, 3, 4, 5, 6, 7])))
      (fun t => (t.chan 0).tail == 7 && (t.chan 0).lastErr == .overflow && (t.chan 0).rxErr == 1 && t.rbByte 0 6 == 7
        && t.result 0 == 1 && t.result 1 == 1) = true := by decide

/-! ## Checksum, CRC and bit extractor -/

/-- V-CK-1. -/
theorem test_cksum :
    lands (exec .cksum (withArgs (State.reset.dmemWrite 0 [0x01, 0x02, 0x03, 0x04, 0x05]) 0 5 0 0))
      (fun t => t.result 0 == 0x04ADACB0 && t.result 1 == 0x00ADACB0 && t.result 2 == 0xACB0) = true := by decide
/-- V-CK-4. -/
theorem test_cksum_oob :
    lands (exec .cksum (withArgs State.reset 8188 5 0 0)) (fun t => t.status == ⟨0x10, .oob⟩) = true := by decide
/-- V-CRC-1. -/
theorem test_crc24 :
    lands (exec .crc24
        (withArgs (State.reset.dmemWrite 0x100 [0x31, 0x32, 0x33, 0x34, 0x35, 0x36, 0x37, 0x38, 0x39]) 0x100 9 0 0))
      (fun t => t.result 0 == 0x00CDE703) = true := by decide +kernel
/-- V-BITS-1. -/
theorem test_getbits :
    lands (exec .getbits (withArgs (State.reset.dmemWrite 0x300 [0xD3, 0x00, 0x13, 0x3E, 0xD0]) 0x300 14 10 0))
      (fun t => t.result 0 == 0x013) = true := by decide +kernel
/-- V-BITS-3. -/
theorem test_getbits_word :
    lands (exec .getbits (withArgs (State.reset.dmemWrite 0x300 [0xD3, 0x00, 0x13, 0x3E, 0xD0]) 0x300 4 32 0))
      (fun t => t.result 0 == 0x300133ED) = true := by decide +kernel

/-! ## The parser -/

/-- V-PAR-15: a data frame. -/
theorem test_parse_data :
    lands (exec (.parse 0) (ready 64 [0xEF, 0x04, 0x00, 0x11, 0x07, 0x00, 0x00, 0x00, 0x04, 0x00, 0x00, 0x00, 0x08,
        0x00, 0x00, 0x00, 0xAA, 0xBB, 0xCC, 0xDD, 0x77, 0x6B, 0x56, 0xFE]))
      (fun t => t.result 0 == 2 && (t.chan 0).pktLen == 24 && (t.chan 0).dataStart == 16 && (t.chan 0).dataLen == 4
        && (t.chan 0).dhdrId == 7 && (t.chan 0).dhdrOffset == 8 && (t.chan 0).pktHdr == 0x110004EF) = true := by decide
/-- V-PAR-2: a bad ublox checksum. -/
theorem test_parse_error :
    lands (exec (.parse 0) (ready 64 [0xB5, 0x62, 0x01, 0x02, 0x04, 0x00, 0x01, 0x02, 0x03, 0x04, 0x11, 0x43]))
      (fun t => t.result 0 == 1 && (t.chan 0).lastErr == .cksum && (t.chan 0).head == 1 && (t.chan 0).tail == 12)
      = true := by decide
/-- R213's example. -/
theorem test_parseByte :
    lands (exec (.parseByte 0 0xB5) (ready 64 []))
      (fun t => t.result 0 == 0 && (t.chan 0).pstate == .haveStart && (t.chan 0).cand == some .ublox
        && (t.chan 0).head == 0 && (t.chan 0).scan == 1) = true := by decide
/-- V-RB-14: the byte is dropped. -/
theorem test_parseByte_full :
    lands (exec (.parseByte 0 0xFE) (parsed (ready 8 [0xEF, 1, 2, 3, 4, 5, 6, 7])))
      (fun t => t.register 0x004 == 0x0506 && (t.chan 0).tail == 8 && (t.chan 0).pstate == .accum) = true := by decide

/-! ## The codec -/

/-- The operands of R232's example. -/
def encodeExample : State :=
  ((withArgs ((ready 64 []).dmemWrite 0 [0x01, 0xFE, 0x03, 0x04]) 0 4 0x100 64).setArg 4 0x00100103).setArg 5 0

/-- R232's example. -/
theorem test_encode :
    lands (exec (.encode 0 .v2) encodeExample)
      (fun t => t.dmemRead 0x100 13 == frame13 && t.result 0 == 13 && (t.chan 0).txCnt == 1) = true := by decide
/-- R238's example. -/
theorem test_decode :
    lands (exec .decode (withArgs (State.reset.dmemWrite 0x100 frame13) 0x100 13 0x200 64))
      (fun t => t.dmemRead 0x200 8 == [0xEF, 0x03, 0x01, 0x11, 0x01, 0xFE, 0x03, 0x04] && t.result 0 == 4
        && t.result 1 == 0x110103EF && t.result 2 == 0x00AFAC9A && t.result 3 == 0x00AFAC9A) = true := by decide
/-- R238's example with `HOST_LE = 0`: the payload is word-swapped. -/
theorem test_decode_swap :
    lands (exec .decode { withArgs (State.reset.dmemWrite 0x100 frame13) 0x100 13 0x200 64 with ctrl := ⟨true, false⟩ })
      (fun t => t.dmemRead 0x204 4 == [0x04, 0x03, 0xFE, 0x01]) = true := by decide
/-- R240's example: the escape key. -/
theorem test_decodeByte_key :
    lands (exec .decodeByte (withArgs (State.reset.dmemWrite 0x100 frame13) 0x105 0x304 0 1))
      (fun t => t.result 0 == 0 && t.arg 0 == 0x106 && t.arg 3 == 0x101 && t.arg 1 == 0x304) = true := by decide
/-- R240's example: the byte after it. -/
theorem test_decodeByte_pair :
    lands (exec .decodeByte (withArgs (State.reset.dmemWrite 0x100 frame13) 0x106 0x304 0 0x101))
      (fun t => t.result 0 == 1 && t.arg 0 == 0x107 && t.arg 1 == 0x305 && t.arg 2 == 0xFE00 && t.arg 3 == 2
        && t.dmemByte 0x304 == 0xFE) = true := by decide
/-- R243's example. -/
theorem test_decodeFooter :
    lands (exec .decodeFooter (withArgs (State.reset.dmemWrite 0x100 frame13) 0x10D 0x101 0 0))
      (fun t => t.result 0 == 0x00AFAC9A && t.result 1 == 0x109) = true := by decide
/-- R245. -/
theorem test_encEnable : lands (exec (.encEnable false) State.reset) (fun t => t.register 0x008 == 2) = true := by decide
/-- R246. -/
theorem test_setHostOrder :
    lands (exec (.setHostOrder false) State.reset) (fun t => t.register 0x008 == 1) = true := by decide

/-! ## Witnesses: for each obligation with hypotheses, a state and operands that meet them -/

/-- An outcome that answers a state is that next state. -/
theorem next_of_answers {o : Host.Outcome State Fault Refusal} {t : State} (h : answers o t = true) : o = .next t := by
  cases o with
  | next u => exact congrArg _ (eq_of_beq h)
  | fault f => cases h
  | refused r => cases h

/-- The host port does not bear on the invariant. -/
theorem inv_withPort {s : State} (h : Inv s) (port : HostPort) : Inv { s with port := port } :=
  Inv.of_same h rfl rfl rfl rfl

/-- Channel 0 of 64 bytes, ready, holding `B`. -/
theorem ready_64 (B : List Byte) : channelReady (ready 64 B) 0 := by
  refine ⟨show (0 : Nat) < 2 by decide, ?_⟩
  rw [ready, State.chan_setChan_self]
  rfl

theorem witness_StepRunsCommandWord :
    (withOps [.write 0 .word 0x05100062]).params.lawful = true ∧
      (withOps [.write 0 .word 0x05100062]).port.pending = .write 0 .word 0x05100062 :: [] ∧
      decode 0x05100062 = .ok (.parseByte 1 0x62) := by decide
theorem witness_IllegalWordWritesOnlyStatus :
    (withOps [.write 0 .word 0x01100001]).params.lawful = true ∧
      (withOps [.write 0 .word 0x01100001]).port.pending = .write 0 .word 0x01100001 :: [] ∧
      decode 0x01100001 = .error (.reservedBits 0x01) := by decide
theorem witness_IdleBlockHoldsState : State.reset.params.lawful = true ∧ State.reset.port.pending = [] := by decide
theorem witness_HostReadsHaveNoSideEffect :
    let s := withOps [.read 0x00100001 .half, .read 0x00100001 .half]
    s.params.lawful = true ∧ hostOpOk (.read 0x00100001 .half) = true ∧
      s.port.pending = .read 0x00100001 .half :: .read 0x00100001 .half :: [] := by decide
theorem witness_RegisterAccessForm_read :
    (withOps [.read 0xFFF .byte]).params.lawful = true ∧ (0xFFF : Word).toNat < 0x1000 ∧
      ¬ (Width.byte = .word ∧ (0xFFF : Word).toNat % 4 = 0) ∧
      (withOps [.read 0xFFF .byte]).port.pending = .read 0xFFF .byte :: [] := by decide
theorem witness_RegisterAccessForm_write :
    (withOps [.write 2 .word 7]).params.lawful = true ∧ (2 : Word).toNat < 0x1000 ∧
      ¬ (Width.word = .word ∧ (2 : Word).toNat % 4 = 0) ∧
      (withOps [.write 2 .word 7]).port.pending = .write 2 .word 7 :: [] := by decide
/-- A read of the last register of channel 1's bank; both ends of the unmapped offsets below the banks, and the first
offset above the last bank. -/
theorem witness_RegisterMapReads :
    let s := withOps [.read 0x17C .word]
    s.params.lawful = true ∧ (0x17C : Word).toNat < 0x1000 ∧ (0x17C : Word).toNat % 4 = 0 ∧
      s.port.pending = .read 0x17C .word :: [] ∧ (1 : BitVec 4).toNat < s.params.nch ∧
      (0x050 ≤ 0x050 ∧ 0x050 < 0x100) ∧ (0x050 ≤ 0x0FC ∧ 0x0FC < 0x100) ∧
      0x100 + 0x40 * s.params.nch ≤ 0x180 := by decide
theorem witness_HostRegisterWrites_arg :
    (withOps [.write 0x3C .word 5]).params.lawful = true ∧ 0x3C < 0x1000 ∧ 0x3C % 4 = 0 ∧ 0x3C ≠ 0 ∧
      (withOps [.write 0x3C .word 5]).port.pending = .write (BitVec.ofNat 32 0x3C) .word 5 :: [] ∧
      0x3C = 0x020 + 4 * (7 : Fin 8).val := by decide
theorem witness_HostRegisterWrites_other :
    (withOps [.write 0x40 .word 5]).params.lawful = true ∧ 0x40 < 0x1000 ∧ 0x40 % 4 = 0 ∧ 0x40 ≠ 0 ∧
      (withOps [.write 0x40 .word 5]).port.pending = .write (BitVec.ofNat 32 0x40) .word 5 :: [] ∧
      ∀ i : Fin 8, 0x40 ≠ 0x020 + 4 * i.val := by decide
/-- A write whose second byte lies at DMEM_SIZE; a read of the last byte of the window; a round trip at the end of
DMEM. -/
theorem witness_DmemWindowReadsBackWrites :
    (let s := withOps [.write 0x00101FFF .half 0x0102]
     s.params.lawful = true ∧ 8191 + 2 ≤ 0x00100000 ∧
       s.port.pending = .write (BitVec.ofNat 32 (0x00100000 + 8191)) .half 0x0102 :: [] ∧
       8191 + 0 < s.params.dmemSize ∧ s.params.dmemSize ≤ 8191 + 1) ∧
    (let s := withOps [.read 0x001FFFFF .byte]
     s.params.lawful = true ∧ 0xFFFFF + 1 ≤ 0x00100000 ∧
       s.port.pending = .read (BitVec.ofNat 32 (0x00100000 + 0xFFFFF)) .byte :: []) ∧
    let s := withOps [.write 0x00101FFC .word 9, .read 0x00101FFC .word]
    s.params.lawful = true ∧ 8188 + 4 ≤ 0x00100000 ∧ 8188 + 4 ≤ s.params.dmemSize ∧
      s.port.pending = .write (BitVec.ofNat 32 (0x00100000 + 8188)) .word 9
        :: .read (BitVec.ofNat 32 (0x00100000 + 8188)) .word :: [] := by decide
/-- A read across `C` of a channel, and a read of the last byte of the last window, of a channel that does not exist. -/
theorem witness_RbWindowIsReadOnly_read :
    (let s := { ready 4 [1, 2, 3, 4] with port := ⟨[.read 0x01000003 .word], []⟩ }
     s.params.lawful = true ∧ 3 + 4 ≤ 0x00100000 ∧
       s.port.pending = .read (BitVec.ofNat 32 (0x01000000 + 0x00100000 * (0 : BitVec 4).toNat + 3)) .word :: [] ∧
       (0 : BitVec 4).toNat < s.params.nch ∧ 3 + 0 < (s.chan 0).cap.toNat ∧ (s.chan 0).cap.toNat ≤ 3 + 1) ∧
    let s := withOps [.read 0x01FFFFFF .byte]
    s.params.lawful = true ∧ 0xFFFFF + 1 ≤ 0x00100000 ∧ s.params.nch ≤ (15 : BitVec 4).toNat ∧
      s.port.pending = .read (BitVec.ofNat 32 (0x01000000 + 0x00100000 * (15 : BitVec 4).toNat + 0xFFFFF)) .byte
        :: [] := by decide
theorem witness_RbWindowIsReadOnly_write :
    (withOps [.write 0x01000000 .word 3]).params.lawful = true ∧ 0 + 4 ≤ 0x00100000 ∧
      (withOps [.write 0x01000000 .word 3]).port.pending
        = .write (BitVec.ofNat 32 (0x01000000 + 0x00100000 * (0 : BitVec 4).toNat + 0)) .word 3 :: [] := by decide
/-- The first and the last access of each unmapped range. -/
theorem witness_RbWindowIsReadOnly_unmapped :
    (∀ op : HostOp, (withOps [op]).params.lawful = true ∧ (withOps [op]).port.pending = op :: []) ∧
    (0x00001000 ≤ (0x00001000 : Word).toNat ∧ (0x00001000 : Word).toNat + 1 ≤ 0x00100000) ∧
    (0x00001000 ≤ (0x000FFFFC : Word).toNat ∧ (0x000FFFFC : Word).toNat + 4 ≤ 0x00100000) ∧
    (0x00200000 ≤ (0x00200000 : Word).toNat ∧ (0x00200000 : Word).toNat + 4 ≤ 0x01000000) ∧
    (0x00200000 ≤ (0x00FFFFFE : Word).toNat ∧ (0x00FFFFFE : Word).toNat + 2 ≤ 0x01000000) ∧
    (0x02000000 ≤ (0x02000000 : Word).toNat ∧ (0x02000000 : Word).toNat + 2 ≤ 0x100000000) ∧
    (0x02000000 ≤ (0xFFFFFFFF : Word).toNat ∧ (0xFFFFFFFF : Word).toNat + 1 ≤ 0x100000000) :=
  ⟨fun _ => ⟨test_default_lawful, rfl⟩, by decide, by decide, by decide, by decide, by decide, by decide⟩
theorem witness_ResetInputRestoresResetValues :
    (withOps [.reset]).params.lawful = true ∧ (withOps [.reset]).port.pending = .reset :: [] := by decide
/-- A channel with a candidate in progress, and the command that ends it. -/
theorem witness_StepKeepsInv :
    let s := { ready 64 [0x24, 0x41, 0x0A] with port := ⟨[.write 0 .word 0x06000000], []⟩ }
    Inv s ∧ step s = .next (runParse 0 { ready 64 [0x24, 0x41, 0x0A] with cmd := 0x06000000 }) :=
  ⟨inv_withPort (inv_ready 64 _ (by decide) (by decide) (by decide)) _, next_of_answers (by decide +kernel)⟩
theorem witness_SafeMachineNeverStops :
    Safe (withOps [.drain 0, .reset, .read 0x40 .word, .write 0x01000000 .half 3]) := ⟨by decide, by decide⟩
theorem witness_FailureChangesOnlyStatus :
    let t := { State.reset with status := ⟨0x01, .badChannel⟩ }
    exec (.init 2) State.reset = .next t ∧ t.status.code ≠ .ok ∧
      ¬ ((∃ c b, Instr.init 2 = .parseByte c b) ∧ t.status.code = .bufferFull) ∧
      ¬ (Instr.init 2 = .decode ∧ t.status.code = .cksumMismatch) ∧
      ¬ (Instr.init 2 = .decodeByte ∧ t.status.code = .malformed) :=
  ⟨rfl, by decide, fun h => absurd h.2 (by decide), by decide, by decide⟩
theorem witness_ChannelsAreIndependent :
    exec (.parse 0) (ready 64 [0x11]) = .next (runParse 0 (ready 64 [0x11])) ∧
      channelOf (.parse 0) ≠ some 1 := ⟨rfl, by decide⟩
theorem witness_SharedStateWriters :
    exec (.free 0) (ready 64 [0x11]) = .next (runFree 0 (ready 64 [0x11])) ∧ (∀ b, Instr.free 0 ≠ .encEnable b) ∧
      (∀ b, Instr.free 0 ≠ .setHostOrder b) ∧ (∀ c v, Instr.free 0 ≠ .encode c v) :=
  ⟨rfl, by simp, by simp, by simp⟩
/-- Each event: an ENCODE that ends OK, a PARSE that returns PARSE_ERROR, a FREE that drops a candidate; and none: a
PARSE that returns NONE. -/
theorem witness_CountersCountOneAtATime :
    (exec (.encode 0 .v2) encodeExample = .next (runEncode 0 .v2 encodeExample) ∧ Instr.encode 0 .v2 ≠ .init 0 ∧
      (runEncode 0 .v2 encodeExample).status.code = .ok) ∧
    (let s := ready 64 [0xD3, 0xFF, 0x00]
     exec (.parse 0) s = .next (runParse 0 s) ∧ (runParse 0 s).status.code ≠ .badChannel ∧
       (runParse 0 s).status.code ≠ .notInit ∧ ((runParse 0 s).chan 0).lastTag = .parseError) ∧
    (let s := parsed (ready 4 [0xEF, 1, 2, 3])
     exec (.free 0) s = .next (runFree 0 s) ∧ (runFree 0 s).status.code = .ok ∧ (runFree 0 s).result 1 = 1) ∧
    ((runParse 0 (ready 64 [0x11])).chan 0).lastTag ≠ .parseError :=
  ⟨⟨rfl, by decide, by decide⟩, ⟨rfl, by decide, by decide, by decide⟩, ⟨rfl, by decide, by decide⟩, by decide⟩
/-- The first offset at the capacity. -/
theorem witness_NoWriteAboveCapacity :
    Inv (ready 64 frame13) ∧ exec (.parse 0) (ready 64 frame13) = .next (runParse 0 (ready 64 frame13)) ∧
      Instr.parse 0 ≠ .init 0 ∧ ((ready 64 frame13).chan 0).cap.toNat ≤ 64 :=
  ⟨inv_ready 64 _ (by decide) (by decide) (by decide), rfl, by decide, by decide⟩
/-- The four clauses of INIT: the first absent channel, both bad capacities, and both ends of the range. -/
theorem witness_InitCompletes :
    State.reset.params.nch ≤ (2 : BitVec 4).toNat ∧ (1 : BitVec 4).toNat < State.reset.params.nch ∧
      State.reset.arg 0 = 0 ∧ State.reset.params.capMax < ((State.reset.setArg 0 4097).arg 0).toNat ∧
      1 ≤ ((State.reset.setArg 0 1).arg 0).toNat ∧ ((State.reset.setArg 0 1).arg 0).toNat ≤ State.reset.params.capMax ∧
      1 ≤ ((State.reset.setArg 0 4096).arg 0).toNat ∧
      ((State.reset.setArg 0 4096).arg 0).toNat ≤ State.reset.params.capMax := by decide
theorem witness_SetMaskCompletes :
    State.reset.params.nch ≤ (2 : BitVec 4).toNat ∧
      ((1 : BitVec 4).toNat < State.reset.params.nch ∧ (State.reset.chan 1).inited = false) ∧
      channelReady (ready 64 []) 0 := ⟨by decide, by decide, ready_64 []⟩
theorem witness_NopCompletes : (1 : Word).extractLsb' 24 8 = 0x00 ∧ (1 : Word) ≠ 0x00000000 := by decide
theorem witness_ChannelChecksComeFirst_badChannel :
    channelOf (.encode 2 .v1) = some 2 ∧ State.reset.params.nch ≤ (2 : BitVec 4).toNat := by decide
theorem witness_ChannelChecksComeFirst_notInit :
    channelOf (.free 1) = some 1 ∧ (1 : BitVec 4).toNat < State.reset.params.nch ∧
      (State.reset.chan 1).inited = false ∧ Instr.free 1 ≠ .init 1 := by decide
theorem witness_ChannelChecksComeFirst_only :
    exec (.free 2) State.reset = .next { State.reset with status := ⟨0x04, .badChannel⟩ } ∧
      exec (.free 1) State.reset = .next { State.reset with status := ⟨0x04, .notInit⟩ } := ⟨rfl, rfl⟩
/-- An exact fit at the end of DMEM; an absent channel; a channel without INIT. -/
theorem witness_AppendCompletes :
    let s := withArgs (ready 64 []) 8128 64 0 0
    (channelReady s 0 ∧ (s.arg 0).toNat + (s.arg 1).toNat ≤ s.params.dmemSize ∧
      (s.chan 0).tail.toNat + (s.arg 1).toNat ≤ (s.chan 0).cap.toNat) ∧ s.params.nch ≤ (2 : BitVec 4).toNat ∧
      (1 : BitVec 4).toNat < s.params.nch ∧ (s.chan 1).inited = false :=
  ⟨⟨⟨by decide, by decide⟩, by decide, by decide⟩, by decide, by decide, by decide⟩
theorem witness_AppendCompletes_oob :
    let s := withArgs (ready 64 []) 8192 1 0 0
    channelReady s 0 ∧ s.params.dmemSize < (s.arg 0).toNat + (s.arg 1).toNat := ⟨⟨by decide, by decide⟩, by decide⟩
theorem witness_AppendCompletes_full :
    let s := withArgs (ready 64 []) 0 65 0 0
    channelReady s 0 ∧ (s.arg 0).toNat + (s.arg 1).toNat ≤ s.params.dmemSize ∧
      (s.chan 0).cap.toNat < (s.chan 0).tail.toNat + (s.arg 1).toNat := ⟨⟨by decide, by decide⟩, by decide, by decide⟩
/-- A candidate behind consumed bytes. -/
theorem witness_FreeCompacts :
    let s := parsed (ready 16 [0x11, 0x22, 0x24, 0x41])
    let ch := s.chan 0
    channelReady s 0 ∧ ch.head.toNat ≤ ch.scan.toNat ∧ ch.scan.toNat ≤ ch.tail.toNat ∧ ch.tail.toNat ≤ ch.cap.toNat ∧
      ¬ (ch.tail - ch.head = ch.cap ∧ ch.pstate ≠ .idle ∧ ch.scan = ch.tail) :=
  ⟨⟨by decide, by decide⟩, by decide, by decide, by decide, by decide⟩
theorem witness_FreeDropsOverflow :
    let s := parsed (ready 4 [0xEF, 1, 2, 3])
    let ch := s.chan 0
    channelReady s 0 ∧ ch.head = 0 ∧ ch.scan = ch.tail ∧ ch.tail = ch.cap ∧ ch.pstate ≠ .idle ∧ 1 ≤ ch.cap.toNat :=
  ⟨⟨by decide, by decide⟩, by decide, by decide, by decide, by decide, by decide⟩
/-- A range that ends with DMEM, and one that ends one byte after it. -/
theorem witness_CksumCompletes :
    let s := withArgs State.reset 8188 4 0 0
    let u := withArgs State.reset 8188 5 0 0
    (s.arg 0).toNat + (s.arg 1).toNat ≤ s.params.dmemSize ∧ u.params.dmemSize < (u.arg 0).toNat + (u.arg 1).toNat := by
  decide
theorem witness_CksumLinear : ([1, 2, 3, 4] : List Byte).length % 4 = 0 := by decide
theorem witness_CksumSingleBitSensitivity : 3 < ([1, 2, 3, 4] : List Byte).length ∧ 7 < 8 := by decide
theorem witness_Crc24Completes :
    let s := withArgs (State.reset.dmemWrite 8190 [0, 0]) 8190 2 0 0
    let u := withArgs State.reset 8192 1 0 0
    ((s.arg 0).toNat + (s.arg 1).toNat ≤ s.params.dmemSize ∧
      ∀ k, k < (s.arg 1).toNat → s.dmemByte ((s.arg 0).toNat + k) = 0) ∧
    u.params.dmemSize < (u.arg 0).toNat + (u.arg 1).toNat := by decide
/-- 32 bits that end at the last byte of DMEM; and one bit, the last. -/
theorem witness_GetbitsReadsField :
    let s := withArgs State.reset 8187 8 32 0
    let u := withArgs State.reset 0 65535 1 0
    (1 ≤ (s.arg 2).toNat ∧ (s.arg 2).toNat ≤ 32 ∧
      (s.arg 0).toNat + ((s.arg 1).toNat + (s.arg 2).toNat - 1) / 8 + 1 ≤ s.params.dmemSize) ∧
    1 ≤ (u.arg 2).toNat ∧ (u.arg 2).toNat ≤ 32 ∧
      (u.arg 0).toNat + ((u.arg 1).toNat + (u.arg 2).toNat - 1) / 8 + 1 ≤ u.params.dmemSize := by decide
/-- A count above 32, a zero count, and a field one bit past DMEM. -/
theorem witness_GetbitsReadsField_reject :
    32 < ((withArgs State.reset 0 0 33 0).arg 2).toNat ∧ ((withArgs State.reset 0 0 0 0).arg 2).toNat = 0 ∧
    let s := withArgs State.reset 0 65536 1 0
    1 ≤ (s.arg 2).toNat ∧ (s.arg 2).toNat ≤ 32 ∧
      s.params.dmemSize < (s.arg 0).toNat + ((s.arg 1).toNat + (s.arg 2).toNat - 1) / 8 + 1 := by decide
/-- Channel 0 in the midst of a candidate of family `k` at offset 0. -/
def midway (B : List Byte) (scan : Word) (st : PState) (k : Family) : State :=
  (ready 64 B).setChan 0 { (ready 64 B).chan 0 with scan := scan, pstate := st, cand := some k }

/-- It meets the invariant and is ready, if the candidate has what R28, R194 and R195 say. -/
theorem inv_midway {B : List Byte} {scan : Word} {st : PState} {k : Family} (hB : B.length ≤ 64)
    (h1 : 0 < scan.toNat) (h2 : scan.toNat ≤ ((ready 64 B).chan 0).tail.toNat)
    (hst : (st = .haveStart ∧ k = .ublox ∧ scan = 1) ∨
      (st = .accum ∧ (k = .ublox → 2 ≤ scan.toNat ∧ (ready 64 B).rbByte 0 1 = 0x62)))
    (hb : (ready 64 B).rbByte 0 0 = k.startByte) :
    Inv (midway B scan st k) ∧ channelReady (midway B scan st k) 0 := by
  have h := inv_ready 64 B (by decide) (by decide) hB
  have hr := ready_64 B
  have hc := h.channel 0 hr.2
  refine ⟨h.setChan hr.1 rfl ⟨hc.1, hc.2, Nat.zero_le _, h2, hc.5, ?_, ?_, ?_, ?_, ?_, ?_, hc.12, hc.13⟩, hr.1, rfl⟩
  · intro hs
    rcases hst with ⟨rfl, _⟩ | ⟨rfl, _⟩ <;> cases hs
  · intro hs
    rcases hst with ⟨_, rfl, rfl⟩ | ⟨rfl, _⟩
    · exact ⟨rfl, rfl⟩
    · cases hs
  · exact fun _ => ⟨by simp, h1⟩
  · intro hs hk
    cases hk
    rcases hst with ⟨rfl, _⟩ | ⟨_, hu⟩
    · cases hs
    · exact ⟨(hu rfl).1, (hu rfl).2⟩
  · rcases hst with ⟨rfl, _⟩ | ⟨rfl, _⟩ <;> simp
  · intro k' hk
    cases hk
    exact hb

/-- The verdict on the candidate of channel 0 with the byte at `q` added, as the statements write it. -/
def verdictAt (u : State) (k : Family) (q : Nat) : Verdict :=
  frame u.params (u.chan 0).cap.toNat k
    ((List.range' (u.chan 0).head.toNat (q + 1 - (u.chan 0).head.toNat)).map (u.rbByte 0))

/-- In IDLE at the last byte: a byte of no family, the start byte of a disabled family (V-PAR-20), and the start bytes of
ublox and of another enabled family. -/
theorem witness_ParseCompletes_idle :
    let at' := fun b : Byte => ready 64 [b]
    let matched := fun b : Byte => matchStart ((at' b).chan 0).mask ((at' b).rbByte 0 ((at' b).chan 0).scan.toNat)
    (∀ b : Byte, Inv (at' b) ∧ channelReady (at' b) 0 ∧ ((at' b).chan 0).pstate = .idle ∧
      ((at' b).chan 0).scan.toNat < ((at' b).chan 0).tail.toNat ∧ ((at' b).chan 0).scan + 1 = ((at' b).chan 0).tail) ∧
    matched 0x11 = none ∧ matched 0x7F = none ∧ matched 0xB5 = some .ublox ∧ matched 0x24 = some .ascii :=
  ⟨fun _ => ⟨inv_ready 64 _ (by decide) (by decide) (by decide : (1 : Nat) ≤ 64), ready_64 _, rfl, Nat.zero_lt_one, rfl⟩,
    (by decide), (by decide), (by decide), (by decide)⟩
/-- In HAVE_START at the last byte: the second byte of the pattern, and another start byte. -/
theorem witness_ParseCompletes_haveStart :
    let at' := fun b : Byte => midway [0xB5, b] 1 .haveStart .ublox
    (∀ b : Byte, b = 0x62 ∨ b = 0x24 → Inv (at' b) ∧ channelReady (at' b) 0 ∧ ((at' b).chan 0).pstate = .haveStart ∧
      ((at' b).chan 0).scan.toNat < ((at' b).chan 0).tail.toNat ∧ ((at' b).chan 0).scan + 1 = ((at' b).chan 0).tail ∧
      (at' b).rbByte 0 ((at' b).chan 0).scan.toNat = b) := by
  rintro at' b (rfl | rfl) <;>
    exact ⟨(inv_midway (by decide) (by decide) (by decide) (by decide) (by decide)).1,
      (inv_midway (by decide) (by decide) (by decide) (by decide) (by decide)).2, rfl, by decide, rfl, by decide⟩
/-- In ACCUM at the last byte, which an ASCII candidate takes. -/
theorem witness_ParseCompletes_accum :
    let u := midway [0x24, 0x41] 1 .accum .ascii
    Inv u ∧ channelReady u 0 ∧ (u.chan 0).pstate = .accum ∧ (u.chan 0).cand = some .ascii ∧
      (u.chan 0).scan.toNat < (u.chan 0).tail.toNat ∧ (u.chan 0).scan + 1 = (u.chan 0).tail ∧
      verdictAt u .ascii (u.chan 0).scan.toNat = .needMore := by
  have h := inv_midway (B := [0x24, 0x41]) (scan := 1) (st := .accum) (k := .ascii) (by decide) (by decide) (by decide)
    (by decide) (by decide)
  exact ⟨h.1, h.2, rfl, rfl, by decide, rfl, by decide⟩
/-- A channel with bytes to examine, and one with none. -/
theorem witness_ParseCompletes :
    channelReady (ready 64 [0x24]) 0 ∧ channelReady (ready 64 []) 0 ∧
      ((ready 64 []).chan 0).scan = ((ready 64 []).chan 0).tail := ⟨ready_64 _, ready_64 _, by decide⟩
theorem witness_ParseByteStoresThenParses :
    (channelReady (ready 2 [0x24]) 0 ∧ ((ready 2 [0x24]).chan 0).tail ≠ ((ready 2 [0x24]).chan 0).cap) ∧
      channelReady (ready 1 [0x24]) 0 ∧ ((ready 1 [0x24]).chan 0).tail = ((ready 1 [0x24]).chan 0).cap :=
  ⟨⟨⟨by decide, by decide⟩, by decide⟩, ⟨by decide, by decide⟩, by decide⟩
/-- An RTCM3 candidate with its reserved bits set, not yet begun. -/
theorem witness_ParseErrorRejectsCandidate :
    let s := ready 64 [0xD3, 0xFF, 0x00]
    Inv s ∧ channelReady s 0 ∧ exec (.parse 0) s = .next (runParse 0 s) ∧
      ((runParse 0 s).chan 0).lastTag = .parseError :=
  ⟨inv_ready 64 _ (by decide) (by decide) (by decide), ready_64 _, rfl, by decide⟩
/-- An ASCII candidate in progress, with one more printable byte and then one that is not allowed. -/
theorem witness_ParseErrorRejectsCandidate_inProgress :
    let u := midway [0x24, 0x41, 0x42, 0x80] 2 .accum .ascii
    Inv u ∧ channelReady u 0 ∧ (u.chan 0).pstate = .accum ∧ (u.chan 0).cand = some .ascii ∧
      (u.chan 0).scan.toNat ≤ 3 ∧ 3 < (u.chan 0).tail.toNat ∧ verdictAt u .ascii 2 = .needMore ∧
      verdictAt u .ascii 3 = .bad .malformed := by
  have h := inv_midway (B := [0x24, 0x41, 0x42, 0x80]) (scan := 2) (st := .accum) (k := .ascii) (by decide) (by decide)
    (by decide) (by decide) (by decide)
  exact ⟨h.1, h.2, rfl, rfl, by decide, by decide, by decide, by decide⟩
/-- A channel that meets the invariant reports the frame `F` under the tag. -/
def reports (F : List Byte) (tag : ResultTag) : Prop :=
  Inv (ready 64 F) ∧ channelReady (ready 64 F) 0 ∧ exec (.parse 0) (ready 64 F) = .next (runParse 0 (ready 64 F)) ∧
    ((runParse 0 (ready 64 F)).chan 0).lastTag = tag

theorem reports_of {F : List Byte} {tag : ResultTag} (hl : F.length ≤ 64)
    (h : ((runParse 0 (ready 64 F)).chan 0).lastTag = tag) : reports F tag :=
  ⟨inv_ready 64 _ (by decide) (by decide) hl, ready_64 _, rfl, h⟩

/-- A frame of every tag but those of the open framings: ASCII behind a byte of no family, ublox, RTCM3, and the three
native tags. -/
theorem witness_ParseSuccessSetsViews :
    reports [0x00, 0x24, 0x41, 0x0A] .asciiNmea ∧
    reports [0xB5, 0x62, 0x01, 0x02, 0x00, 0x00, 0x03, 0x0A] .ublox ∧
    reports ([0xD3, 0x00, 0x01, 0x07] ++ [2, 1, 0].map (byteOf (crc24q [0xD3, 0x00, 0x01, 0x07]))) .rtcm3 ∧
    reports [0xEF, 0x04, 0x00, 0x11, 0x07, 0x00, 0x00, 0x00, 0x04, 0x00, 0x00, 0x00, 0x08,
        0x00, 0x00, 0x00, 0xAA, 0xBB, 0xCC, 0xDD, 0x77, 0x6B, 0x56, 0xFE] .nativeData ∧
    reports frame13 .nativeCmd ∧
    reports (frameBytes Params.default true 0xFF 1 0 0x11 [] (ck24 (cksumFn .le [0xFF, 1, 0, 0x11]))) .nativeAck :=
  ⟨reports_of (by decide) (by decide), reports_of (by decide) (by decide), reports_of (by decide) (by decide +kernel),
    reports_of (by decide) (by decide), reports_of (by decide) (by decide), reports_of (by decide) (by decide +kernel)⟩
/-- A candidate in progress that the frame's last byte completes. -/
def completes (B : List Byte) (scan : Word) (k : Family) (v : Verdict) : Prop :=
  let u := midway B scan .accum k
  Inv u ∧ channelReady u 0 ∧ (u.chan 0).pstate = .accum ∧ (u.chan 0).cand = some k ∧
    (u.chan 0).scan.toNat ≤ B.length - 1 ∧ B.length - 1 < (u.chan 0).tail.toNat ∧
    (∀ q, (u.chan 0).scan.toNat ≤ q → q < B.length - 1 → verdictAt u k q = .needMore) ∧
    verdictAt u k (B.length - 1) = v

theorem completes_last {B : List Byte} {scan : Word} {k : Family} {v : Verdict} (hB : B.length ≤ 64)
    (h1 : 0 < scan.toNat) (hs : scan.toNat = B.length - 1) (ht : scan.toNat < ((ready 64 B).chan 0).tail.toNat)
    (hu : k = .ublox → 2 ≤ scan.toNat ∧ (ready 64 B).rbByte 0 1 = 0x62) (hb : (ready 64 B).rbByte 0 0 = k.startByte)
    (hv : verdictAt (midway B scan .accum k) k (B.length - 1) = v) : completes B scan k v := by
  have h := inv_midway hB h1 (Nat.le_of_lt ht) (Or.inr ⟨rfl, hu⟩) hb
  exact ⟨h.1, h.2, rfl, rfl, Nat.le_of_eq hs, hs ▸ ht, fun q h1 h2 => absurd (hs ▸ h2) (Nat.not_lt.2 h1), hv⟩

/-- Candidates of every framing the spec gives: ASCII with one more byte before the last, and ublox, an empty RTCM3 frame, a
native command and native data, at their last byte. -/
theorem witness_ParseSuccessSetsViews_inProgress :
    completes [0x24, 0x41, 0x42, 0x0A] 2 .ascii (.good .asciiNmea 0 4 0 none) ∧
    completes [0xB5, 0x62, 0x01, 0x02, 0x00, 0x00, 0x03, 0x0A] 7 .ublox (.good .ublox 6 0 0 none) ∧
    completes [0xD3, 0x00, 0x00, 0x47, 0xEA, 0x4B] 5 .rtcm3 (.good .rtcm3 3 0 0 none) ∧
    completes frame13 12 .isbV2 (.good .nativeCmd 4 4 0x110103EF none) ∧
    completes [0xEF, 0x04, 0x00, 0x11, 0x07, 0x00, 0x00, 0x00, 0x04, 0x00, 0x00, 0x00, 0x08, 0x00, 0x00, 0x00,
        0xAA, 0xBB, 0xCC, 0xDD, 0x77, 0x6B, 0x56, 0xFE] 23 .isbV2
      (.good .nativeData 16 4 0x110004EF (some ⟨7, 4, 8⟩)) := by
  refine ⟨?_, completes_last (by decide) (by decide) (by decide) (by decide) (by decide) (by decide) (by decide),
    completes_last (by decide) (by decide) (by decide) (by decide) (by decide) (by decide) (by decide +kernel),
    completes_last (by decide) (by decide) (by decide) (by decide) (by decide) (by decide) (by decide),
    completes_last (by decide) (by decide) (by decide) (by decide) (by decide) (by decide) (by decide)⟩
  have h := inv_midway (B := [0x24, 0x41, 0x42, 0x0A]) (scan := 2) (st := .accum) (k := .ascii) (by decide) (by decide)
    (by decide) (by decide) (by decide)
  refine ⟨h.1, h.2, rfl, rfl, by decide, by decide, fun q h1 h2 => ?_, by decide⟩
  obtain rfl : q = 2 := Nat.le_antisymm (Nat.le_of_lt_succ h2) h1
  decide
theorem witness_ParseNoneExhaustsBuffer :
    let s := ready 64 [0x11, 0xEF, 0x01]
    Inv s ∧ channelReady s 0 ∧ exec (.parse 0) s = .next (runParse 0 s) ∧ ((runParse 0 s).chan 0).lastTag = .none :=
  ⟨inv_ready 64 _ (by decide) (by decide) (by decide), ready_64 _, rfl, by decide⟩
/-- The escape pair of the frame of R232 shrinks to one byte in place. -/
theorem witness_ParseWritesOnlyValidatedFrame :
    let s := ready 64 frame13
    Inv s ∧ channelReady s 0 ∧ exec (.parse 0) s = .next (runParse 0 s) ∧ (runParse 0 s).rbByte 0 5 ≠ s.rbByte 0 5 :=
  ⟨inv_ready 64 _ (by decide) (by decide) (by decide), ready_64 _, rfl, by decide⟩
theorem witness_DrainTerminates : Inv (ready 64 [0xD3, 0xFF, 0x24, 0x0A]) ∧ channelReady (ready 64 [0xD3, 0xFF, 0x24, 0x0A]) 0 :=
  ⟨inv_ready 64 _ (by decide) (by decide) (by decide), ready_64 _⟩
/-- A frame with two payload bytes that just fits. -/
theorem witness_UbloxScenario :
    let s := ready 10 []
    Inv s ∧ channelReady s 0 ∧ (s.chan 0).pstate = .idle ∧ (s.chan 0).scan = (s.chan 0).tail ∧
      (s.chan 0).mask.getLsbD 2 = true ∧ ([7, 8] : List Byte).length < 2 ^ 16 ∧
      (s.chan 0).tail.toNat + 8 + ([7, 8] : List Byte).length ≤ (s.chan 0).cap.toNat :=
  ⟨inv_ready 10 _ (by decide) (by decide) (by decide), ⟨by decide, by decide⟩, by decide, by decide, by decide, by decide,
    by decide⟩
/-- Each class; for the data class, a payload with a data header of the largest size that fits, and one without. -/
theorem witness_EscapedFrameIsJudgedAtItsStop :
    let p := Params.default
    p.lawful = true ∧ p.escKey ≠ Config.stop ∧ ([] : List Byte).length ≤ p.maxBody ∧ pidClass p 0 = .cmd ∧
      pidClass p 1 = .ack ∧ pidClass p 4 = .data ∧ dataHeader p 0x11 [] = none ∧
      (dataHeader p 0x11 [7, 0, 0, 0, 1, 0, 0, 0, 8, 0, 0, 0, 9] = some ⟨7, 1, 8⟩) ∧
      (dataHeader p 0x10 [0, 0, 0, 7, 0, 0, 0, 1, 0, 0, 3, 0xFF, 9] = some ⟨7, 1, 1023⟩) ∧
      (2 ≤ 7 ∧ 7 < (frameBytes p true 0xEF 3 0 0x10 [] 0).length) := by decide
/-- The destination of the exact worst-case size, at the end of DMEM. -/
theorem witness_EncodeCompletes :
    let s := withArgs (ready 64 []) 8188 4 8170 22
    channelReady s 0 ∧ (s.arg 1).toNat ≤ s.params.maxBody ∧
      (if s.ctrl.encEn then 2 * (s.arg 1).toNat + 14 else (s.arg 1).toNat + 8) ≤ (s.arg 3).toNat ∧
      (s.arg 0).toNat + (s.arg 1).toNat ≤ s.params.dmemSize ∧ (s.arg 2).toNat + (s.arg 3).toNat ≤ s.params.dmemSize :=
  ⟨⟨by decide, by decide⟩, by decide, by decide, by decide, by decide⟩

/-- The frame of R232 at 0x100, with a destination of `cap` bytes at 0x200 and its byte 12 replaced by `z`. -/
def decodeExample (cap : Word) (z : Byte) : State :=
  withArgs ((State.reset.dmemWrite 0x100 frame13).dmemWrite 0x10B [z]) 0x100 13 0x200 cap

/-- What the frame un-escapes to, with its last checksum byte `z`. -/
def decoded13 (z : Byte) : List Byte := [0x03, 0x01, 0x11, 0x01, 0xFE, 0x03, 0x04, 0xAF, 0xAC, z]

/-- The common hypotheses of DecodeCompletes. -/
def decodeHypotheses (s : State) (R : List Byte) : Prop :=
  (s.arg 0).toNat + (s.arg 1).toNat ≤ s.params.dmemSize ∧ (s.arg 2).toNat + (s.arg 3).toNat ≤ s.params.dmemSize ∧
    2 ≤ (s.arg 1).toNat ∧ (s.dmemByte (s.arg 0).toNat = 0xFF ∨ s.dmemByte (s.arg 0).toNat = 0xEF) ∧
    s.dmemByte ((s.arg 0).toNat + (s.arg 1).toNat - 1) = 0xFE ∧
    unescape s.params (s.dmemRead ((s.arg 0).toNat + 1) ((s.arg 1).toNat - 2)) = some R ∧ 6 ≤ R.length ∧
    R.length - 6 ≤ s.params.maxBody

theorem witness_DecodeCompletes_ok : decodeHypotheses (decodeExample 8 0x9A) (decoded13 0x9A) :=
  ⟨by decide, by decide, by decide, .inr (by decide), by decide, by decide, by decide, by decide⟩
theorem witness_DecodeCompletes_small : decodeHypotheses (decodeExample 7 0x9A) (decoded13 0x9A) :=
  ⟨by decide, by decide, by decide, .inr (by decide), by decide, by decide, by decide, by decide⟩
theorem witness_DecodeCompletes_mismatch : decodeHypotheses (decodeExample 8 0x9B) (decoded13 0x9B) :=
  ⟨by decide, by decide, by decide, .inr (by decide), by decide, by decide, by decide, by decide⟩
/-- The clauses of DECODE: a mismatch, a destination one byte too small, and a success. -/
theorem witness_DecodeCompletes_clauses :
    let expected := fun z => cksumFn Params.default.cksumOrder ([0xEF, 0x03, 0x01, 0x11] ++ ((decoded13 z).drop 3).take 4)
      &&& 0x00FFFFFF
    word24 0xAF 0xAC 0x9B ≠ expected 0x9B ∧ word24 0xAF 0xAC 0x9A = expected 0x9A ∧ 7 < 4 + 4 ∧ 4 + 4 ≤ 8 := by
  decide +kernel
theorem witness_CodecCommandsReject_encode :
    (let s := withArgs (ready 64 []) 0 1025 0 8192
     channelReady s 0 ∧ s.params.maxBody < (s.arg 1).toNat) ∧
    (let s := withArgs (ready 64 []) 8189 4 0 22
     channelReady s 0 ∧ ¬ (s.params.maxBody < (s.arg 1).toNat ∨
       (s.arg 3).toNat < (if s.ctrl.encEn then 2 * (s.arg 1).toNat + 14 else (s.arg 1).toNat + 8)) ∧
       s.params.dmemSize < (s.arg 0).toNat + (s.arg 1).toNat) :=
  ⟨⟨⟨by decide, by decide⟩, by decide⟩, ⟨by decide, by decide⟩, by decide, by decide⟩
theorem witness_CodecCommandsReject_decode :
    (let s := withArgs State.reset 8192 1 0 0
     s.params.dmemSize < (s.arg 0).toNat + (s.arg 1).toNat) ∧
    (let s := withArgs State.reset 8192 0 0 0
     ¬ (s.params.dmemSize < (s.arg 0).toNat + (s.arg 1).toNat ∨
       s.params.dmemSize < (s.arg 2).toNat + (s.arg 3).toNat) ∧ (s.arg 1).toNat < 2) := by decide
theorem witness_CodecCommandsReject_footer :
    (((withArgs State.reset 5 5 0 0).arg 0).toNat ≤ ((withArgs State.reset 5 5 0 0).arg 1).toNat) ∧
    (let s := withArgs State.reset 8193 8192 0 0
     (s.arg 1).toNat < (s.arg 0).toNat ∧ s.params.dmemSize < (s.arg 0).toNat) ∧
    (let s := withArgs (State.reset.dmemWrite 8191 [0xFE]) 8192 8189 0 0
     (s.arg 1).toNat < (s.arg 0).toNat ∧ (s.arg 0).toNat ≤ s.params.dmemSize ∧
       s.dmemByte ((s.arg 0).toNat - 1) = 0xFE ∧ (s.arg 0).toNat < (s.arg 1).toNat + 4) := by decide

/-- DECODE_BYTE at the last byte of DMEM, which holds `b`, with ESCP given by `esc`. -/
def byteExample (b : Byte) (esc : Word) : State := withArgs (State.reset.dmemWrite 8191 [b]) 8191 8190 0 esc

/-- The six clauses of DECODE_BYTE, in their order. -/
theorem witness_DecodeByteConsumesOneByte :
    (let s := withArgs State.reset 8192 0 0 0
     s.params.dmemSize < (s.arg 0).toNat + 1) ∧
    (let s := byteExample 0x01 0x100
     (s.arg 0).toNat + 1 ≤ s.params.dmemSize ∧ (s.arg 1).toNat + 1 ≤ s.params.dmemSize ∧
       (s.arg 3).getLsbD 8 = true ∧ ~~~(s.dmemByte (s.arg 0).toNat) ∈ s.params.escSet) ∧
    (let s := byteExample 0x03 0x100
     (s.arg 3).getLsbD 8 = true ∧ ~~~(s.dmemByte (s.arg 0).toNat) ∉ s.params.escSet) ∧
    (let s := byteExample 0xFD 0
     (s.arg 3).getLsbD 8 = false ∧ s.dmemByte (s.arg 0).toNat = s.params.escKey) ∧
    (let s := byteExample 0xFE 0
     (s.arg 3).getLsbD 8 = false ∧ s.dmemByte (s.arg 0).toNat ≠ s.params.escKey ∧
       s.dmemByte (s.arg 0).toNat ∈ s.params.escSet) ∧
    let s := byteExample 0x11 0
    (s.arg 3).getLsbD 8 = false ∧ s.dmemByte (s.arg 0).toNat ≠ s.params.escKey ∧
      s.dmemByte (s.arg 0).toNat ∉ s.params.escSet := by decide
/-- The frame of R232 at 0x100, decoded to 0x300. -/
theorem witness_DecodeByteLoopDecodesFrame :
    let s := withArgs (State.reset.dmemWrite 0x100 frame13) 0x101 0x300 (Config.seed + 0xEF) 1
    let F := frameBytes s.params true 0xEF 0x03 0x01 0x11 [0x01, 0xFE, 0x03, 0x04] 0x00AFAC9A
    s.params.lawful = true ∧ 0x100 + F.length ≤ s.params.dmemSize ∧ s.dmemRead 0x100 F.length = F ∧
      0x300 + 3 + 4 ≤ s.params.dmemSize ∧ 0x100 + F.length ≤ 0x300 ∧ (s.arg 0).toNat = 0x100 + 1 ∧
      (s.arg 1).toNat = 0x300 ∧ s.arg 2 = Config.seed + (0xEF : Byte).setWidth 32 ∧ s.arg 3 = 1 := by decide +kernel
/-- The frame of R232, its footer read from its end down to its second byte. -/
theorem witness_FooterOfEscapedFrame :
    let s := withArgs (State.reset.dmemWrite 0x100 frame13) 0x10D 0x101 0 0
    let F := frameBytes s.params true 0xEF 0x03 0x01 0x11 [0x01, 0xFE, 0x03, 0x04] 0x00AFAC9A
    s.params.lawful = true ∧ 0x100 + F.length ≤ s.params.dmemSize ∧ s.dmemRead 0x100 F.length = F ∧
      (s.arg 0).toNat = 0x100 + F.length ∧ (s.arg 1).toNat = 0x100 + 1 := by decide +kernel
/-- The same, for a footer at `lo` exactly; and a range too short to hold one. -/
theorem witness_DecodeFooterCompletes :
    (let s := withArgs (State.reset.dmemWrite 0x109 [0xAF, 0xAC, 0x9A, 0xFE]) 0x10D 0x109 0 0
     s.params.lawful = true ∧ (s.arg 1).toNat < (s.arg 0).toNat ∧ (s.arg 0).toNat ≤ s.params.dmemSize ∧
       s.dmemByte ((s.arg 0).toNat - 1) = 0xFE ∧ (s.arg 1).toNat ≤ 0x109 ∧
       unescape s.params (s.dmemRead 0x109 ((s.arg 0).toNat - 1 - 0x109)) = some [0xAF, 0xAC, 0x9A] ∧
       ¬ (s.arg 1).toNat < 0x109) ∧
    let s := withArgs (State.reset.dmemWrite 0x109 [0xFE]) 0x10A 0x109 0 0
    s.params.lawful = true ∧ (s.arg 1).toNat < (s.arg 0).toNat ∧ (s.arg 0).toNat ≤ s.params.dmemSize ∧
      s.dmemByte ((s.arg 0).toNat - 1) = 0xFE ∧
      (∀ q, (s.arg 1).toNat ≤ q → (s.arg 0).toNat - 1 - q = 0) := by
  refine ⟨by decide +kernel, by decide, by decide, by decide, by decide, fun q hq => ?_⟩
  have h : ((withArgs (State.reset.dmemWrite 0x109 [0xFE]) 0x10A 0x109 0 0).arg 0).toNat
      = ((withArgs (State.reset.dmemWrite 0x109 [0xFE]) 0x10A 0x109 0 0).arg 1).toNat + 1 := by decide
  omega
theorem witness_SwapIsInvolution :
    0 < ([1, 2, 3, 4, 5] : List Byte).length / 4 ∧ 3 < 4 ∧ 4 * (([1, 2, 3, 4, 5] : List Byte).length / 4) ≤ 4 := by decide
theorem witness_ConfigurationCommandsComplete :
    ((0x30000002 : Word).extractLsb' 1 23 ≠ 0 ∧ (0x30000002 : Word).extractLsb' 24 8 = 0x30) ∧
      (0x31100000 : Word).extractLsb' 1 23 ≠ 0 ∧ (0x31100000 : Word).extractLsb' 24 8 = 0x31 := by decide
theorem witness_UnescapeReversesEscape :
    Params.default.lawful = true ∧ unescape Params.default [0x01, 0xFD, 0x01] = some [0x01, 0xFE] := by decide
theorem witness_EscapedFrameShape :
    Params.default.lawful = true ∧ Params.default.escKey ≠ 0xFE ∧
      (1 ≤ 5 ∧ 5 + 1 < (frameBytes Params.default true 0xEF 3 0 0x10 [] 0).length) := by decide
/-- The payload at the end of DMEM; both buffers of the exact size the rule asks for. -/
theorem witness_EncodeDecodeRoundTrip :
    let s := withArgs (ready 64 []) 8188 4 0x100 22
    s.params.lawful = true ∧ channelReady s 0 ∧ s.ctrl.encEn = true ∧ (s.arg 1).toNat ≤ s.params.maxBody ∧
      2 * (s.arg 1).toNat + 14 ≤ (s.arg 3).toNat ∧ (s.arg 0).toNat + (s.arg 1).toNat ≤ s.params.dmemSize ∧
      (s.arg 2).toNat + (s.arg 3).toNat ≤ s.params.dmemSize ∧ 4 + (s.arg 1).toNat ≤ (8 : Word).toNat ∧
      (8184 : Word).toNat + (8 : Word).toNat ≤ s.params.dmemSize ∧
      exec (.encode 0 .v2) s = .next (runEncode 0 .v2 s) :=
  ⟨by decide, ⟨by decide, by decide⟩, by decide, by decide, by decide, by decide, by decide, by decide, by decide, rfl⟩

/-- A candidate for every clause: ublox and RTCM3 at every bound, in a buffer of 16 bytes; the last bytes of an ASCII
candidate; a sentence with a `*hh` field after a `\r`, and one without. -/
theorem witness_ForeignFrameVerdicts :
    (let F : List Byte := [0xB5, 0x62, 1, 2, 8, 0]
     6 ≤ F.length ∧ F.length < 8 + 8 ∧ 8 + ((F.getD 4 0).toNat + 256 * (F.getD 5 0).toNat) ≤ 16) ∧
    (let F : List Byte := [0xB5, 0x62, 1, 2, 9, 0]
     6 ≤ F.length ∧ 16 < 8 + ((F.getD 4 0).toNat + 256 * (F.getD 5 0).toNat)) ∧
    (let F : List Byte := [0xB5, 0x62, 1, 2, 0, 0, 3, 10]
     8 + ((F.getD 4 0).toNat + 256 * (F.getD 5 0).toNat) ≤ F.length) ∧
    (let F : List Byte := [0xD3, 0x04, 0]
     3 ≤ F.length ∧ F.getD 1 0 &&& 0xFC ≠ 0) ∧
    (let F : List Byte := [0xD3, 0, 10]
     F.getD 1 0 &&& 0xFC = 0 ∧ F.length < 6 + 10 ∧ 6 + (256 * (F.getD 1 0 &&& 0x03).toNat + (F.getD 2 0).toNat) ≤ 16) ∧
    (let F : List Byte := [0xD3, 0, 11]
     F.getD 1 0 &&& 0xFC = 0 ∧ 16 < 6 + (256 * (F.getD 1 0 &&& 0x03).toNat + (F.getD 2 0).toNat)) ∧
    (let F : List Byte := [0xD3, 0, 0, 1, 2, 3]
     F.getD 1 0 &&& 0xFC = 0 ∧ 6 + (256 * (F.getD 1 0 &&& 0x03).toNat + (F.getD 2 0).toNat) ≤ F.length) ∧
    ((0x7E : Byte) ≠ 0x0A ∧ (0x20 : Byte) ≤ 0x7E ∧ ¬ (0x7F : Byte) ≤ 0x7E) ∧
    (let F : List Byte := [0x24, 0x41, 0x2A, 0x34, 0x31, 0x0D, 0x0A]
     F.getD (F.length - 1) 0 = 0x0A ∧ (F.take 6).getD 5 0 = 0x0D ∧
       asciiCheckField (F.take 5) = some ((4 : Byte) <<< 4 ||| 1)) ∧
    asciiCheckField [0x24, 0x41] = none := by decide
/-- A candidate for every clause: no stop byte yet; a bad escape pair; too short; too long a body; and each class. -/
theorem witness_NativeFrameVerdicts :
    let p := Params.default
    (2 ≤ ([0xEF, 0x01] : List Byte).length ∧ ([0xEF, 0x01] : List Byte).getD 1 0 ≠ 0xFE) ∧
    unescape p [0xFD, 0xFE] = none ∧ (unescape p [1, 2, 3, 4, 5] = some [1, 2, 3, 4, 5]) ∧
    (let R : List Byte := List.replicate 1031 0
     6 ≤ R.length ∧ p.maxBody < R.length - 6) ∧
    (let R : List Byte := List.replicate 1030 0
     6 ≤ R.length ∧ R.length - 6 ≤ p.maxBody) ∧
    (word24 0 0 0 ≠ ck16 (cksumFn p.cksumOrder ([0xEF, 0, 0, 0] ++ []))) ∧
    (unescape p (slice frame13 1 12) = some [3, 1, 0x11, 1, 0xFE, 3, 4, 0xAF, 0xAC, 0x9A]) ∧
    word24 0xAF 0xAC 0x9A = ck24 (cksumFn p.cksumOrder [0xEF, 3, 1, 0x11, 1, 0xFE, 3, 4]) ∧
    pidClass p 3 = .cmd ∧ pidClass p 2 = .ack ∧ pidClass p 5 = .data := by decide +kernel

end Sys2Proof.Tests
end

section
/-!
PROOFS. The values after reset (10_state.md R41 to R43). First what the map answers at each register below `ARG0`, in
any state; then the accessors of the reset state.
-/

namespace Sys2Proof.Machine

/-! ## The registers below `ARG0`, in any state (R41) -/

@[simp] theorem State.register_cmd (s : State) : s.register 0x000 = s.cmd := rfl

@[simp] theorem State.register_status (s : State) : s.register 0x004 = s.status.word := rfl

@[simp] theorem State.register_ctrl (s : State) : s.register 0x008 = s.ctrl.word := rfl

@[simp] theorem State.register_nch (s : State) : s.register 0x00C = BitVec.ofNat 32 s.params.nch := rfl

@[simp] theorem State.register_capMax (s : State) : s.register 0x010 = BitVec.ofNat 32 s.params.capMax := rfl

@[simp] theorem State.register_dmemSize (s : State) : s.register 0x014 = BitVec.ofNat 32 s.params.dmemSize := rfl

@[simp] theorem State.register_maxBody (s : State) : s.register 0x018 = BitVec.ofNat 32 s.params.maxBody := rfl

@[simp] theorem State.register_maxDataset (s : State) : s.register 0x01C = BitVec.ofNat 32 s.params.maxDataset := rfl

/-! ## The reset state -/

/-- STATUS reads as zero: OPC 0x00 with the code of OK (R24, R44). -/
theorem status_word_reset : State.reset.status.word = 0x00000000 := by decide

/-- Both bits of CTRL are set (R25). -/
theorem ctrl_word_reset : State.reset.ctrl.word = 0x00000003 := by decide

@[simp] theorem State.reset_arg (i : Fin 8) : State.reset.arg i = 0x00000000 :=
  Vector.getElem_replicate i.isLt

@[simp] theorem State.reset_result (i : Fin 4) : State.reset.result i = 0x00000000 :=
  Vector.getElem_replicate i.isLt

/-- Every slot holds a channel after reset, the slots at or above `NCH` too (log entry 14). -/
@[simp] theorem State.reset_chan (c : BitVec 4) : State.reset.chan c = Channel.reset :=
  Vector.getElem_replicate (ch_lt c)

/-- Settles O13: the registers below `ARG0` through what the map answers there, the rest through the accessors of the
reset state. -/
theorem resetValues : Obligations.ResetValues := by
  refine ⟨?cmd, ?status, ?ctrl, ?nch, ?capMax, ?dmemSize, ?maxBody, ?maxDataset, State.reset_arg, State.reset_result,
    State.reset_chan⟩
  case cmd => exact State.register_cmd State.reset
  case status => exact (State.register_status State.reset).trans status_word_reset
  case ctrl => exact (State.register_ctrl State.reset).trans ctrl_word_reset
  case nch => exact State.register_nch State.reset
  case capMax => exact State.register_capMax State.reset
  case dmemSize => exact State.register_dmemSize State.reset
  case maxBody => exact State.register_maxBody State.reset
  case maxDataset => exact State.register_maxDataset State.reset

end Sys2Proof.Machine
end

section
/-!
PROOFS. The host port and the register map (10_state.md R20 to R44; 20_memory.md R87): how a step serves an access to the
register space, and what the map answers at each offset.
-/

namespace Sys2Proof.Machine

/-! ## Serving an access to the register space (R20, R41, R86, R87) -/

/-- The one access form of the register space (R86). -/
theorem registerForm_word {addr : Word} (h : addr.toNat % 4 = 0) : registerForm addr .word = true := by
  simp [registerForm, h]

/-- A step that serves a read of a register (R41). -/
theorem step_registerRead {s : State} {addr : Word} {rest : List HostOp} (hp : s.params.lawful = true)
    (h : s.port.pending = .read addr .word :: rest) (ha : addr.toNat < 0x1000) (h4 : addr.toNat % 4 = 0) :
    step s = .next (({ s with port := ⟨rest, s.port.replies⟩ } : State).reply (s.register addr.toNat)) := by
  rw [step_pending hp h, serve, serveRead, if_pos (touchesRegisters_below ha), if_pos (registerForm_word h4)]
  rfl

/-- A step that serves a write of a register: CMD runs a command, any other offset is a plain register write
(R23, R41). -/
theorem step_registerWrite {s : State} {addr v : Word} {rest : List HostOp} (hp : s.params.lawful = true)
    (h : s.port.pending = .write addr .word v :: rest) (ha : addr.toNat < 0x1000) (h4 : addr.toNat % 4 = 0) :
    step s =
      if addr = cmdAddr then runCommand v { s with port := ⟨rest, s.port.replies⟩ }
      else .next (({ s with port := ⟨rest, s.port.replies⟩ } : State).writeRegister addr.toNat v) := by
  rw [step_pending hp h, serve, serveWrite, if_pos (touchesRegisters_below ha), if_pos (registerForm_word h4)]

/-- A legal word runs its command with CMD latched (R23, R110). -/
theorem runCommand_ok {w : Word} {i : Instr} (h : decode w = .ok i) (s : State) :
    runCommand w s = exec i { s with cmd := w } := by
  rw [runCommand, h]

/-- A write of an `ARGi` stores the value (R21). -/
theorem State.writeRegister_arg (s : State) (i : Fin 8) (v : Word) :
    s.writeRegister (0x020 + 4 * i.val) v = s.setArg i v := by
  rw [State.writeRegister, argAt_argOffset]

/-- A write elsewhere is ignored (R87). -/
theorem State.writeRegister_other (s : State) {off : Nat} (h : ∀ i : Fin 8, off ≠ 0x020 + 4 * i.val) (v : Word) :
    s.writeRegister off v = s := by
  rw [State.writeRegister, argAt_none h]

/-! ## The registers from `ARG0` up, in any state (R41) -/

/-- The map is evaluated at each of the eight offsets. -/
@[simp] theorem State.register_arg (s : State) (i : Fin 8) : s.register (0x020 + 4 * i.val) = s.arg i := by
  fin_cases i <;> rfl

/-- The map is evaluated at each of the four offsets. -/
@[simp] theorem State.register_res (s : State) (i : Fin 4) : s.register (0x040 + 4 * i.val) = s.result i := by
  fin_cases i <;> rfl

/-- No register above the last channel's bank. -/
theorem State.register_above (s : State) {off : Nat} (h : 0x100 + 0x40 * s.params.nch ≤ off) : s.register off = 0 := by
  rw [State.register_high s (by omega), if_neg (by omega)]

/-- The first register of a channel's bank is its CH_STATUS (R30, R31). -/
theorem State.register_bankStatus (s : State) {c : BitVec 4} (hc : c.toNat < s.params.nch) :
    s.register (0x100 + 0x40 * c.toNat) = (s.chan c).statusWord :=
  s.register_bank hc (k := 0) (by decide)

/-! ## The statements -/

/-- Settles O6: with the queue empty a lawful step is `serveNext`'s first case. -/
theorem idleBlockHoldsState : Obligations.IdleBlockHoldsState := by
  intro s hp hidle
  rw [step, if_pos hp, serveNext, hidle]

/-- Settles O4: offset 0 is CMD, so the register write runs the command. -/
theorem stepRunsCommandWord : Obligations.StepRunsCommandWord := by
  intro s w rest i hp hpend hdec
  rw [step_registerWrite hp hpend (by decide) (by decide), if_pos (show (0 : Word) = cmdAddr from rfl),
    runCommand_ok hdec]

/-- Settles O10: no offset but 0 is CMD's, so the step is `writeRegister`. -/
theorem hostRegisterWrites : Obligations.HostRegisterWrites := by
  intro s off v rest hp hlt h4 hne hpend
  have hoff : (BitVec.ofNat 32 off).toNat = off := by
    rw [BitVec.toNat_ofNat]
    omega
  have hcmd : BitVec.ofNat 32 off ≠ cmdAddr := fun h => hne (by rw [← hoff, h]; rfl)
  have hstep := step_registerWrite hp hpend (by rwa [hoff]) (by rwa [hoff])
  rw [if_neg hcmd, hoff] at hstep
  refine ⟨fun i hi => ?arg, fun hother => ?other⟩
  case arg =>
    subst hi
    rw [hstep, State.writeRegister_arg]
    rfl
  case other => rw [hstep, State.writeRegister_other _ hother]

/-- Settles O9: a read is served by the register map, whose answers are the lemmas above; the codes are closed facts. -/
theorem registerMapReads : Obligations.RegisterMapReads := by
  refine ⟨?read, fun s => ⟨s.register_cmd, s.register_status, s.register_ctrl, s.register_nch, s.register_capMax,
    s.register_dmemSize, s.register_maxBody, s.register_maxDataset, s.register_arg, s.register_res, ?unmapped, ?bank⟩,
    rfl, rfl, rfl, rfl, rfl⟩
  case read =>
    intro s addr rest hp ha h4 hpend
    rw [step_registerRead hp hpend ha h4]
    rfl
  case unmapped =>
    rintro off (⟨hlo, hhi⟩ | habove)
    · exact s.register_gap hlo hhi
    · exact s.register_above habove
  case bank =>
    intro c hc
    have bank : ∀ k, k < 0x40 → s.register (0x100 + 0x40 * c.toNat + k) = (s.chan c).bankRegister k :=
      fun k hk => s.register_bank hc hk
    exact ⟨s.register_bankStatus hc, bank 0x04 (by decide), bank 0x08 (by decide), bank 0x0C (by decide),
      bank 0x10 (by decide), bank 0x14 (by decide), bank 0x18 (by decide), bank 0x1C (by decide),
      bank 0x20 (by decide), bank 0x24 (by decide), bank 0x28 (by decide), bank 0x2C (by decide),
      bank 0x30 (by decide), bank 0x34 (by decide), bank 0x38 (by decide), bank 0x3C (by decide)⟩

end Sys2Proof.Machine
end

section
/-!
PROOFS. What a command may write (10_state.md R21, R25; 60_exceptions.md R250): each command's effect is taken through
its checks once, and the statements read their part off the frame that comes out.
-/

namespace Sys2Proof.Machine

/-! ## What DECODE's and DECODE_BYTE's shared operations write (R238, R240) -/

theorem State.setDecodeResults_eq (s : State) (fr : IsbFrame) :
    s.setDecodeResults fr = { s with res := (s.setDecodeResults fr).res } := by
  simp only [State.setDecodeResults, State.setRes]

theorem State.emitByte_eq (s : State) (x : Byte) :
    s.emitByte x =
      { s with args := (s.emitByte x).args, res := (s.emitByte x).res, dmem := (s.emitByte x).dmem } := by
  simp only [State.emitByte, State.setRes, State.setArg, State.dmemWrite, State.consumeByte]

/-! ## The frame of a command -/

/-- What every command keeps and writes: STATUS with its own OPC (R250), CTRL, the `ARGi` and DMEM by their own commands
only (R21, R25, R80), and never CMD, the parameters, the memory draws or the host's port. -/
structure Framed (i : Instr) (s t : State) : Prop where
  opc : t.status.opc = i.opcode
  ctrl : (∀ b, i ≠ .encEnable b) → (∀ b, i ≠ .setHostOrder b) → t.ctrl = s.ctrl
  args : i ≠ .decodeByte → t.args = s.args
  dmem : (∀ c v, i ≠ .encode c v) → i ≠ .decode → i ≠ .decodeByte → t.dmem = s.dmem
  cmd : t.cmd = s.cmd
  params : t.params = s.params
  epoch : t.epoch = s.epoch
  port : t.port = s.port

section
variable {s t : State} {i : Instr}

/-- A state that differs in STATUS, the `RESi` and the channels only is in the frame of every command. -/
theorem Framed.of_outputs
    (h : t = { s with status := ⟨i.opcode, t.status.code⟩, res := t.res, chans := t.chans }) : Framed i s t := by
  rw [h]
  exact ⟨rfl, fun _ _ => rfl, fun _ => rfl, fun _ _ _ => rfl, rfl, rfl, rfl, rfl⟩

/-- ENCODE and DECODE may change DMEM too. -/
theorem Framed.of_dmem (hi : (∃ c v, i = .encode c v) ∨ i = .decode)
    (h : t = { s with status := ⟨i.opcode, t.status.code⟩, res := t.res, dmem := t.dmem, chans := t.chans }) :
    Framed i s t := by
  rw [h]
  refine ⟨rfl, fun _ _ => rfl, fun _ => rfl, fun hencode hdecode => ?_, rfl, rfl, rfl, rfl⟩
  obtain ⟨c, v, rfl⟩ | rfl := hi
  · exact absurd rfl (hencode c v)
  · exact absurd rfl hdecode

/-- DECODE_BYTE may change its cursors and DMEM too. -/
theorem Framed.of_cursors
    (h : t = { s with status := ⟨Instr.decodeByte.opcode, t.status.code⟩, args := t.args, res := t.res, dmem := t.dmem }) :
    Framed .decodeByte s t := by
  rw [h]
  exact ⟨rfl, fun _ _ => rfl, fun h => absurd rfl h, fun _ _ h => absurd rfl h, rfl, rfl, rfl, rfl⟩

theorem Framed.raise (i : Instr) (s : State) (code : StatusCode) : Framed i s (s.raise i code) := .of_outputs rfl

/-- The channel checks stay in the frame. -/
theorem Framed.withChannel {c : BitVec 4} {run : Channel → State} (h : Framed i s (run (s.chan c))) :
    Framed i s (s.withChannel i c run) := by
  obtain ⟨_, he⟩ | ⟨code, _, he⟩ := s.withChannel_cases i c run <;> rw [he]
  · exact h
  · exact .raise i s code

theorem runInit_framed (c : BitVec 4) (s : State) : Framed (.init c) s (runInit c s) := by
  unfold runInit
  split_ifs
  · exact .raise _ s _
  · exact .of_outputs rfl
  · exact .raise _ s _

theorem runAppend_framed (c : BitVec 4) (s : State) : Framed (.append c) s (runAppend c s) := by
  refine .withChannel ?_
  dsimp only
  split_ifs
  · exact .raise _ s _
  · exact .of_outputs rfl
  · exact .raise _ s _

theorem runCksum_framed (s : State) : Framed .cksum s (runCksum s) := by
  unfold runCksum
  dsimp only
  split_ifs
  · exact .of_outputs rfl
  · exact .raise _ s _

theorem runCrc24_framed (s : State) : Framed .crc24 s (runCrc24 s) := by
  unfold runCrc24
  dsimp only
  split_ifs
  · exact .of_outputs rfl
  · exact .raise _ s _

theorem runGetbits_framed (s : State) : Framed .getbits s (runGetbits s) := by
  unfold runGetbits
  dsimp only
  split_ifs
  · exact .raise _ s _
  · exact .of_outputs rfl
  · exact .raise _ s _
  · exact .of_outputs rfl

theorem runEncode_framed (c : BitVec 4) (v : Version) (s : State) : Framed (.encode c v) s (runEncode c v s) := by
  refine .withChannel ?_
  dsimp only
  split_ifs
  · exact .raise _ s _
  · exact .raise _ s _
  · exact .raise _ s _
  · exact .of_dmem (.inl ⟨c, v, rfl⟩) rfl

theorem decodeUnpacked_framed (s : State) (fr : IsbFrame) : Framed .decode s (decodeUnpacked s fr) := by
  unfold decodeUnpacked
  split_ifs
  · exact .of_outputs rfl
  · exact .raise _ s _
  · rw [State.setDecodeResults_eq]
    exact .of_dmem (.inr rfl) rfl

theorem runDecode_framed (s : State) : Framed .decode s (runDecode s) := by
  unfold runDecode
  dsimp only
  split_ifs
  · exact .raise _ s _
  · exact .raise _ s _
  · cases unpackIsb s.params (s.dmemRead (s.arg 0).toNat (s.arg 1).toNat) with
    | malformed => exact .raise _ s _
    | tooLong => exact .raise _ s _
    | frame fr => exact decodeUnpacked_framed s fr
  · exact .raise _ s _

theorem runDecodeByte_framed (s : State) : Framed .decodeByte s (runDecodeByte s) := by
  have emitted (x : Byte) : Framed .decodeByte s ((s.emitByte x).done .decodeByte) := by
    rw [State.emitByte_eq]
    exact .of_cursors rfl
  have rejected : Framed .decodeByte s s.rejectByte := .of_cursors rfl
  unfold runDecodeByte
  dsimp only
  split_ifs
  · exact .raise _ s _
  · exact emitted _
  · exact rejected
  · exact .of_cursors rfl
  · exact rejected
  · exact emitted _

theorem runDecodeFooter_framed (s : State) : Framed .decodeFooter s (runDecodeFooter s) := by
  unfold runDecodeFooter
  dsimp only
  split_ifs
  · exact .raise _ s _
  · exact .raise _ s _
  · cases footerField s.params s.dmemByte (s.arg 1).toNat ((s.arg 0).toNat - 1) with
    | none => exact .raise _ s _
    | some field => exact .of_outputs rfl
  · exact .raise _ s _

/-- Every command answers a next state, in its frame (R250). -/
theorem exec_framed (i : Instr) (s : State) : ∃ t, exec i s = .next t ∧ Framed i s t := by
  cases i with
  | nop => exact ⟨_, exec_nop s, .of_outputs rfl⟩
  | init c => exact ⟨_, exec_init c s, runInit_framed c s⟩
  | setMask c m => exact ⟨_, exec_setMask c m s, .withChannel (.of_outputs rfl)⟩
  | append c => exact ⟨_, exec_append c s, runAppend_framed c s⟩
  | free c => exact ⟨_, exec_free c s, .withChannel (.of_outputs rfl)⟩
  | parseByte c b => exact ⟨_, exec_parseByte c b s, .withChannel (.of_outputs rfl)⟩
  | parse c => exact ⟨_, exec_parse c s, .withChannel (.of_outputs rfl)⟩
  | cksum => exact ⟨_, exec_cksum s, runCksum_framed s⟩
  | crc24 => exact ⟨_, exec_crc24 s, runCrc24_framed s⟩
  | getbits => exact ⟨_, exec_getbits s, runGetbits_framed s⟩
  | encode c v => exact ⟨_, exec_encode c v s, runEncode_framed c v s⟩
  | decode => exact ⟨_, exec_decode s, runDecode_framed s⟩
  | decodeByte => exact ⟨_, exec_decodeByte s, runDecodeByte_framed s⟩
  | decodeFooter => exact ⟨_, exec_decodeFooter s, runDecodeFooter_framed s⟩
  | encEnable b =>
    exact ⟨_, exec_encEnable b s, rfl, fun h => absurd rfl (h b), fun _ => rfl, fun _ _ _ => rfl, rfl, rfl, rfl, rfl⟩
  | setHostOrder b =>
    exact ⟨_, exec_setHostOrder b s, rfl, fun _ h => absurd rfl (h b), fun _ => rfl, fun _ _ _ => rfl, rfl, rfl, rfl,
      rfl⟩

end

/-- Settles O18, from the frame of the command. -/
theorem everyCommandWritesStatus : Obligations.EveryCommandWritesStatus := by
  intro i s
  obtain ⟨t, hexec, hframe⟩ := exec_framed i s
  exact ⟨t, hexec, hframe.opc⟩

/-- Settles O21, from the frame of the command. -/
theorem sharedStateWriters : Obligations.SharedStateWriters := by
  intro i s t hexec
  obtain ⟨u, hexec', hframe⟩ := exec_framed i s
  obtain rfl : t = u := Host.Outcome.next.inj (hexec.symm.trans hexec')
  exact ⟨hframe.ctrl, hframe.args, hframe.dmem, hframe.cmd, hframe.params, hframe.epoch, hframe.port⟩

end Sys2Proof.Machine
end

section
/-!
PROOFS. A command and a channel it does not name (10_state.md R27; 60_exceptions.md R270): its effect commutes with every
write of that channel.
-/

namespace Sys2Proof.Machine

open Sys2Proof.Safety

/-- Writing back what a channel holds changes nothing. -/
theorem State.setChan_chan (s : State) (d : BitVec 4) : s.setChan d (s.chan d) = s := by
  simp [State.setChan, State.chan]

/-- Writes of two channels commute. -/
theorem State.setChan_comm (s : State) {c d : BitVec 4} (h : d ≠ c) (x y : Channel) :
    (s.setChan d x).setChan c y = (s.setChan c y).setChan d x := by
  have e : (s.chans.set d.toNat x (ch_lt d)).set c.toNat y (ch_lt c)
      = (s.chans.set c.toNat y (ch_lt c)).set d.toNat x (ch_lt d) :=
    Vector.set_comm _ _ fun e => h (BitVec.eq_of_toNat_eq e)
  simp only [State.setChan, e]

@[simp] theorem State.dmemRead_setChan (s : State) (d : BitVec 4) (ch : Channel) :
    (s.setChan d ch).dmemRead = s.dmemRead := rfl

/-- The effect `f` commutes with a write of channel `d`: it neither reads nor changes that channel. -/
def Ignores (d : BitVec 4) (f : State → State) : Prop :=
  ∀ (s : State) (ch : Channel), f (s.setChan d ch) = (f s).setChan d ch

/-- An effect that ignores a channel leaves it as it is. -/
theorem Ignores.chan_eq {d : BitVec 4} {f : State → State} (h : Ignores d f) (s : State) :
    (f s).chan d = s.chan d := by
  have hcomm := h s (s.chan d)
  rw [State.setChan_chan] at hcomm
  rw [hcomm, State.chan_setChan_self]

section
variable {c d : BitVec 4}

/-- The channel checks on another channel. -/
theorem Ignores.withChannel (h : d ≠ c) (i : Instr) {run : State → Channel → State}
    (hrun : ∀ x, Ignores d fun s => run s x) : Ignores d fun s => s.withChannel i c (run s) := by
  intro s ch
  simp only [State.withChannel, s.chan_setChan_ne ch h, apply_ite (State.setChan · d ch), ← hrun _ s ch]
  rfl

theorem runInit_ignores (h : d ≠ c) : Ignores d (runInit c) := by
  intro s ch
  simp only [runInit, s.chan_setChan_ne ch h, s.setChan_comm h ch, apply_ite (State.setChan · d ch)]
  rfl

theorem runSetMask_ignores (h : d ≠ c) (m : BitVec 7) : Ignores d (runSetMask c m) := by
  refine .withChannel h _ fun x s ch => ?_
  dsimp only
  rw [s.setChan_comm h]
  rfl

theorem runAppend_ignores (h : d ≠ c) : Ignores d (runAppend c) := by
  refine .withChannel h _ fun x s ch => ?_
  simp only [s.setChan_comm h ch, apply_ite (State.setChan · d ch)]
  rfl

theorem runFree_ignores (h : d ≠ c) : Ignores d (runFree c) := by
  refine .withChannel h _ fun x s ch => ?_
  dsimp only
  rw [s.setChan_comm h]
  rfl

theorem runParse_ignores (h : d ≠ c) : Ignores d (runParse c) := by
  refine .withChannel h _ fun x s ch => ?_
  dsimp only
  rw [s.setChan_comm h]
  rfl

theorem runParseByte_ignores (h : d ≠ c) (b : Byte) : Ignores d (runParseByte c b) := by
  refine .withChannel h _ fun x s ch => ?_
  dsimp only
  rw [s.setChan_comm h]
  rfl

theorem runCksum_ignores : Ignores d runCksum := by
  intro s ch
  simp only [runCksum, apply_ite (State.setChan · d ch)]
  rfl

theorem runCrc24_ignores : Ignores d runCrc24 := by
  intro s ch
  simp only [runCrc24, apply_ite (State.setChan · d ch)]
  rfl

theorem runGetbits_ignores : Ignores d runGetbits := by
  intro s ch
  simp only [runGetbits, apply_ite (State.setChan · d ch)]
  rfl

theorem runEncode_ignores (h : d ≠ c) (v : Version) : Ignores d (runEncode c v) := by
  refine .withChannel h _ fun x s ch => ?_
  have houter (a : Nat) (B : List Byte) (w : Word) (y : Channel) :
      (((s.setChan d ch).dmemWrite a B).setRes 0 w).setChan c y
        = (((s.dmemWrite a B).setRes 0 w).setChan c y).setChan d ch :=
    ((s.dmemWrite a B).setRes 0 w).setChan_comm h ch y
  simp only [houter, apply_ite (State.setChan · d ch)]
  rfl

theorem decodeUnpacked_ignores (fr : IsbFrame) : Ignores d fun s => decodeUnpacked s fr := by
  intro s ch
  simp only [decodeUnpacked, apply_ite (State.setChan · d ch)]
  rfl

theorem runDecode_ignores : Ignores d runDecode := by
  intro s ch
  cases hu : unpackIsb s.params (s.dmemRead (s.arg 0).toNat (s.arg 1).toNat) <;>
  · simp only [runDecode, State.setChan_params, State.dmemRead_setChan, State.arg_setChan, hu,
      decodeUnpacked_ignores _ s ch, apply_ite (State.setChan · d ch)]
    rfl

theorem runDecodeByte_ignores : Ignores d runDecodeByte := by
  intro s ch
  simp only [runDecodeByte, apply_ite (State.setChan · d ch)]
  rfl

theorem runDecodeFooter_ignores : Ignores d runDecodeFooter := by
  intro s ch
  have hd : (s.setChan d ch).dmemByte = s.dmemByte := rfl
  cases hf : footerField s.params s.dmemByte (s.arg 1).toNat ((s.arg 0).toNat - 1) <;>
  · simp only [runDecodeFooter, State.setChan_params, hd, State.arg_setChan, hf, apply_ite (State.setChan · d ch)]
    rfl

/-- The effect of a command that does not name `d` ignores `d`. -/
theorem exec_ignores {i : Instr} (hne : channelOf i ≠ some d) :
    ∃ run, Ignores d run ∧ ∀ s, exec i s = .next (run s) := by
  have other : ∀ {c}, channelOf i = some c → d ≠ c := by
    rintro c hc rfl
    exact hne hc
  cases i with
  | nop => exact ⟨_, fun _ _ => rfl, exec_nop⟩
  | init c => exact ⟨_, runInit_ignores (other rfl), exec_init c⟩
  | setMask c m => exact ⟨_, runSetMask_ignores (other rfl) m, exec_setMask c m⟩
  | append c => exact ⟨_, runAppend_ignores (other rfl), exec_append c⟩
  | free c => exact ⟨_, runFree_ignores (other rfl), exec_free c⟩
  | parseByte c b => exact ⟨_, runParseByte_ignores (other rfl) b, exec_parseByte c b⟩
  | parse c => exact ⟨_, runParse_ignores (other rfl), exec_parse c⟩
  | cksum => exact ⟨_, runCksum_ignores, exec_cksum⟩
  | crc24 => exact ⟨_, runCrc24_ignores, exec_crc24⟩
  | getbits => exact ⟨_, runGetbits_ignores, exec_getbits⟩
  | encode c v => exact ⟨_, runEncode_ignores (other rfl) v, exec_encode c v⟩
  | decode => exact ⟨_, runDecode_ignores, exec_decode⟩
  | decodeByte => exact ⟨_, runDecodeByte_ignores, exec_decodeByte⟩
  | decodeFooter => exact ⟨_, runDecodeFooter_ignores, exec_decodeFooter⟩
  | encEnable b => exact ⟨_, fun _ _ => rfl, exec_encEnable b⟩
  | setHostOrder b => exact ⟨_, fun _ _ => rfl, exec_setHostOrder b⟩

end

/-- Settles O20: an effect that commutes with every write of `d` does not read `d`, and leaves it alone because it
commutes with the write of what `d` holds. -/
theorem channelsAreIndependent : Obligations.ChannelsAreIndependent := by
  intro i s t d hexec hne
  obtain ⟨run, hrun, heq⟩ := exec_ignores hne
  obtain rfl : run s = t := Host.Outcome.next.inj ((heq s).symm.trans hexec)
  exact ⟨hrun.chan_eq s, fun ch => by rw [heq, hrun s ch]⟩

end Sys2Proof.Machine
end

section
/-!
PROOFS. What a channel holds after a packet is reported (42_parser.md R198, R201, R206 to R208): what the verdict on a
native frame says, and the report SUCCEED leaves of the candidate it accepts.
-/

namespace Sys2Proof.Machine

open Sys2Proof.Safety

/-! ## The verdict on a native frame (R201, R206) -/

theorem slice_eq_take_drop (A : List Byte) (i j : Nat) : slice A i j = (A.drop i).take (j - i) :=
  List.drop_take

/-- A frame that unpacks, by its start byte and the unescaped bytes between its start and its stop. -/
theorem unpackIsb_fields {p : Params} {F : List Byte} {fr : IsbFrame} (h : unpackIsb p F = .frame fr) :
    ∃ R received, unescape p ((F.drop 1).take (F.length - 2)) = some R ∧ 6 ≤ R.length ∧
      fr.payload.length = R.length - 6 ∧
      fr = ⟨F.getD 0 0, R.getD 0 0, R.getD 1 0, R.getD 2 0, (R.drop 3).take (R.length - 6), received⟩ := by
  obtain ⟨_, _, _, R, hR, rfl, h6⟩ := unpackIsb_frame h
  rw [slice_eq_take_drop] at hR
  rw [splitIsb_eq _ h6, slice_eq_take_drop, Nat.add_sub_cancel_left]
  refine ⟨R, _, hR, h6, ?_, rfl⟩
  simp only [List.length_take, List.length_drop]
  omega

/-- The tag, the data region and the data header the class of the packet id calls for. -/
structure NativeFacts (p : Params) (fr : IsbFrame) (tag : ResultTag) (doff dlen : Nat) (dh : Option DataHeader) :
    Prop where
  data_iff : tag = .nativeData ↔ pidClass p fr.pid = .data
  cmd_iff : tag = .nativeCmd ↔ pidClass p fr.pid = .cmd
  plain : tag ≠ .nativeData → doff = 4 ∧ dlen = fr.payload.length
  data : tag = .nativeData → doff = 16 ∧ ∃ d : DataHeader, dh = some d ∧ dlen = d.size.toNat ∧
    d = ⟨headerField fr.flags fr.payload 0, headerField fr.flags fr.payload 4, headerField fr.flags fr.payload 8⟩

theorem classifyIsb_native {p : Params} {fr : IsbFrame} {tag : ResultTag} {doff dlen : Nat} {hdr : Word}
    {dh : Option DataHeader} (h : classifyIsb p fr = .good tag doff dlen hdr dh) :
    NativeFacts p fr tag doff dlen dh := by
  rw [classifyIsb_eq] at h
  cases hc : pidClass p fr.pid <;> simp only [hc] at h
  case data =>
    cases hd : dataHeader p fr.flags fr.payload with
    | none => rw [hd] at h; cases h
    | some d =>
      rw [hd] at h
      cases h
      have hfields := hd
      rw [dataHeader_eq] at hfields
      split_ifs at hfields
      exact ⟨by simp [hc], by simp [hc], by simp, fun _ => ⟨rfl, d, rfl, rfl, (Option.some.inj hfields).symm⟩⟩
  case cmd =>
    cases h
    exact ⟨by simp [hc], by simp [hc], fun _ => ⟨rfl, rfl⟩, by simp⟩
  case ack =>
    cases h
    exact ⟨by simp [hc], by simp [hc], fun _ => ⟨rfl, rfl⟩, by simp⟩

/-! ## The channel after a packet is reported (R198, R207) -/

section
variable {ch old : Channel} {a : Nat} {B : List Byte}

/-- A byte that was put at `a + j`. -/
theorem Channel.byteAt_put_inside (h : ch.rb = old.rb.putAll a B) (draw : Nat → Byte) {j : Nat} (hj : j < B.length) :
    ch.byteAt draw (a + j) = B.getD j 0 := by
  have hput := Channel.byteAt_putAll draw old a B (a + j)
  rw [if_pos (by omega), Nat.add_sub_cancel_left] at hput
  rw [← hput]
  exact Channel.byteAt_of_rb h draw (a + j)

/-- A byte outside the range that was put. -/
theorem Channel.byteAt_put_outside (h : ch.rb = old.rb.putAll a B) (draw : Nat → Byte) {i : Nat}
    (hi : i < a ∨ a + B.length ≤ i) : ch.byteAt draw i = old.byteAt draw i := by
  have hput := Channel.byteAt_putAll draw old a B i
  rw [if_neg (by omega)] at hput
  rw [← hput]
  exact Channel.byteAt_of_rb h draw i

end

/-- A native frame is decoded over its first bytes. -/
theorem Channel.decodeInPlace_native {env : ParseEnv} {ch : Channel} {k : Family} {F : List Byte} {fr : IsbFrame}
    (hc : ch.cand = some k) (hk : k = .isbV1 ∨ k = .isbV2) (hfr : unpackIsb env.params F = .frame fr) (s : Word) :
    ch.decodeInPlace env s F = { ch with rb := ch.rb.putAll s.toNat (fr.decoded env.hostLe) } := by
  have hisb : ch.candIsIsb = true := by
    rw [Channel.candIsIsb, hc]
    obtain rfl | rfl := hk <;> rfl
  rw [Channel.decodeInPlace, if_pos hisb, hfr]

/-- A frame of any other family is left as it came. -/
theorem Channel.decodeInPlace_foreign {env : ParseEnv} {ch : Channel} {k : Family} (hc : ch.cand = some k)
    (h1 : k ≠ .isbV1) (h2 : k ≠ .isbV2) (s : Word) (F : List Byte) : ch.decodeInPlace env s F = ch := by
  have hisb : ch.candIsIsb = false := by simp [Channel.candIsIsb, hc, h1, h2]
  rw [Channel.decodeInPlace, hisb]
  rfl

/-- The ring buffer after SUCCEED, when the frame is not native. -/
theorem Channel.succeed_foreign {env : ParseEnv} {ch : Channel} {k : Family} {F : List Byte} {tag : ResultTag}
    {doff dlen : Nat} {hdr : Word} {dh : Option DataHeader} (hc : ch.cand = some k)
    (hv : frame env.params ch.cap.toNat k F = .good tag doff dlen hdr dh) (hn : ¬ tag.native) (s p : Word) :
    hdr = 0 ∧ (ch.succeed env s p F doff dlen hdr dh).rb = ch.rb := by
  have facts := frame_good hv
  have h1 : k ≠ .isbV1 := fun e => hn (facts.isb (.inl e)).1
  have h2 : k ≠ .isbV2 := fun e => hn (facts.isb (.inr e)).1
  rw [Channel.succeed_eq, Channel.decodeInPlace_foreign hc h1 h2]
  exact ⟨(facts.foreign h1 h2).1, rfl⟩

/-- The ring buffer after SUCCEED of a native frame, with the frame that is decoded over it. -/
theorem Channel.succeed_native {env : ParseEnv} {ch : Channel} {k : Family} {F : List Byte} {tag : ResultTag}
    {doff dlen : Nat} {hdr : Word} {dh : Option DataHeader} (hc : ch.cand = some k)
    (hv : frame env.params ch.cap.toNat k F = .good tag doff dlen hdr dh) (hn : tag.native) (s p : Word) :
    ∃ fr, unpackIsb env.params F = .frame fr ∧ hdr = fr.headerWord ∧ NativeFacts env.params fr tag doff dlen dh ∧
      (ch.succeed env s p F doff dlen hdr dh).rb = ch.rb.putAll s.toNat (fr.decoded env.hostLe) := by
  have hk := (frame_good_region hv).2.2.2 hn
  obtain ⟨_, fr, hfr, _, hhdr⟩ := (frame_good hv).isb hk
  rw [Channel.succeed_eq, Channel.decodeInPlace_native hc hk hfr]
  exact ⟨fr, hfr, hhdr, classifyIsb_native (frame_good_isb hk hv hfr), rfl⟩

/-- The channel `ch` reports the frame `F` that began at offset `a` of the channel `old`, under the verdict's tag and
with its data region, header word and data header. -/
structure Channel.Reports (env : ParseEnv) (old : Channel) (a : Nat) (F : List Byte) (k : Family) (tag : ResultTag)
    (doff dlen : Nat) (hdr : Word) (dh : Option DataHeader) (ch : Channel) : Prop where
  verdict : frame env.params old.cap.toNat k F = .good tag doff dlen hdr dh
  bytes : F = bytesFrom (old.byteAt env.draw) a F.length
  start : F.getD 0 0 = k.startByte
  length : 2 ≤ F.length
  inBuffer : a + F.length ≤ old.tail.toNat
  lastTag : ch.lastTag = tag
  pktValid : ch.pktValid = true
  pstate : ch.pstate = .idle
  cand : ch.cand = none
  pktStart : ch.pktStart.toNat = a
  pktLen : ch.pktLen.toNat = F.length
  dataStart : ch.dataStart.toNat = a + doff
  dataLen : ch.dataLen.toNat = dlen
  pktHdr : ch.pktHdr = hdr
  head : ch.head.toNat = a + F.length
  scan : ch.scan = ch.head
  rxErr : ch.rxErr = old.rxErr
  lastErr : ch.lastErr = old.lastErr
  headerKept : dh = none → ch.dhdrId = old.dhdrId ∧ ch.dhdrSize = old.dhdrSize ∧ ch.dhdrOffset = old.dhdrOffset
  headerSet : ∀ d, dh = some d → ch.dhdrId = d.id ∧ ch.dhdrSize = d.size ∧ ch.dhdrOffset = d.offset
  foreign : ¬ tag.native → hdr = 0 ∧ ch.rb = old.rb
  native : tag.native → ∃ fr, unpackIsb env.params F = .frame fr ∧ hdr = fr.headerWord ∧
    NativeFacts env.params fr tag doff dlen dh ∧ ch.rb = old.rb.putAll a (fr.decoded env.hostLe)

/-- SUCCEED, with the tag kept in LAST_TAG, reports the candidate: the invariant bounds the cursors, and the verdict
bounds the data region. -/
theorem Channel.succeed_reports {env : ParseEnv} {ch : Channel} {k : Family} {tag : ResultTag} {doff dlen : Nat}
    {hdr : Word} {dh : Option DataHeader} (hp : env.params.lawful = true) (hi : ChannelInv env.params env.draw ch)
    (hs : ch.scan.toNat < ch.tail.toNat) (hst : ch.pstate = .accum) (hc : ch.cand = some k)
    (hv : frame env.params ch.cap.toNat k (ch.candidate env) = .good tag doff dlen hdr dh) :
    Channel.Reports env ch ch.head.toNat (ch.candidate env) k tag doff dlen hdr dh
      { ch.succeed env ch.head ch.scan (ch.candidate env) doff dlen hdr dh with lastTag := tag } := by
  have hcap := Params.lawful_capMax hp
  have hle := hi.cap_le
  have htail := hi.tail_le_cap
  have hhead := (hi.accum hst).2
  have hlen : (ch.candidate env).length = ch.scan.toNat + 1 - ch.head.toNat := by simp [Channel.candidate]
  have hregion := (frame_good hv).region
  have hbytes : ch.candidate env = bytesFrom (ch.byteAt env.draw) ch.head.toNat (ch.candidate env).length := by
    rw [hlen]
    rfl
  have hstart : (ch.candidate env).getD 0 0 = k.startByte :=
    (at'_bytesFrom _ _ _ 0 (by omega)).trans (hi.start_byte k hc)
  have hforeign := Channel.succeed_foreign hc hv (s := ch.head) (p := ch.scan)
  have hnative := Channel.succeed_native hc hv (s := ch.head) (p := ch.scan)
  rw [Channel.succeed_eq] at hforeign hnative ⊢
  refine ⟨hv, hbytes, hstart, by omega, by omega, rfl, rfl, rfl, rfl, rfl, ?pktLen, ?dataStart, ?dataLen, rfl, ?head,
    rfl, rfl, rfl, ?kept, ?set, hforeign, hnative⟩
  case pktLen =>
    show (BitVec.ofNat 32 (ch.candidate env).length).toNat = _
    rw [BitVec.toNat_ofNat]
    omega
  case dataStart =>
    show (ch.head + BitVec.ofNat 32 doff).toNat = _
    rw [BitVec.toNat_add, BitVec.toNat_ofNat]
    omega
  case dataLen =>
    show (BitVec.ofNat 32 dlen).toNat = _
    rw [BitVec.toNat_ofNat]
    omega
  case head =>
    show (ch.scan + 1).toNat = _
    rw [Channel.scan_succ hp hi hs]
    omega
  case kept =>
    rintro rfl
    exact ⟨rfl, rfl, rfl⟩
  case set =>
    rintro d rfl
    exact ⟨rfl, rfl, rfl⟩

section
variable {env : ParseEnv} {old mid ch : Channel} {a : Nat} {F : List Byte} {k : Family} {tag : ResultTag}
  {doff dlen : Nat} {hdr : Word} {dh : Option DataHeader}

/-- A report reads none of the fields a step that goes on may move, nor PKT_VALID. -/
theorem Channel.Reports.of_scanned (h : Channel.Reports env mid a F k tag doff dlen hdr dh ch)
    (hs : ({ old with pktValid := false } : Channel).Scanned mid) :
    Channel.Reports env old a F k tag doff dlen hdr dh ch := by
  unfold Channel.Scanned at hs
  rw [hs] at h
  exact { h with }

/-- The data region lies in the frame (R198). -/
theorem Channel.Reports.data_le (h : Channel.Reports env old a F k tag doff dlen hdr dh ch) :
    a ≤ ch.dataStart.toNat ∧ ch.dataStart.toNat + ch.dataLen.toNat ≤ a + F.length := by
  have hregion := (frame_good h.verdict).region
  rw [h.dataStart, h.dataLen]
  omega

/-- The data region, where the verdict's is known. -/
theorem Channel.Reports.data_eq (h : Channel.Reports env old a F k tag doff dlen hdr dh ch) {off len : Nat}
    (hregion : doff = off ∧ dlen = len) : ch.dataStart.toNat = a + off ∧ ch.dataLen.toNat = len := by
  obtain ⟨rfl, rfl⟩ := hregion
  exact ⟨h.dataStart, h.dataLen⟩

/-- The reported frame, read through the packet view. -/
theorem Channel.Reports.view_eq (h : Channel.Reports env old a F k tag doff dlen hdr dh ch) :
    (List.range' ch.pktStart.toNat ch.pktLen.toNat).map (old.byteAt env.draw) = F := by
  rw [h.pktStart, h.pktLen]
  exact h.bytes.symm

end

/-- A PARSE_CORE that returns a protocol's tag reports a frame (R211). -/
theorem Channel.parseCore_reports {env : ParseEnv} {ch : Channel} (hp : env.params.lawful = true)
    (hi : ChannelInv env.params env.draw ch) (hnone : (ch.parseCore env).2 ≠ .none)
    (herror : (ch.parseCore env).2 ≠ .parseError) :
    ∃ a F k doff dlen hdr dh, ch.head.toNat ≤ a ∧
      Channel.Reports env ch a F k (ch.parseCore env).2 doff dlen hdr dh (ch.parseCore env).1 := by
  obtain ⟨mid, hmid, hscanned, hhead, ⟨he, _⟩ | ⟨hs, ch', tag, he, hdone⟩⟩ := Channel.parseCore_cases hp hi <;>
    rw [he] at hnone herror ⊢
  · exact absurd rfl hnone
  · cases hdone with
    | bad => exact absurd rfl herror
    | good k tag doff dlen hdr dh hst hk hv =>
      exact ⟨_, _, k, doff, dlen, hdr, dh, hhead, (Channel.succeed_reports hp hmid hs hst hk hv).of_scanned hscanned⟩

end Sys2Proof.Machine
end

section
/-!
PROOFS. A PARSE that reports a packet (42_parser.md R196, R211, R212): how a candidate in progress comes to its verdict,
and the packet views read off the report.
-/

namespace Sys2Proof.Machine

open Sys2Proof.Safety

/-! ## A candidate in progress (R196, R211) -/

section
variable {env : ParseEnv} {ch : Channel} {k : Family}

theorem Channel.step_accum (hst : ch.pstate = .accum) : ch.step env = ch.stepAccum env := by
  simp only [Channel.step, hst]

/-- The verdict is that of the candidate's family (R197). -/
theorem Channel.verdict_eq (hc : ch.cand = some k) :
    ch.verdict env = frame env.params ch.cap.toNat k (ch.candidate env) := by
  rw [Channel.verdict, hc]
  rfl

/-- The candidate in progress takes the byte at `scan` when its verdict is "need more". -/
theorem Channel.step_needMore (hst : ch.pstate = .accum) (hc : ch.cand = some k)
    (hv : frame env.params ch.cap.toNat k (ch.candidate env) = .needMore) :
    ch.step env = ({ ch with scan := ch.scan + 1 }, .cont) := by
  rw [Channel.step_accum hst, Channel.stepAccum, Channel.verdict_eq hc, hv]

/-- The candidate in progress is reported when its verdict is good. -/
theorem Channel.step_good {tag : ResultTag} {doff dlen : Nat} {hdr : Word} {dh : Option DataHeader}
    (hst : ch.pstate = .accum) (hc : ch.cand = some k)
    (hv : frame env.params ch.cap.toNat k (ch.candidate env) = .good tag doff dlen hdr dh) :
    ch.step env = (ch.succeed env ch.head ch.scan (ch.candidate env) doff dlen hdr dh, .done tag) := by
  rw [Channel.step_accum hst, Channel.stepAccum, Channel.verdict_eq hc, hv]
  simp only [Channel.succeed_of_scan env ch (ch.scan + 1) .validating]
  rfl

/-- PARSE_CORE ends with a first step that decides. -/
theorem Channel.parseCore_done {ch' : Channel} {tag : ResultTag} (hs : ch.scan.toNat < ch.tail.toNat)
    (h : ({ ch with pktValid := false } : Channel).step env = (ch', .done tag)) :
    ch.parseCore env = ({ ch' with lastTag := tag }, tag) := by
  rw [Channel.parseCore, Channel.parseFuel, Channel.parseLoop, if_pos hs, h]

/-- A candidate in progress moves on to the byte at `scan + n` while its verdicts are "need more". -/
theorem Channel.parseCore_needMore (hp : env.params.lawful = true) (n : Nat) : ∀ {ch : Channel},
    ChannelInv env.params env.draw ch → ch.pstate = .accum → ch.cand = some k → ch.scan.toNat + n < ch.tail.toNat →
    (∀ q, ch.scan.toNat ≤ q → q < ch.scan.toNat + n →
      frame env.params ch.cap.toNat k (ch.bytes env.draw ch.head.toNat (q + 1)) = .needMore) →
    ChannelInv env.params env.draw { ch with scan := BitVec.ofNat 32 (ch.scan.toNat + n) } ∧
      ch.parseCore env = ({ ch with scan := BitVec.ofNat 32 (ch.scan.toNat + n) } : Channel).parseCore env := by
  induction n with
  | zero =>
    intro ch hi _ _ _ _
    rw [Nat.add_zero, BitVec.ofNat_toNat, BitVec.setWidth_eq]
    exact ⟨hi, rfl⟩
  | succ n ih =>
    intro ch hi hst hc hlt hmore
    have hs : ch.scan.toNat < ch.tail.toNat := by omega
    have hscan := Channel.scan_succ hp hi hs
    have hstep := Channel.step_needMore hst hc (hmore ch.scan.toNat le_rfl (by omega))
    have hinv : ChannelInv env.params env.draw { ch with scan := ch.scan + 1 } := by
      obtain ⟨ch', he, hon⟩ | ⟨ch', tag, he, _⟩ := Channel.step_cases hp hi hs <;> rw [hstep] at he <;> cases he
      exact hon.inv
    have hnext : (ch.scan + 1).toNat + n = ch.scan.toNat + (n + 1) := by omega
    have hrest := ih hinv hst hc (by simp only [hnext]; exact hlt) fun q hq1 hq2 =>
      hmore q (by simp only [hscan] at hq1; omega) (by simp only [hnext] at hq2; exact hq2)
    simp only [hnext] at hrest
    exact ⟨hrest.1, (Channel.parseCore_step hp hi hs hstep).trans hrest.2⟩

/-- A candidate whose verdict is good at the byte `p`, and "need more" before, is the frame PARSE_CORE reports (R211). -/
theorem Channel.parseCore_inProgress {tag : ResultTag} {doff dlen p : Nat} {hdr : Word} {dh : Option DataHeader}
    (hp : env.params.lawful = true) (hi : ChannelInv env.params env.draw ch) (hst : ch.pstate = .accum)
    (hc : ch.cand = some k) (hle : ch.scan.toNat ≤ p) (hlt : p < ch.tail.toNat)
    (hmore : ∀ q, ch.scan.toNat ≤ q → q < p →
      frame env.params ch.cap.toNat k (ch.bytes env.draw ch.head.toNat (q + 1)) = .needMore)
    (hv : frame env.params ch.cap.toNat k (ch.bytes env.draw ch.head.toNat (p + 1)) = .good tag doff dlen hdr dh) :
    Channel.Reports env ch ch.head.toNat (ch.bytes env.draw ch.head.toNat (p + 1)) k tag doff dlen hdr dh
        (ch.parseCore env).1 ∧ (ch.parseCore env).2 = tag := by
  have hscan : (BitVec.ofNat 32 p).toNat = p := by
    have := ch.tail.isLt
    rw [BitVec.toNat_ofNat]
    omega
  obtain ⟨n, rfl⟩ := Nat.exists_eq_add_of_le hle
  obtain ⟨hinv, hcore⟩ := Channel.parseCore_needMore hp n hi hst hc hlt hmore
  generalize BitVec.ofNat 32 (ch.scan.toNat + n) = p at hscan hinv hcore
  have hs : p.toNat < ch.tail.toNat := by omega
  rw [← hscan] at hv ⊢
  have hstep := Channel.step_good (ch := { ch with pktValid := false, scan := p }) hst hc hv
  rw [hcore, Channel.parseCore_done hs hstep]
  exact ⟨(Channel.succeed_reports hp (Channel.inv_pktValid hinv false) hs hst hc hv).of_scanned rfl, rfl⟩

end

/-! ## PARSE -/

theorem exec_parse_ready {s : State} {c : BitVec 4} (hr : channelReady s c) :
    exec (.parse c) s = .next (((s.setChan c ((s.chan c).parseCore (s.parseEnv c)).1).setRes 0
      ((s.chan c).parseCore (s.parseEnv c)).2.word).done (.parse c)) := by
  rw [exec_parse, runParse_ready hr]

/-- A PARSE that returns a protocol's tag reports the frame its packet view shows. -/
theorem exec_parse_reports {s t : State} {c : BitVec 4} (hi : Inv s) (hr : channelReady s c)
    (h : exec (.parse c) s = .next t) (hnone : (t.chan c).lastTag ≠ .none) (herror : (t.chan c).lastTag ≠ .parseError) :
    t.rbByte c = (t.chan c).byteAt (s.rbDraws c) ∧ (s.chan c).head.toNat ≤ (t.chan c).pktStart.toNat ∧
      ∃ k doff dlen dh, Channel.Reports (s.parseEnv c) (s.chan c) (t.chan c).pktStart.toNat
        ((List.range' (t.chan c).pktStart.toNat (t.chan c).pktLen.toNat).map (s.rbByte c)) k (t.chan c).lastTag doff dlen
        (t.chan c).pktHdr dh (t.chan c) := by
  rw [exec_parse_ready hr] at h
  obtain rfl := Host.Outcome.next.inj h
  simp only [State.chan_done, State.chan_setRes, State.chan_setChan_self] at hnone herror ⊢
  obtain ⟨a, F, k, doff, dlen, hdr, dh, hhead, hrep⟩ :=
    Channel.parseCore_reports (env := s.parseEnv c) hi.params_lawful (hi.channel c hr.2) hnone herror
  have hview : _ = F := hrep.view_eq
  obtain rfl := hview
  obtain rfl := hrep.pktHdr
  obtain rfl := hrep.pktStart
  exact ⟨funext (s.rbByte_setChan_self c _), hhead, k, doff, dlen, dh, hrep⟩

/-- Settles O41: both clauses come to a channel that reports a frame, the first through everything PARSE_CORE can do, the
second through the verdicts on the candidate in progress; the views are read off the report. -/
theorem parseSuccessSetsViews : Obligations.ParseSuccessSetsViews := by
  refine ⟨?reported, ?inProgress⟩
  case reported =>
    intro s t c hinv hr hexec hnone herror
    obtain ⟨hbyte, hhead, k, doff, dlen, dh, hrep⟩ := exec_parse_reports hinv hr hexec hnone herror
    obtain ⟨hlow, hhigh⟩ := hrep.data_le
    obtain ⟨hublox, hrtcm3, hwhole, _⟩ := frame_good_region hrep.verdict
    intro ch tag a F native
    refine ⟨hrep.pktValid, hrep.pstate, hrep.cand, hhead, hrep.length, hrep.head, hrep.scan,
      hrep.head.trans_le hrep.inBuffer, hlow, hhigh, hrep.rxErr, hrep.lastErr,
      ⟨k, doff, dlen, dh, hrep.start, hrep.verdict, hrep.dataStart, hrep.dataLen, hrep.headerSet⟩,
      ?header, ?ublox, ?rtcm3, ?whole, ?foreign, ?native⟩
    case header => exact fun hdata => hrep.headerKept ((frame_good hrep.verdict).header_only_data hdata)
    case ublox => exact fun htag => hrep.data_eq (hublox htag)
    case rtcm3 => exact fun htag => hrep.data_eq (hrtcm3 htag)
    case whole => exact fun htag => hrep.data_eq (hwhole htag)
    case foreign =>
      intro hforeign
      obtain ⟨hhdr, hrb⟩ := hrep.foreign hforeign
      exact ⟨hhdr, fun i => by rw [hbyte]; exact Channel.byteAt_of_rb hrb _ i⟩
    case native =>
      intro hnative
      obtain ⟨fr, hfr, hhdr, hfacts, hrb⟩ := hrep.native hnative
      obtain ⟨R, received, hR, h6, hlen, hfields⟩ := unpackIsb_fields hfr
      have hplain := hfacts.plain
      have hdecoded := fr.decoded_length s.ctrl.hostLe
      rw [hlen] at hplain
      rw [hlen, Nat.add_comm] at hdecoded
      obtain rfl := hfields
      refine ⟨R, hR, h6, hhdr, hfacts.data_iff, hfacts.cmd_iff, ?plain, ?data, ?inside, ?outside⟩
      case plain => exact fun hdata => hrep.data_eq (hplain hdata)
      case data =>
        intro hdata
        obtain ⟨rfl, d, rfl, hdlen, hd⟩ := hfacts.data hdata
        obtain ⟨hid, hsize, hoffset⟩ := hrep.headerSet d rfl
        refine ⟨hrep.dataStart, BitVec.eq_of_toNat_eq ?_, ?_, ?_, ?_⟩
        · rw [hrep.dataLen, hsize, hdlen]
        · exact hid.trans (congrArg DataHeader.id hd)
        · exact hsize.trans (congrArg DataHeader.size hd)
        · exact hoffset.trans (congrArg DataHeader.offset hd)
      case inside =>
        intro j hj
        rw [hbyte]
        exact Channel.byteAt_put_inside hrb _ (hj.trans_eq hdecoded.symm)
      case outside =>
        intro i hi
        rw [hbyte]
        exact Channel.byteAt_put_outside hrb _ (hdecoded ▸ hi)
  case inProgress =>
    intro s c k p tag doff dlen hdr dh hinv hr ch verdict hst hc hle hlt hmore hv
    obtain ⟨hrep, htag⟩ := Channel.parseCore_inProgress (env := s.parseEnv c) hinv.params_lawful (hinv.channel c hr.2)
      hst hc hle hlt hmore hv
    have hhead : (s.chan c).head.toNat ≤ p := ((hinv.channel c hr.2).accum hst).2.le.trans hle
    refine ⟨_, exec_parse_ready hr, rfl, ?_⟩
    rw [State.result_done, State.result_setRes_self, htag]
    simp only [State.chan_done, State.chan_setRes, State.chan_setChan_self]
    exact ⟨rfl, hrep.lastTag, hrep.pktValid, BitVec.eq_of_toNat_eq hrep.pktStart,
      hrep.pktLen.trans (Channel.bytes_length ..), hrep.dataStart, hrep.dataLen, hrep.pktHdr,
      hrep.head.trans (by rw [Channel.bytes_length]; omega), hrep.scan, hrep.pstate, hrep.cand, hrep.headerSet⟩

end Sys2Proof.Machine
end

section
/-!
PROOFS. Accesses through the host address map (20_memory.md R83 to R86): the register space refuses every other access
form; a read of the DMEM and RB windows is assembled from the bytes of the window; a write reaches DMEM only.
-/

namespace Sys2Proof.Machine

/-! ## The register space (R86) -/

/-- The register space has one access form (R86). -/
theorem registerForm_iff {addr : Word} {w : Width} : registerForm addr w = true ↔ w = .word ∧ addr.toNat % 4 = 0 := by
  simp [registerForm]

/-- Settles O8: the access touches the register space, so without its form it is refused whether it reads or writes. -/
theorem registerAccessForm : Obligations.RegisterAccessForm := by
  intro s addr v w rest hp ha hform
  have htouch := touchesRegisters_below (w := w) ha
  have hbad : ¬ registerForm addr w = true := fun h => hform (registerForm_iff.1 h)
  refine ⟨fun hread => ?read, fun hwrite => ?write⟩
  case read => rw [step_pending hp hread, serve, serveRead, if_pos htouch, if_neg hbad]
  case write => rw [step_pending hp hwrite, serve, serveWrite, if_pos htouch, if_neg hbad]

/-! ## The bytes of a window access (R84, R85) -/

theorem Width.count_pos (w : Width) : 0 < w.count := by cases w <;> decide

/-- An access whose first byte is above the register space. -/
theorem touchesRegisters_of_le {addr : Word} {w : Width} (h : 0x1000 ≤ addr.toNat) :
    touchesRegisters addr w = false := by
  simpa using touchesRegisters_above (w := w) h addr.isLt

/-- A read returns the bytes of the window little-endian, 0 where the window has none and past the access's end
(R84, R85; log entry 10). -/
theorem State.windowRead_of_bytes {s : State} {addr : Word} {w : Width} {mapped : Nat → Prop} [DecidablePred mapped]
    {byte : Nat → Byte}
    (h : ∀ k, k < w.count → s.windowByte (accessAddr addr k) = if mapped k then byte k else 0) :
    s.windowRead addr w =
      let b := fun k => if k < w.count ∧ mapped k then byte k else 0
      b 3 ++ b 2 ++ b 1 ++ b 0 := by
  have hb : ∀ k, (if k < w.count then s.windowByte (accessAddr addr k) else 0)
      = if k < w.count ∧ mapped k then byte k else 0 := by
    intro k
    by_cases hk : k < w.count
    · simp only [hk, if_true, true_and, h k hk]
    · simp only [hk, if_false, false_and]
  simp only [State.windowRead, le32, hb]

/-- The little-endian bytes of a word are the word (R10, R11). -/
theorem le32_byteOf (v : Word) : byteOf v 3 ++ byteOf v 2 ++ byteOf v 1 ++ byteOf v 0 = v := by
  apply BitVec.eq_of_toNat_eq
  have hv := v.isLt
  change (le32 (byteOf v 0) (byteOf v 1) (byteOf v 2) (byteOf v 3)).toNat = v.toNat
  simp only [le32_toNat, byteOf_toNat]
  omega

/-! ## The DMEM window (R84) -/

section Dmem

variable {s : State} {o : Nat} {w : Width}

/-- An access inside the DMEM window is above the register space (R83). -/
theorem touchesRegisters_dmem (h : o + w.count ≤ 0x00100000) :
    touchesRegisters (BitVec.ofNat 32 (0x00100000 + o)) w = false := by
  have hpos := w.count_pos
  exact touchesRegisters_above (by omega) (by omega)

/-- A read inside the DMEM window (R84). -/
theorem State.windowRead_dmem (h : o + w.count ≤ 0x00100000) :
    s.windowRead (BitVec.ofNat 32 (0x00100000 + o)) w =
      let b := fun k => if k < w.count ∧ o + k < s.params.dmemSize then s.dmemByte (o + k) else 0
      b 3 ++ b 2 ++ b 1 ++ b 0 := by
  have hpos := w.count_pos
  rw [State.windowRead_of_bytes fun k hk => by
    rw [accessAddr_ofNat (by omega), Nat.add_assoc, State.windowByte_dmem s (by omega)]]

/-- A word whose bytes all lie in DMEM reads as the word they spell (R84). -/
theorem State.windowRead_dmem_word {v : Word} (hin : o + 4 ≤ 0x00100000) (hsize : o + 4 ≤ s.params.dmemSize)
    (hbytes : ∀ k, k < 4 → s.dmemByte (o + k) = byteOf v k) :
    s.windowRead (BitVec.ofNat 32 (0x00100000 + o)) .word = v := by
  have hb : ∀ k, k < 4 →
      (if k < Width.word.count ∧ o + k < s.params.dmemSize then s.dmemByte (o + k) else 0) = byteOf v k := by
    intro k hk
    rw [if_pos ⟨hk, by omega⟩, hbytes k hk]
  rw [State.windowRead_dmem hin]
  simp only [hb 0 (by decide), hb 1 (by decide), hb 2 (by decide), hb 3 (by decide)]
  exact le32_byteOf v

/-- A step that serves a write inside the DMEM window: the value's low bytes land below DMEM_SIZE, and nothing else
changes (R84). -/
theorem step_dmemWrite {v : Word} {rest : List HostOp} (hp : s.params.lawful = true)
    (h : s.port.pending = .write (BitVec.ofNat 32 (0x00100000 + o)) w v :: rest) (hin : o + w.count ≤ 0x00100000) :
    ∃ t : State, step s = .next t ∧ t = { s with dmem := t.dmem, port := ⟨rest, s.port.replies⟩ } ∧
      ∀ a, t.dmemByte a
        = if o ≤ a ∧ a < o + w.count ∧ a < s.params.dmemSize then byteOf v (a - o) else s.dmemByte a :=
  ⟨_, step_windowWrite hp h (touchesRegisters_dmem hin),
    State.windowWrite_dmem { s with port := ⟨rest, s.port.replies⟩ } w v hin⟩

end Dmem

/-- Settles O11: `step_dmemWrite` says what a write leaves at every DMEM address, `windowRead_dmem` what a read returns;
the read-back is a read of the four bytes that the write left. -/
theorem dmemWindowReadsBackWrites : Obligations.DmemWindowReadsBackWrites := by
  intro s o v w rest n addr hp hin
  have hn : n = w.count := by cases w <;> rfl
  rw [hn] at hin ⊢
  refine ⟨fun hwrite => ?write, fun hread => ?read, fun hboth hsize => ?back⟩
  case write =>
    obtain ⟨t, hstep, hframe, hbytes⟩ := step_dmemWrite hp hwrite hin
    refine ⟨t, hstep, hframe, fun k hk hlt => ?stored, fun a ha => ?kept⟩
    case stored =>
      rw [hbytes, if_pos (by omega), Nat.add_sub_cancel_left]
      rfl
    case kept => rw [hbytes, if_neg (by omega)]
  case read => rw [step_windowRead hp hread (touchesRegisters_dmem hin), State.windowRead_dmem hin]
  case back =>
    have hword : o + 4 ≤ 0x00100000 := hsize.trans (Params.lawful_dmemSize hp)
    obtain ⟨u, hfirst, hframe, hbytes⟩ := step_dmemWrite hp hboth hword
    have hparams : u.params = s.params := by rw [hframe]
    have hport : u.port = ⟨.read addr .word :: rest, s.port.replies⟩ := by rw [hframe]
    have hstored : ∀ k, k < 4 → u.dmemByte (o + k) = byteOf v k := fun k hk => by
      rw [hbytes, if_pos ⟨by omega, Nat.add_lt_add_left hk o, by omega⟩, Nat.add_sub_cancel_left]
    have hvalue : u.windowRead addr .word = v := State.windowRead_dmem_word hword (hparams ▸ hsize) hstored
    have hsecond := step_windowRead (hparams ▸ hp) (by rw [hport]) (touchesRegisters_dmem (w := .word) hword)
    rw [hvalue, hport] at hsecond
    exact ⟨_, ⟨u, hfirst, _, hsecond, rfl⟩, by rw [hframe]⟩

/-! ## The RB windows and the unmapped ranges (R83, R85) -/

/-- Settles O12: the bytes of an RB window access are ring-buffer bytes and those of an unmapped access are none, and no
byte of either lies in the DMEM window, the only one a write reaches. -/
theorem rbWindowIsReadOnly : Obligations.RbWindowIsReadOnly := by
  refine ⟨?window, ?unmapped⟩
  case window =>
    intro s c i v w rest n addr hp hin
    have hn : n = w.count := by cases w <;> rfl
    rw [hn] at hin ⊢
    have hpos := w.count_pos
    have hc := c.isLt
    have htouch : touchesRegisters addr w = false := touchesRegisters_above (by omega) (by omega)
    have haddr : ∀ k, accessAddr addr k = 0x01000000 + 0x00100000 * c.toNat + (i + k) := fun k => by
      rw [accessAddr_ofNat (by omega), Nat.add_assoc]
    refine ⟨fun hread => ?read, fun hwrite => ?write⟩
    case read =>
      rw [step_windowRead hp hread htouch, State.windowRead_of_bytes fun k hk => by
        rw [haddr, State.windowByte_rb s c (by omega)]]
    case write =>
      rw [step_windowWrite hp hwrite htouch, State.windowWrite_outside _ v fun k _ => by rw [haddr]; omega]
  case unmapped =>
    intro s addr v w rest n a hp hrange
    have hn : n = w.count := by cases w <;> rfl
    rw [hn] at hrange
    have htouch : touchesRegisters addr w = false := touchesRegisters_of_le (by omega)
    have hunmapped : ∀ k, k < w.count → unmapped (accessAddr addr k) := fun k hk => by
      simp only [unmapped, accessAddr]
      omega
    refine ⟨fun hread => ?read, fun hwrite => ?write⟩
    case read => rw [step_windowRead hp hread htouch, State.windowRead_unmapped s hunmapped]
    case write =>
      rw [step_windowWrite hp hwrite htouch, State.windowWrite_outside _ v fun k hk => ?_]
      have := hunmapped k hk
      unfold unmapped at this
      omega

end Sys2Proof.Machine
end

section
/-!
PROOFS. The decoder and the encoder (30_encoding.md R110 to R118). A word is read as its opcode byte over 24 operand
bits, and each format's check as a condition on the operand bits; from that decoding inverts encoding both ways, and
the opcode map's masks say which bits the check looks at.
-/

namespace Sys2Proof

/-! ## Bit fields -/

/-- A field is the concatenation of two exactly when its upper and lower parts are those two. -/
theorem extractLsb'_eq_append_iff {w n m : Nat} (x : BitVec w) (start : Nat) (a : BitVec n) (b : BitVec m) :
    x.extractLsb' start (n + m) = a ++ b ↔ x.extractLsb' (start + m) n = a ∧ x.extractLsb' start m = b := by
  rw [← BitVec.extractLsb'_append_extractLsb'_eq_extractLsb' rfl]
  constructor
  · intro h
    exact ⟨by simpa only [BitVec.extractLsb'_append_eq_left] using congrArg (BitVec.extractLsb' m n) h,
      by simpa only [BitVec.extractLsb'_append_eq_right] using congrArg (BitVec.extractLsb' 0 m) h⟩
  · rintro ⟨rfl, rfl⟩
    rfl

theorem extractLsb'_eq_append_append_iff {w n m k : Nat} (x : BitVec w) (start : Nat) (a : BitVec n) (b : BitVec m)
    (c : BitVec k) : x.extractLsb' start (n + m + k) = a ++ b ++ c ↔
      x.extractLsb' (start + k + m) n = a ∧ x.extractLsb' (start + k) m = b ∧ x.extractLsb' start k = c := by
  rw [extractLsb'_eq_append_iff, extractLsb'_eq_append_iff, and_assoc]

/-- A one-bit field holds its bit. -/
theorem extractLsb'_one_eq_ofBool_iff {w k : Nat} {x : BitVec w} {b : Bool} :
    x.extractLsb' k 1 = BitVec.ofBool b ↔ x.getLsbD k = b := by
  have h : x.extractLsb' k 1 = BitVec.ofBool (x.getLsbD k) := by
    ext j hj
    obtain rfl : j = 0 := by omega
    simp
  rw [h]
  cases x.getLsbD k <;> cases b <;> decide

/-- The `n`-bit mask of the field of `len` bits at `start`. -/
def fieldMask (n start len : Nat) : BitVec n := (BitVec.allOnes len).setWidth n <<< start

theorem getLsbD_fieldMask {n start len j : Nat} :
    (fieldMask n start len).getLsbD j = decide (j < n ∧ start ≤ j ∧ j < start + len) := by
  rw [fieldMask, Bool.eq_iff_iff]
  simp only [BitVec.getLsbD_shiftLeft, BitVec.getLsbD_setWidth, BitVec.getLsbD_allOnes,
    Bool.and_eq_true, Bool.not_eq_true', decide_eq_true_eq, decide_eq_false_iff_not]
  omega

theorem and_fieldMask_eq_zero_iff {n start len : Nat} (hfit : start + len ≤ n) {x : BitVec n} :
    x &&& fieldMask n start len = 0 ↔ x.extractLsb' start len = 0 := by
  simp only [BitVec.eq_of_getLsbD_eq_iff, BitVec.getLsbD_and, getLsbD_fieldMask, BitVec.getLsbD_extractLsb',
    BitVec.ofNat_eq_ofNat, BitVec.getLsbD_zero, Bool.and_eq_false_iff, decide_eq_false_iff_not]
  constructor
  · intro h k hk
    exact .inr ((h (start + k) (by omega)).resolve_right fun hout => hout (by omega))
  · intro h j hj
    by_cases hin : start ≤ j ∧ j < start + len
    · have hbit := (h (j - start) (by omega)).resolve_left fun hout => hout (by omega)
      rw [Nat.add_sub_cancel' hin.1] at hbit
      exact .inl hbit
    · exact .inr fun h => hin h.2

/-! ## A word as its opcode and its operand bits (R110, R111) -/

/-- A word is a command's word exactly when it has the command's opcode and operand bits. -/
theorem encode_eq_iff {i : Instr} {w : Word} :
    encode i = w ↔ wordOpc w = i.opcode ∧ w.extractLsb' 0 24 = operandBits i := by
  have h := extractLsb'_eq_append_iff w 0 i.opcode (operandBits i)
  rw [BitVec.extractLsb'_eq_self] at h
  exact eq_comm.trans h

/-- The bit `VER` of R114. -/
def Version.bit : Version → Bool
  | .v1 => false
  | .v2 => true

theorem wordVer_eq_iff {w : Word} {v : Version} : wordVer w = v ↔ w.getLsbD 0 = v.bit := by
  unfold wordVer
  cases w.getLsbD 0 <;> cases v <;> decide

theorem operandBits_encode (c : BitVec 4) (v : Version) :
    operandBits (.encode c v) = c ++ (0 : BitVec 19) ++ BitVec.ofBool v.bit := by
  revert c
  cases v <;> decide

/-! ## What each format's check accepts (R110 step 3, R111) -/

section
variable {w : Word} {i : Instr}

theorem ite_error_eq_ok_iff {p : Prop} [Decidable p] {j : Instr} {e : Illegal} :
    (if p then .ok j else .error e : Except Illegal Instr) = .ok i ↔ p ∧ j = i := by
  split <;> simp [*]

theorem formatN_eq_ok_iff {j : Instr} : formatN w j = .ok i ↔ w.extractLsb' 0 24 = 0 ∧ j = i :=
  ite_error_eq_ok_iff

theorem formatC_eq_ok_iff {f : BitVec 4 → Instr} :
    formatC w f = .ok i ↔ ∃ c, w.extractLsb' 0 24 = c ++ (0 : BitVec 20) ∧ f c = i := by
  have fields (c : BitVec 4) : w.extractLsb' 0 24 = c ++ (0 : BitVec 20) ↔ wordCh w = c ∧ w.extractLsb' 0 20 = 0 :=
    extractLsb'_eq_append_iff w 0 c (0 : BitVec 20)
  simp only [formatC, ite_error_eq_ok_iff, fields, and_assoc, exists_eq_left']

theorem formatCB_eq_ok_iff {f : BitVec 4 → Byte → Instr} :
    formatCB w f = .ok i ↔ ∃ c b, w.extractLsb' 0 24 = c ++ (0 : BitVec 12) ++ b ∧ f c b = i := by
  have fields (c : BitVec 4) (b : Byte) : w.extractLsb' 0 24 = c ++ (0 : BitVec 12) ++ b ↔
      wordCh w = c ∧ w.extractLsb' 8 12 = 0 ∧ w.extractLsb' 0 8 = b :=
    extractLsb'_eq_append_append_iff w 0 c (0 : BitVec 12) b
  simp only [formatCB, ite_error_eq_ok_iff, fields, and_assoc, exists_and_left, exists_eq_left']

theorem formatCM_eq_ok_iff {f : BitVec 4 → BitVec 7 → Instr} :
    formatCM w f = .ok i ↔ ∃ c m, w.extractLsb' 0 24 = c ++ (0 : BitVec 13) ++ m ∧ f c m = i := by
  have fields (c : BitVec 4) (m : BitVec 7) : w.extractLsb' 0 24 = c ++ (0 : BitVec 13) ++ m ↔
      wordCh w = c ∧ w.extractLsb' 7 13 = 0 ∧ w.extractLsb' 0 7 = m :=
    extractLsb'_eq_append_append_iff w 0 c (0 : BitVec 13) m
  simp only [formatCM, ite_error_eq_ok_iff, fields, and_assoc, exists_and_left, exists_eq_left']

theorem formatCV_eq_ok_iff {f : BitVec 4 → Version → Instr} :
    formatCV w f = .ok i ↔ ∃ c v, w.extractLsb' 0 24 = c ++ (0 : BitVec 19) ++ BitVec.ofBool v.bit ∧ f c v = i := by
  have fields (c : BitVec 4) (v : Version) : w.extractLsb' 0 24 = c ++ (0 : BitVec 19) ++ BitVec.ofBool v.bit ↔
      wordCh w = c ∧ w.extractLsb' 1 19 = 0 ∧ wordVer w = v := by
    rw [wordVer_eq_iff, ← extractLsb'_one_eq_ofBool_iff]
    exact extractLsb'_eq_append_append_iff w 0 c (0 : BitVec 19) (BitVec.ofBool v.bit)
  simp only [formatCV, ite_error_eq_ok_iff, fields, and_assoc, exists_and_left, exists_eq_left']

theorem formatB_eq_ok_iff {f : Bool → Instr} :
    formatB w f = .ok i ↔ ∃ b, w.extractLsb' 0 24 = (0 : BitVec 23) ++ BitVec.ofBool b ∧ f b = i := by
  have fields (b : Bool) : w.extractLsb' 0 24 = (0 : BitVec 23) ++ BitVec.ofBool b ↔
      w.extractLsb' 1 23 = 0 ∧ w.getLsbD 0 = b := by
    rw [← extractLsb'_one_eq_ofBool_iff]
    exact extractLsb'_eq_append_iff w 0 (0 : BitVec 23) (BitVec.ofBool b)
  simp only [formatB, ite_error_eq_ok_iff, fields, and_assoc, exists_and_left, exists_eq_left']

end

/-! ## Decoding inverts encoding -/

/-- Settles O1: the opcode byte selects the command's own format, and the operand bits are of its shape. -/
theorem decodeOfEncode : Obligations.DecodeOfEncode := by
  intro i
  have hopc := wordOpc_encode i
  have hbits := operands_encode i
  unfold decode
  rw [hopc]
  cases i with
  | nop | cksum | crc24 | getbits | decode | decodeByte | decodeFooter => exact formatN_eq_ok_iff.2 ⟨hbits, rfl⟩
  | init c | append c | free c | parse c => exact formatC_eq_ok_iff.2 ⟨c, hbits, rfl⟩
  | setMask c mask => exact formatCM_eq_ok_iff.2 ⟨c, mask, hbits, rfl⟩
  | parseByte c b => exact formatCB_eq_ok_iff.2 ⟨c, b, hbits, rfl⟩
  | encode c v => exact formatCV_eq_ok_iff.2 ⟨c, v, hbits.trans (operandBits_encode c v), rfl⟩
  | encEnable b | setHostOrder b => exact formatB_eq_ok_iff.2 ⟨b, hbits, rfl⟩

section
variable {w : Word} {i : Instr} {k : Byte}

theorem encode_of_formatN {j : Instr} (hj : j.opcode = k ∧ operandBits j = 0) (hopc : wordOpc w = k)
    (h : formatN w j = .ok i) : encode i = w := by
  obtain ⟨hbits, rfl⟩ := formatN_eq_ok_iff.1 h
  exact encode_eq_iff.2 ⟨hopc.trans hj.1.symm, hbits.trans hj.2.symm⟩

theorem encode_of_formatC {f : BitVec 4 → Instr} (hf : ∀ c, (f c).opcode = k ∧ operandBits (f c) = c ++ (0 : BitVec 20))
    (hopc : wordOpc w = k) (h : formatC w f = .ok i) : encode i = w := by
  obtain ⟨c, hbits, rfl⟩ := formatC_eq_ok_iff.1 h
  exact encode_eq_iff.2 ⟨hopc.trans (hf c).1.symm, hbits.trans (hf c).2.symm⟩

theorem encode_of_formatB {f : Bool → Instr}
    (hf : ∀ b, (f b).opcode = k ∧ operandBits (f b) = (0 : BitVec 23) ++ BitVec.ofBool b)
    (hopc : wordOpc w = k) (h : formatB w f = .ok i) : encode i = w := by
  obtain ⟨b, hbits, rfl⟩ := formatB_eq_ok_iff.1 h
  exact encode_eq_iff.2 ⟨hopc.trans (hf b).1.symm, hbits.trans (hf b).2.symm⟩

theorem encode_of_setMask (hopc : wordOpc w = 0x02) (h : formatCM w .setMask = .ok i) : encode i = w := by
  obtain ⟨c, m, hbits, rfl⟩ := formatCM_eq_ok_iff.1 h
  exact encode_eq_iff.2 ⟨hopc, hbits⟩

theorem encode_of_parseByte (hopc : wordOpc w = 0x05) (h : formatCB w .parseByte = .ok i) : encode i = w := by
  obtain ⟨c, b, hbits, rfl⟩ := formatCB_eq_ok_iff.1 h
  exact encode_eq_iff.2 ⟨hopc, hbits⟩

theorem encode_of_encode (hopc : wordOpc w = 0x20) (h : formatCV w .encode = .ok i) : encode i = w := by
  obtain ⟨c, v, hbits, rfl⟩ := formatCV_eq_ok_iff.1 h
  exact encode_eq_iff.2 ⟨hopc, hbits.trans (operandBits_encode c v).symm⟩

/-- One test of the decoder's chain of opcodes. -/
theorem encode_of_ite {p : Prop} [Decidable p] {a b : Except Illegal Instr} (ha : p → a = .ok i → encode i = w)
    (hb : b = .ok i → encode i = w) : (if p then a else b) = .ok i → encode i = w := by
  split
  next hp => exact ha hp
  next => exact hb

/-- A legal word is the word of the command it decodes to: the chain of `decode`, one test after the other. -/
theorem encode_of_decode : decode w = .ok i → encode i = w :=
  encode_of_ite (encode_of_formatN ⟨rfl, rfl⟩) <|
  encode_of_ite (encode_of_formatC fun _ => ⟨rfl, rfl⟩) <|
  encode_of_ite encode_of_setMask <|
  encode_of_ite (encode_of_formatC fun _ => ⟨rfl, rfl⟩) <|
  encode_of_ite (encode_of_formatC fun _ => ⟨rfl, rfl⟩) <|
  encode_of_ite encode_of_parseByte <|
  encode_of_ite (encode_of_formatC fun _ => ⟨rfl, rfl⟩) <|
  encode_of_ite (encode_of_formatN ⟨rfl, rfl⟩) <|
  encode_of_ite (encode_of_formatN ⟨rfl, rfl⟩) <|
  encode_of_ite (encode_of_formatN ⟨rfl, rfl⟩) <|
  encode_of_ite encode_of_encode <|
  encode_of_ite (encode_of_formatN ⟨rfl, rfl⟩) <|
  encode_of_ite (encode_of_formatN ⟨rfl, rfl⟩) <|
  encode_of_ite (encode_of_formatN ⟨rfl, rfl⟩) <|
  encode_of_ite (encode_of_formatB fun _ => ⟨rfl, rfl⟩) <|
  encode_of_ite (encode_of_formatB fun _ => ⟨rfl, rfl⟩) <|
  nofun

end

/-! ## The opcode map (R118) -/

/-- A row of the opcode map: its OPC, and the field `w[start+len-1:start]` its format reserves. -/
structure OpcodeRow where
  opc : Byte
  start : Nat
  len : Nat

/-- The match and the mask of a row: the opcode byte over zeros, and the bits of OPC and of the reserved field. -/
def OpcodeRow.matchMask (r : OpcodeRow) : Word × Word :=
  (r.opc ++ (0 : BitVec 24), BitVec.allOnes 8 ++ fieldMask 24 r.start r.len)

/-- What R110 asks of a word of the row. -/
def OpcodeRow.accepts (r : OpcodeRow) (w : Word) : Prop := wordOpc w = r.opc ∧ w.extractLsb' r.start r.len = 0

/-- The sixteen rows of R118, in the table's order. -/
def opcodeRows : List OpcodeRow :=
  [⟨0x00, 0, 24⟩, ⟨0x01, 0, 20⟩, ⟨0x02, 7, 13⟩, ⟨0x03, 0, 20⟩, ⟨0x04, 0, 20⟩, ⟨0x05, 8, 12⟩, ⟨0x06, 0, 20⟩,
    ⟨0x10, 0, 24⟩, ⟨0x11, 0, 24⟩, ⟨0x12, 0, 24⟩, ⟨0x20, 1, 19⟩, ⟨0x21, 0, 24⟩, ⟨0x22, 0, 24⟩, ⟨0x23, 0, 24⟩,
    ⟨0x30, 1, 23⟩, ⟨0x31, 1, 23⟩]

/-- A word whose OPC is in the map is legal exactly when the field its row reserves is 0 (R110 step 3). -/
theorem decode_isOk_iff_reserved {w : Word} {r : OpcodeRow} (hr : r ∈ opcodeRows) (hopc : wordOpc w = r.opc) :
    (∃ i, decode w = .ok i) ↔ w.extractLsb' r.start r.len = 0 := by
  simp only [opcodeRows, List.mem_cons, List.not_mem_nil, or_false] at hr
  rcases hr with rfl | rfl | rfl | rfl | rfl | rfl | rfl | rfl | rfl | rfl | rfl | rfl | rfl | rfl | rfl | rfl
  all_goals simp [decode, hopc, formatN, formatC, formatCB, formatCM, formatCV, formatB, ite_error_eq_ok_iff]

/-- A word whose OPC is in no row of the map is illegal (R110 step 2). -/
theorem decode_unassigned {w : Word} (h : ∀ r ∈ opcodeRows, wordOpc w ≠ r.opc) :
    decode w = .error (.unassignedOpcode (wordOpc w)) := by
  simp only [opcodeRows, List.forall_mem_cons] at h
  simp only [decode, h, if_false]

/-- A word is legal exactly when a row of the map accepts it. -/
theorem decode_isOk_iff (w : Word) : (∃ i, decode w = .ok i) ↔ ∃ r ∈ opcodeRows, r.accepts w := by
  constructor
  · rintro ⟨i, h⟩
    by_cases hmap : ∀ r ∈ opcodeRows, wordOpc w ≠ r.opc
    · rw [decode_unassigned hmap] at h
      cases h
    · push Not at hmap
      obtain ⟨r, hr, hopc⟩ := hmap
      exact ⟨r, hr, hopc, (decode_isOk_iff_reserved hr hopc).1 ⟨i, h⟩⟩
  · rintro ⟨r, hr, hopc, hreserved⟩
    exact (decode_isOk_iff_reserved hr hopc).2 hreserved

/-- The mask test of a row is its two conditions: the upper byte against OPC, the reserved field against 0. -/
theorem OpcodeRow.and_mask_eq_match_iff {r : OpcodeRow} (hfit : r.start + r.len ≤ 24) {w : Word} :
    w &&& r.matchMask.2 = r.matchMask.1 ↔ r.accepts w := by
  have parts := extractLsb'_eq_append_iff (w &&& r.matchMask.2) 0 r.opc (0 : BitVec 24)
  have hupper : (w &&& r.matchMask.2).extractLsb' 24 8 = wordOpc w := by
    rw [BitVec.extractLsb'_and, matchMask, BitVec.extractLsb'_append_eq_left, BitVec.and_allOnes, wordOpc]
  have hlower : (w &&& r.matchMask.2).extractLsb' 0 24 = w.extractLsb' 0 24 &&& fieldMask 24 r.start r.len := by
    rw [BitVec.extractLsb'_and, matchMask, BitVec.extractLsb'_append_eq_right]
  rw [BitVec.extractLsb'_eq_self, Nat.zero_add, hupper, hlower, and_fieldMask_eq_zero_iff hfit,
    BitVec.extractLsb'_extractLsb'_of_le hfit] at parts
  exact parts

theorem opcodeRows_fit : ∀ r ∈ opcodeRows, r.start + r.len ≤ 24 := by
  simp [opcodeRows]

/-- Settles O2: the table is the rows' matches and masks, and a row's mask test is its condition on the word. -/
theorem decodeIsTableMatch : Obligations.DecodeIsTableMatch := by
  intro w
  have legal : (∃ i, decode w = .ok i) ↔ ∃ row ∈ opcodeRows.map OpcodeRow.matchMask, w &&& row.2 = row.1 := by
    simp only [decode_isOk_iff, List.mem_map, exists_exists_and_eq_and]
    exact exists_congr fun r => and_congr_right fun hr => (r.and_mask_eq_match_iff (opcodeRows_fit r hr)).symm
  exact ⟨legal, fun i => encode_of_decode⟩

end Sys2Proof
end

section
/-!
PROOFS. DECODE_BYTE, one source byte at a time (30_encoding.md R117; 43_codec.md R240): the lane word it writes, the
states its three ways of ending leave, and which of them a byte takes.
-/

namespace Sys2Proof.Machine

/-! ## `ARG3` as DECODE_BYTE writes it (R117) -/

theorem laneWord_false (lane : BitVec 2) : laneWord false lane = lane.setWidth 32 := by
  revert lane
  decide

theorem laneWord_true (lane : BitVec 2) : laneWord true lane = lane.setWidth 32 ||| 0x100 := by
  revert lane
  decide

/-! ## What a byte leaves (R240) -/

section
variable (s : State)

/-- An emitted byte: written, added in its lane, the cursors and the lane moved on. -/
theorem State.emitByte_done (x : Byte) : (s.emitByte x).done .decodeByte =
    { (((((s.dmemWrite (s.arg 1).toNat [x]).setArg 0 (s.arg 0 + 1)).setArg 1 (s.arg 1 + 1)).setArg 2
        (s.arg 2 + x.setWidth 32 <<< laneShift s.params.cksumOrder (laneOf (s.arg 3)))).setArg 3
        ((laneOf (s.arg 3) + 1).setWidth 32)).setRes 0 1 with status := ⟨0x22, .ok⟩ } := by
  rw [← laneWord_false, State.setArg_comm (i := 2) (j := 3) _ _ _ (by decide),
    State.setArg_comm (i := 1) (j := 3) _ _ _ (by decide)]
  rfl

/-- A rejected byte is consumed, and ESCP is cleared. -/
theorem State.rejectByte_eq : s.rejectByte =
    { (s.setArg 0 (s.arg 0 + 1)).setArg 3 ((laneOf (s.arg 3)).setWidth 32) with status := ⟨0x22, .malformed⟩ } := by
  rw [← laneWord_false]
  rfl

/-- An escape key is consumed, ESCP is set, and `RES0` says that no byte came out. -/
theorem State.consumeKey_done : ((s.consumeByte true (laneOf (s.arg 3))).setRes 0 0).done .decodeByte =
    { ((s.setArg 0 (s.arg 0 + 1)).setArg 3 ((laneOf (s.arg 3)).setWidth 32 ||| 0x100)).setRes 0 0 with
      status := ⟨0x22, .ok⟩ } := by
  rw [← laneWord_true]
  rfl

end

/-- A cursor outside DMEM. -/
theorem runDecodeByte_oob {s : State}
    (h : s.params.dmemSize < (s.arg 0).toNat + 1 ∨ s.params.dmemSize < (s.arg 1).toNat + 1) :
    runDecodeByte s = s.raise .decodeByte .oob := by
  unfold runDecodeByte
  obtain hsrc | hdst := h
  · rw [State.inDmem_false hsrc]
    rfl
  · rw [State.inDmem_false hdst, Bool.and_false]
    rfl

/-- Settles O50: each clause picks the ending its byte takes, and that ending's state. -/
theorem decodeByteConsumesOneByte : Obligations.DecodeByteConsumesOneByte := by
  refine ⟨by decide, fun s => ⟨fun hout => ?outside, fun hsrc hdst => ?inside⟩⟩
  case outside =>
    rw [exec_decodeByte, runDecodeByte_oob hout]
    rfl
  case inside =>
    have hrun := runDecodeByte_inDmem hsrc hdst
    simp only [escpOf, inEscSet_iff] at hrun
    simp only [exec_decodeByte, hrun]
    refine ⟨fun hescp hmem => ?pair, fun hescp hmem => ?badPair, fun hescp hkey => ?key,
      fun hescp hkey hmem => ?reserved, fun hescp hkey hmem => ?literal⟩
    case pair =>
      rw [if_pos hescp, if_pos hmem, State.emitByte_done]
      rfl
    case badPair =>
      rw [if_pos hescp, if_neg hmem, State.rejectByte_eq]
      rfl
    case key =>
      rw [if_neg (Bool.eq_false_iff.1 hescp), if_pos hkey, State.consumeKey_done]
      rfl
    case reserved =>
      rw [if_neg (Bool.eq_false_iff.1 hescp), if_neg hkey, if_pos hmem, State.rejectByte_eq]
      rfl
    case literal =>
      rw [if_neg (Bool.eq_false_iff.1 hescp), if_neg hkey, if_neg hmem, State.emitByte_done]
      rfl

end Sys2Proof.Machine
end

section
/-!
PROOFS. Ring buffer and channel control (40_ring_buffer.md R140 to R149): the words of the commands with a CH field,
what each command leaves when its checks pass, and for APPEND and FREE the bytes of the channel's ring buffer.
-/

namespace Sys2Proof

/-! ## The words (R111, R118) -/

/-- A command's word as its opcode byte and its operand bits, each in its place. -/
theorem encode_eq_or (i : Instr) : encode i = i.opcode.setWidth 32 <<< 24 ||| (operandBits i).setWidth 32 := by
  rw [encode, ← BitVec.setWidth_append_eq_shiftLeft_setWidth_or, BitVec.setWidth_eq]

/-- The word of a command of format C: its OPC and its CH field. -/
theorem encode_formatC {i : Instr} {c : BitVec 4} (opc : Byte) (hopc : i.opcode = opc)
    (hbits : operandBits i = c ++ (0 : BitVec 20)) :
    encode i = opc.setWidth 32 <<< 24 ||| c.setWidth 32 <<< 20 := by
  rw [encode_eq_or, hopc, hbits, BitVec.setWidth_append_eq_shiftLeft_setWidth_or, BitVec.ofNat_eq_ofNat,
    BitVec.setWidth_zero, BitVec.or_zero]

/-- SET_MASK's word (format CM). -/
theorem encode_setMask (c : BitVec 4) (mask : BitVec 7) :
    encode (.setMask c mask) = (0x02 : Byte).setWidth 32 <<< 24 ||| c.setWidth 32 <<< 20 ||| mask.setWidth 32 := by
  rw [encode_eq_or, Instr.opcode, operandBits, BitVec.setWidth_append_append_eq_shiftLeft_setWidth_or,
    BitVec.ofNat_eq_ofNat (n := 13), BitVec.setWidth_zero, BitVec.zero_shiftLeft, BitVec.or_zero, BitVec.or_assoc]

end Sys2Proof

namespace Sys2Proof.Machine

open Sys2Proof.Safety

/-! ## NOP, INIT and SET_MASK (R140, R141, R144) -/

/-- Settles O24: a word of OPC 0 with no reserved bit set has NOP's opcode and operand bits, so it is NOP's word. -/
theorem nopCompletes : Obligations.NopCompletes := by
  refine ⟨rfl, fun w hopc hne => ?_, exec_nop⟩
  have hw : wordOpc w = 0x00 := hopc
  have hreserved : w.extractLsb' 0 24 ≠ 0 := fun hzero => hne (encode_eq_iff (i := .nop).2 ⟨hopc, hzero⟩).symm
  rw [decode, if_pos hw, formatN, if_neg hreserved, hw]

theorem State.hasChannel_true {s : State} {c : BitVec 4} (h : c.toNat < s.params.nch) : s.hasChannel c = true :=
  decide_eq_true h

theorem State.hasChannel_false {s : State} {c : BitVec 4} (h : s.params.nch ≤ c.toNat) : s.hasChannel c = false :=
  decide_eq_false (Nat.not_lt.2 h)

theorem runInit_badChannel {s : State} {c : BitVec 4} (h : s.params.nch ≤ c.toNat) :
    runInit c s = s.raise (.init c) .badChannel := by
  rw [runInit, State.hasChannel_false h, if_neg Bool.false_ne_true]

theorem runInit_badArg {s : State} {c : BitVec 4} (hc : c.toNat < s.params.nch)
    (h : s.arg 0 = 0 ∨ s.params.capMax < (s.arg 0).toNat) : runInit c s = s.raise (.init c) .badArg := by
  rw [runInit, if_pos (State.hasChannel_true hc), if_pos h]

theorem runInit_ok {s : State} {c : BitVec 4} (hc : c.toNat < s.params.nch) (hpos : 1 ≤ (s.arg 0).toNat)
    (hmax : (s.arg 0).toNat ≤ s.params.capMax) :
    runInit c s = ((s.setChan c ((s.chan c).initialized (s.arg 0))).setRes 0 (s.arg 0)).done (.init c) := by
  have hcap : ¬ (s.arg 0 = 0 ∨ s.params.capMax < (s.arg 0).toNat) := by
    rintro (hzero | hlarge)
    · simp [hzero] at hpos
    · omega
  rw [runInit, if_pos (State.hasChannel_true hc), if_neg hcap]

/-- Settles O25: each clause is one branch of INIT. -/
theorem initCompletes : Obligations.InitCompletes := by
  intro s c
  refine ⟨encode_formatC 0x01 rfl rfl, fun hch => ?badChannel, fun hch harg => ?badArg, fun hch hpos hmax => ?ok⟩
  case badChannel => rw [exec_init, runInit_badChannel hch]; rfl
  case badArg => rw [exec_init, runInit_badArg hch harg]; rfl
  case ok => rw [exec_init, runInit_ok hch hpos hmax]; rfl

theorem runSetMask_ready {s : State} {c : BitVec 4} (h : channelReady s c) (mask : BitVec 7) :
    runSetMask c mask s = (s.setChan c { s.chan c with mask := mask }).done (.setMask c mask) :=
  State.withChannel_ready h _ _

/-- Settles O26: the channel checks, and the command's one write. -/
theorem setMaskCompletes : Obligations.SetMaskCompletes := by
  intro s c mask
  refine ⟨encode_setMask c mask, fun hch => ?badChannel, fun hch hinit => ?notInit, fun hready => ?ok⟩
  case badChannel => rw [exec_setMask, runSetMask, State.withChannel_badChannel hch]; rfl
  case notInit => rw [exec_setMask, runSetMask, State.withChannel_notInit hch hinit]; rfl
  case ok => rw [exec_setMask, runSetMask_ready hready]; rfl

/-! ## APPEND (R146) -/

theorem runAppend_oob {s : State} {c : BitVec 4} (h : channelReady s c)
    (hd : s.params.dmemSize < (s.arg 0).toNat + (s.arg 1).toNat) : runAppend c s = s.raise (.append c) .oob := by
  rw [runAppend, State.withChannel_ready h]
  simp only [State.inDmem_false hd]
  rfl

theorem runAppend_full {s : State} {c : BitVec 4} (h : channelReady s c)
    (hd : (s.arg 0).toNat + (s.arg 1).toNat ≤ s.params.dmemSize)
    (hc : (s.chan c).cap.toNat < (s.chan c).tail.toNat + (s.arg 1).toNat) :
    runAppend c s = s.raise (.append c) .bufferFull := by
  rw [runAppend, State.withChannel_ready h]
  simp only [State.inDmem_true hd, if_pos hc, if_true]

@[simp] theorem State.dmemRead_length (s : State) (a n : Nat) : (s.dmemRead a n).length = n :=
  bytesFrom_length s.dmemByte a n

/-- Byte `k` of a DMEM range. -/
theorem State.dmemRead_getD (s : State) {a n k : Nat} (h : k < n) : (s.dmemRead a n).getD k 0 = s.dmemByte (a + k) :=
  at'_bytesFrom s.dmemByte a n k h

/-- Storing a DMEM range of `n` bytes changes the ring-buffer bytes and moves `tail` by `n`. -/
theorem Channel.store_dmemRead (ch : Channel) (s : State) (a : Nat) (n : Word) :
    ch.store (s.dmemRead a n.toNat) = { ch with rb := (ch.store (s.dmemRead a n.toNat)).rb, tail := ch.tail + n } := by
  simp only [Channel.store, State.dmemRead_length, BitVec.ofNat_toNat, BitVec.setWidth_eq]

/-- APPEND on a ready channel whose operands pass both checks: it writes that channel and `RES0`. -/
theorem exec_append_of_room {s : State} {c : BitVec 4} {stored : Channel} (hr : channelReady s c)
    (hsrc : (s.arg 0).toNat + (s.arg 1).toNat ≤ s.params.dmemSize)
    (hroom : (s.chan c).tail.toNat + (s.arg 1).toNat ≤ (s.chan c).cap.toNat)
    (hst : (s.chan c).store (s.dmemRead (s.arg 0).toNat (s.arg 1).toNat) = stored) :
    ∃ t, exec (.append c) s = .next t ∧
      t = { s.setRes 0 (stored.cap - stored.tail) with chans := t.chans, status := ⟨0x03, .ok⟩ } ∧
      (∀ d, d ≠ c → t.chan d = s.chan d) ∧ t.chan c = stored ∧
      ∀ k, t.rbByte c k = stored.byteAt (s.rbDraws c) k := by
  rw [exec_append, runAppend_ready hr hsrc hroom, hst]
  exact ⟨_, rfl, rfl, fun d hd => s.chan_setChan_ne stored hd.symm, s.chan_setChan_self c stored,
    s.rbByte_setChan_self c stored⟩

/-- Settles O28: the failures are the branches of APPEND in their order; when it succeeds, the bytes are those a store
puts at `tail`. -/
theorem appendCompletes : Obligations.AppendCompletes := by
  intro s c
  refine ⟨encode_formatC 0x03 rfl rfl, fun hch => ?badChannel, fun hch hinit => ?notInit, fun hready hsrc => ?oob,
    fun hready hsrc hfull => ?bufferFull, fun hready hsrc hroom => ?ok⟩
  case badChannel => rw [exec_append, runAppend, State.withChannel_badChannel hch]; rfl
  case notInit => rw [exec_append, runAppend, State.withChannel_notInit hch hinit]; rfl
  case oob => rw [exec_append, runAppend_oob hready hsrc]; rfl
  case bufferFull => rw [exec_append, runAppend_full hready hsrc hfull]; rfl
  case ok =>
    have hstored := (s.chan c).store_dmemRead s (s.arg 0).toNat (s.arg 1)
    obtain ⟨t, hexec, hframe, hothers, hchan, hbyte⟩ := exec_append_of_room hready hsrc hroom hstored
    have hlen := s.dmemRead_length (s.arg 0).toNat (s.arg 1).toNat
    refine ⟨t, hexec, hframe, hothers, ?channel, fun k hk => ?stored, fun k hk => ?kept⟩
    case channel => rw [hchan]
    case stored =>
      rw [hbyte, Channel.byteAt_put_inside rfl (s.rbDraws c) (by rwa [hlen]), s.dmemRead_getD hk]
    case kept => exact (hbyte k).trans (Channel.byteAt_put_outside rfl (s.rbDraws c) (by rwa [hlen]))

/-! ## FREE (R147 to R149) -/

/-- FREE on a ready channel, by the channel it leaves and whether it dropped a candidate: it writes that channel, `RES0`
and `RES1`. -/
theorem exec_free_of_freed {s : State} {c : BitVec 4} {ch : Channel} {dropped : Bool} (hr : channelReady s c)
    (hf : (s.chan c).freed (s.rbDraws c) = (ch, dropped)) :
    ∃ t, exec (.free c) s = .next t ∧
      t = { (s.setRes 0 (ch.cap - ch.tail)).setRes 1 (if dropped then 1 else 0) with
            chans := t.chans, status := ⟨0x04, .ok⟩ } ∧
      (∀ d, d ≠ c → t.chan d = s.chan d) ∧ t.chan c = ch ∧ ∀ k, t.rbByte c k = ch.byteAt (s.rbDraws c) k := by
  rw [exec_free, runFree_ready hr, hf]
  exact ⟨_, rfl, rfl, fun d hd => s.chan_setChan_ne ch hd.symm, s.chan_setChan_self c ch, s.rbByte_setChan_self c ch⟩

/-- COMPACT moves `scan` and `tail` by the same distance, so FREE's condition for a drop can be read off before it. -/
theorem Channel.overflowed_compact_iff (draw : Nat → Byte) (ch : Channel) :
    (Channel.compact draw ch).overflowed = true ↔
      ch.tail - ch.head = ch.cap ∧ ch.pstate ≠ .idle ∧ ch.scan = ch.tail := by
  rw [Channel.overflowed_iff]
  simp only [Channel.compact, BitVec.sub_left_inj]

/-- A ring-buffer byte after DROP_OVERFLOW: the start byte goes (R149). -/
theorem Channel.byteAt_dropOverflow (draw : Nat → Byte) (ch : Channel) (k : Nat) :
    (ch.dropOverflow draw).byteAt draw k =
      if k < ch.tail.toNat - 1 then ch.byteAt draw (k + 1) else ch.byteAt draw k := by
  rw [Channel.dropOverflow, Channel.byteAt_compact, Nat.add_comm k]
  rfl

/-- Settles O29: without a drop, FREE leaves the compacted channel. -/
theorem freeCompacts : Obligations.FreeCompacts := by
  intro s c hready ch _ _ _ hnodrop
  have hover : (Channel.compact (s.rbDraws c) { ch with pktValid := false }).overflowed = false := by
    rw [Bool.eq_false_iff, ne_eq, Channel.overflowed_compact_iff]
    exact hnodrop
  obtain ⟨t, hexec, hstate, hothers, hchan, hbyte⟩ := exec_free_of_freed hready (Channel.freed_kept _ hover)
  have hcompact := Channel.byteAt_compact (s.rbDraws c) { ch with pktValid := false }
  refine ⟨t, hexec, hstate, hothers, ?channel, fun k hk => ?moved, fun k hk => ?kept⟩
  case channel => rw [hchan]; rfl
  case moved => rw [hbyte, hcompact, if_pos hk]; rfl
  case kept => rw [hbyte, hcompact, if_neg (Nat.not_lt.2 hk)]; rfl

/-- COMPACT moves nothing when nothing has been consumed. -/
theorem Channel.compact_of_head_zero (draw : Nat → Byte) {ch : Channel} (h : ch.head = 0) :
    Channel.compact draw ch = { ch with rb := (Channel.compact draw ch).rb } ∧
      ∀ k, (Channel.compact draw ch).byteAt draw k = ch.byteAt draw k := by
  refine ⟨by simp [Channel.compact, h], fun k => ?_⟩
  rw [Channel.byteAt_compact, h]
  simp

/-- The fields DROP_OVERFLOW writes beside the ring-buffer bytes (R149). -/
theorem Channel.dropOverflow_eq (draw : Nat → Byte) (ch : Channel) :
    ch.dropOverflow draw = { ch with
      rb := (ch.dropOverflow draw).rb, head := 0, scan := 0, tail := ch.tail - 1, rxErr := ch.rxErr + 1,
      lastErr := .overflow, pstate := .idle, cand := none } := by
  simp [Channel.dropOverflow, Channel.compact]

/-- Settles O30: nothing is consumed, so COMPACT leaves the full channel as it is; FREE's condition holds of it, and
DROP_OVERFLOW takes its first byte. -/
theorem freeDropsOverflow : Obligations.FreeDropsOverflow := by
  intro s c hready ch hhead hscan htail hstate _
  obtain ⟨hcompact, hsame⟩ := Channel.compact_of_head_zero (s.rbDraws c) (ch := { ch with pktValid := false }) hhead
  have hover : (Channel.compact (s.rbDraws c) { ch with pktValid := false }).overflowed = true := by
    rw [Channel.overflowed_compact_iff]
    exact ⟨by simp only [hhead, htail, BitVec.ofNat_eq_ofNat, BitVec.sub_zero], hstate, hscan⟩
  have hfreed := Channel.freed_dropped (s.rbDraws c) hover
  generalize Channel.compact (s.rbDraws c) { ch with pktValid := false } = full at hcompact hsame hfreed
  have hfull : full.tail = ch.cap := by rw [hcompact]; exact htail
  have hcap : full.cap = ch.cap := by rw [hcompact]
  have hdropped := full.byteAt_dropOverflow (s.rbDraws c)
  simp only [hfull, hsame] at hdropped
  obtain ⟨t, hexec, hframe, hothers, hchan, hbyte⟩ := exec_free_of_freed hready hfreed
  refine ⟨t, hexec, ?frame, hothers, ?channel, fun k hk => ?moved, fun k hk => ?kept⟩
  case frame =>
    have hroom : (full.dropOverflow (s.rbDraws c)).cap - (full.dropOverflow (s.rbDraws c)).tail = 1 := by
      rw [Channel.dropOverflow_eq]
      simp [hfull, hcap]
    rw [hroom] at hframe
    exact hframe
  case channel => rw [hchan, Channel.dropOverflow_eq, hfull, hcompact]
  case moved => rw [hbyte, hdropped, if_pos hk]; rfl
  case kept => rw [hbyte, hdropped, if_neg (Nat.not_lt.2 hk)]; rfl

end Sys2Proof.Machine
end

section
/-!
PROOFS. Checksum, CRC and bit extractor (41_checksum.md R170 to R179): the running checksum as a sum of natural numbers,
the CRC on a 32-bit word, the bits of a field, and what CKSUM, CRC24 and GETBITS leave.
-/

namespace Sys2Proof.Machine

/-! ## CKSUM (R170, R171, R175) -/

/-- `WORDS(B)` by index: word `k` is made of the four bytes from `4k`, zero past the end (R170). -/
theorem wordsOf_eq_map_range (o : CksumOrder) (B : List Byte) :
    wordsOf o B = (List.range ((B.length + 3) / 4)).map fun k =>
      wordOf o (B.getD (4 * k) 0) (B.getD (4 * k + 1) 0) (B.getD (4 * k + 2) 0) (B.getD (4 * k + 3) 0) := by
  induction B using wordsOf.induct with
  | case1 => rfl
  | case2 b0 => simp [wordsOf, List.range_succ]
  | case3 b0 b1 => simp [wordsOf, List.range_succ]
  | case4 b0 b1 b2 => simp [wordsOf, List.range_succ]
  | case5 b0 b1 b2 b3 rest ih =>
    have hcount : (rest.length + 4 + 3) / 4 = (rest.length + 3) / 4 + 1 := by omega
    rw [wordsOf, ih]
    simp only [List.length_cons, hcount, List.range_succ_eq_map, List.map_cons, List.map_map]
    rfl

/-- A sum of words wraps modulo 2^32 (R171). -/
theorem foldl_add_toNat (l : List Word) : ∀ a : Word,
    (l.foldl (fun acc w => acc + w) a).toNat = (a.toNat + (l.map BitVec.toNat).sum) % 2 ^ 32 := by
  induction l with
  | nil => intro a; exact (Nat.mod_eq_of_lt a.isLt).symm
  | cons w l ih =>
    intro a
    rw [List.foldl_cons, ih, BitVec.toNat_add, Nat.mod_add_mod, List.map_cons, List.sum_cons, Nat.add_assoc]

/-- One checksum word as a number, in either byte order (R170). -/
theorem wordOf_toNat (o : CksumOrder) (b0 b1 b2 b3 : Byte) : (wordOf o b0 b1 b2 b3).toNat =
    match o with
    | .le => b0.toNat + 2 ^ 8 * b1.toNat + 2 ^ 16 * b2.toNat + 2 ^ 24 * b3.toNat
    | .be => 2 ^ 24 * b0.toNat + 2 ^ 16 * b1.toNat + 2 ^ 8 * b2.toNat + b3.toNat := by
  cases o with
  | le => exact le32_toNat b0 b1 b2 b3
  | be =>
    have hswap := le32_toNat b3 b2 b1 b0
    show (be32 b0 b1 b2 b3).toNat = 2 ^ 24 * b0.toNat + 2 ^ 16 * b1.toNat + 2 ^ 8 * b2.toNat + b3.toNat
    rw [be32_eq]
    omega

/-- Settles O32: the words by index, each as a number, in a sum that wraps. -/
theorem cksumIsSumOfWords : Obligations.CksumIsSumOfWords := by
  intro o B
  rw [cksumFn, foldl_add_toNat, wordsOf_eq_map_range, List.map_map]
  simp only [Function.comp_def, wordOf_toNat]
  rfl

/-- Settles O31: both outcomes of the range check. -/
theorem cksumCompletes : Obligations.CksumCompletes := by
  refine ⟨rfl, fun s => ⟨fun hout => ?_, fun hin => ?_⟩⟩
  · rw [exec_cksum, runCksum, State.inDmem_false hout]
    rfl
  · rw [exec_cksum, runCksum, State.inDmem_true hin]
    rfl

/-! ## CRC24 (R173, R176) -/

/-- One polynomial step of the CRC, on a 32-bit word. -/
def crcWordShift (x : Word) : Word := if (x <<< 1).getLsbD 24 then (x <<< 1) ^^^ 0x1864CFB else x <<< 1

/-- Between two steps the CRC has 24 bits: a step that shifts a bit into the 25th clears it with the polynomial. -/
theorem crcShift_msb (crc : BitVec 25) : (crcShift crc).msb = false := by
  have hmsb : (crc <<< 1).msb = (crc <<< 1).getLsbD 24 := BitVec.msb_eq_getLsbD_last _
  have hpoly : (0x1864CFB : BitVec 25).msb = true := rfl
  unfold crcShift
  split
  case isTrue h => rw [BitVec.msb_xor, hmsb, h, hpoly]; rfl
  case isFalse h => rw [hmsb]; exact Bool.eq_false_iff.2 h

/-- A value of 24 bits shifted by one is the same number in 25 bits as in 32. -/
theorem setWidth_shiftLeft_one {crc : BitVec 25} (h : crc.msb = false) :
    (crc <<< 1).setWidth 32 = crc.setWidth 32 <<< 1 := by
  have hlt := BitVec.msb_eq_false_iff_two_mul_lt.1 h
  apply BitVec.eq_of_toNat_eq
  simp only [BitVec.toNat_setWidth, BitVec.toNat_shiftLeft, Nat.shiftLeft_eq]
  omega

theorem crcShift_setWidth {crc : BitVec 25} (h : crc.msb = false) :
    (crcShift crc).setWidth 32 = crcWordShift (crc.setWidth 32) := by
  have hbit : ((crc <<< 1).setWidth 32).getLsbD 24 = (crc <<< 1).getLsbD 24 := by
    rw [BitVec.getLsbD_setWidth]
    rfl
  unfold crcShift crcWordShift
  rw [← setWidth_shiftLeft_one h, hbit]
  split
  · exact BitVec.setWidth_xor
  · rfl

/-- `n` steps of the CRC are `n` steps on the word, and leave 24 bits. -/
theorem crcShifts_setWidth (n : Nat) : ∀ {crc : BitVec 25}, crc.msb = false →
    (crcShifts n crc).msb = false ∧ (crcShifts n crc).setWidth 32 = Nat.iterate crcWordShift n (crc.setWidth 32) := by
  induction n with
  | zero => exact fun h => ⟨h, rfl⟩
  | succ n ih =>
    intro crc h
    rw [crcShifts, Function.iterate_succ_apply, ← crcShift_setWidth h]
    exact ih (crcShift_msb crc)

/-- One byte of the CRC on the word (R173). -/
theorem crcByte_setWidth {crc : BitVec 25} (h : crc.msb = false) (b : Byte) :
    (crcByte crc b).msb = false ∧
      (crcByte crc b).setWidth 32 = Nat.iterate crcWordShift 8 (crc.setWidth 32 ^^^ (b.setWidth 32 <<< 16)) := by
  have hmsb : (b.setWidth 25 <<< 16).msb = false := by
    rw [BitVec.msb_eq_false_iff_two_mul_lt]
    simp only [BitVec.toNat_setWidth, BitVec.toNat_shiftLeft, Nat.shiftLeft_eq]
    omega
  have hwiden : (b.setWidth 25 <<< 16).setWidth 32 = b.setWidth 32 <<< 16 := by
    apply BitVec.eq_of_toNat_eq
    simp only [BitVec.toNat_setWidth, BitVec.toNat_shiftLeft, Nat.shiftLeft_eq]
    omega
  rw [← hwiden, ← BitVec.setWidth_xor]
  exact crcShifts_setWidth 8 (by rw [BitVec.msb_xor, h, hmsb]; rfl)

/-- The CRC's working value has 24 bits after every byte. -/
theorem foldl_crcByte_msb (B : List Byte) : (B.foldl crcByte 0).msb = false :=
  List.foldlRecOn (motive := fun crc => crc.msb = false) B crcByte rfl fun _ h b _ => (crcByte_setWidth h b).1

/-- The CRC is the working value in a word: the 24-bit cut loses nothing (R173). -/
theorem crc24q_eq_setWidth (B : List Byte) : crc24q B = (B.foldl crcByte 0).setWidth 32 := by
  have hlt := BitVec.msb_eq_false_iff_two_mul_lt.1 (foldl_crcByte_msb B)
  unfold crc24q
  apply BitVec.eq_of_toNat_eq
  simp only [BitVec.toNat_setWidth, BitVec.extractLsb'_toNat, Nat.shiftRight_zero]
  omega

/-- One more byte: XORed into bits 23..16 and shifted out by eight steps (R173). -/
theorem crc24q_concat (B : List Byte) (b : Byte) :
    crc24q (B ++ [b]) = Nat.iterate crcWordShift 8 (crc24q B ^^^ (b.setWidth 32 <<< 16)) := by
  rw [crc24q_eq_setWidth, crc24q_eq_setWidth, List.foldl_concat]
  exact (crcByte_setWidth (foldl_crcByte_msb B) b).2

theorem crc24q_lt (B : List Byte) : (crc24q B).toNat < 2 ^ 24 := by
  unfold crc24q
  rw [BitVec.toNat_setWidth]
  exact Nat.lt_of_le_of_lt (Nat.mod_le _ _) (BitVec.isLt _)

/-- A zero byte leaves a zero CRC alone, so a string of them does (R176). -/
theorem crc24q_zeros {B : List Byte} (h : ∀ b ∈ B, b = 0) : crc24q B = 0 := by
  have hzero : crcByte 0 0 = 0 := by decide
  have hfold : B.foldl crcByte 0 = 0 :=
    List.foldlRecOn (motive := (· = 0)) B crcByte rfl fun crc hcrc b hb => by rw [hcrc, h b hb, hzero]
  rw [crc24q_eq_setWidth, hfold]
  rfl

/-- Every byte of a DMEM range is a DMEM byte. -/
theorem State.exists_of_mem_dmemRead (s : State) {a n : Nat} {b : Byte} (h : b ∈ s.dmemRead a n) :
    ∃ k < n, s.dmemByte (a + k) = b := by
  simpa [State.dmemRead, bytesFrom, List.range'_eq_map_range] using h

/-- Settles O35: the CRC byte by byte, and both outcomes of the range check. -/
theorem crc24Completes : Obligations.Crc24Completes := by
  refine ⟨⟨rfl, crc24q_concat⟩, rfl, fun s => ⟨fun hout => ?oob, fun hin => ?ok⟩⟩
  case oob =>
    rw [exec_crc24, runCrc24, State.inDmem_false hout]
    rfl
  case ok =>
    rw [exec_crc24, runCrc24, State.inDmem_true hin]
    refine ⟨_, rfl, rfl, ?_⟩
    simp only [if_true, State.result_done, State.result_setRes_self]
    refine ⟨crc24q_lt _, fun hzero => crc24q_zeros fun b hb => ?_⟩
    obtain ⟨k, hk, rfl⟩ := s.exists_of_mem_dmemRead hb
    exact hzero k hk

/-! ## GETBITS (R177, R179) -/

/-- The field GETBITS reads, bit by bit, and nothing above it (R179). -/
theorem bitsOf_getLsbD (rd : Nat → Byte) (a pos : Nat) {cnt : Nat} (hcnt : cnt ≤ 32) :
    (∀ i, i < cnt → (bitsOf rd a pos cnt).getLsbD (cnt - 1 - i) = bitAt rd a (pos + i)) ∧
      ∀ k, cnt ≤ k → (bitsOf rd a pos cnt).getLsbD k = false := by
  refine ⟨fun i hi => ?_, fun k hk => ?_⟩
  · rw [bitsOf, bitsLoop_getLsbD _ _ _ _ _ _ (by omega), if_pos (by omega)]
    congr 2
    omega
  · by_cases h32 : k < 32
    · rw [bitsOf, bitsLoop_getLsbD _ _ _ _ _ _ h32, if_neg (by omega)]
      exact BitVec.getLsbD_zero
    · exact BitVec.getLsbD_of_ge _ _ (by omega)

/-- Settles O36: the four outcomes of GETBITS's checks; a field that is read has the bits of `bitsOf_getLsbD`. -/
theorem getbitsReadsField : Obligations.GetbitsReadsField := by
  refine ⟨rfl, fun s => ⟨fun hbig => ?badArg, fun hzero => ?empty, fun hpos hcnt hout => ?oob, fun hpos hcnt hin => ?ok⟩⟩
  case badArg =>
    rw [exec_getbits, runGetbits, if_pos hbig]
    rfl
  case empty =>
    rw [exec_getbits, runGetbits, if_neg (by omega), if_pos hzero]
    rfl
  case oob =>
    rw [exec_getbits, runGetbits, if_neg (by omega), if_neg (by omega), if_pos hout]
    rfl
  case ok =>
    rw [exec_getbits, runGetbits, if_neg (by omega), if_neg (by omega), if_neg (by omega)]
    refine ⟨_, rfl, ?_, ?_⟩
    · simp only [State.result_done, State.result_setRes_self]
      rfl
    · simp only [State.result_done, State.result_setRes_self]
      exact bitsOf_getLsbD _ _ _ hcnt

end Sys2Proof.Machine
end

section
/-!
PROOFS. The two counters of a channel (41_checksum.md R181): the three events that count, and for each command that
names the channel which of them it can be.
-/

namespace Sys2Proof.Machine

open Sys2Proof.Safety

/-- ENCODE sent a packet on channel `c`. -/
def Sent (i : Instr) (c : BitVec 4) (t : State) : Prop := (∃ v, i = .encode c v) ∧ t.status.code = .ok

/-- A parse ran on channel `c` and rejected a candidate. -/
def Rejected (i : Instr) (c : BitVec 4) (t : State) : Prop :=
  (i = .parse c ∨ ∃ b, i = .parseByte c b) ∧ t.status.code ≠ .badChannel ∧ t.status.code ≠ .notInit ∧
    (t.chan c).lastTag = .parseError

/-- FREE dropped a candidate of channel `c`. -/
def Dropped (i : Instr) (c : BitVec 4) (t : State) : Prop := i = .free c ∧ t.status.code = .ok ∧ t.result 1 = 1

/-- A counter went up by one if the event happened, and stayed if not. -/
def Counts (event : Prop) (old new : Word) : Prop := (event → new = old + 1) ∧ (¬ event → new = old)

/-- R181 for one command and one channel. -/
structure Counted (i : Instr) (c : BitVec 4) (s t : State) : Prop where
  tx : Counts (Sent i c t) (s.chan c).txCnt (t.chan c).txCnt
  rx : Counts (Rejected i c t ∨ Dropped i c t) (s.chan c).rxErr (t.chan c).rxErr

theorem Counts.of_ite {event p : Prop} [Decidable p] {old new : Word} (hevent : event ↔ p)
    (hnew : new = if p then old + 1 else old) : Counts event old new :=
  ⟨fun h => hnew.trans (if_pos (hevent.1 h)), fun h => hnew.trans (if_neg (mt hevent.2 h))⟩

theorem Counts.of_not {event : Prop} {old new : Word} (hevent : ¬ event) (hnew : new = old) : Counts event old new :=
  ⟨fun h => absurd h hevent, fun _ => hnew⟩

section
variable {i : Instr} {c : BitVec 4} {s t : State}

/-- The commands whose events are counted, each on the channel it names. -/
theorem channelOf_of_event (h : Sent i c t ∨ Rejected i c t ∨ Dropped i c t) : channelOf i = some c := by
  obtain ⟨⟨v, rfl⟩, _⟩ | ⟨rfl | ⟨b, rfl⟩, _⟩ | ⟨rfl, _⟩ := h <;> rfl

/-- Without an event the counters stay. -/
theorem Counted.of_no_event (hno : ¬ (Sent i c t ∨ Rejected i c t ∨ Dropped i c t))
    (htx : (t.chan c).txCnt = (s.chan c).txCnt) (hrx : (t.chan c).rxErr = (s.chan c).rxErr) : Counted i c s t :=
  ⟨.of_not (fun h => hno (.inl h)) htx, .of_not (fun h => hno (.inr h)) hrx⟩

/-- A command that fails its channel checks counts nothing. -/
theorem Counted.withChannel {run : Channel → State} (hrun : Counted i c s (run (s.chan c))) :
    Counted i c s (s.withChannel i c run) := by
  obtain ⟨_, he⟩ | ⟨code, hcode, he⟩ := s.withChannel_cases i c run <;> rw [he]
  · exact hrun
  · refine .of_no_event ?_ rfl rfl
    obtain rfl | rfl := hcode <;> simp [Sent, Rejected, Dropped]

theorem runSetMask_counted (m : BitVec 7) : Counted (.setMask c m) c s (runSetMask c m s) := by
  refine .withChannel (.of_no_event ?_ ?_ ?_)
  · simp [Sent, Rejected, Dropped]
  · simp
  · simp

theorem runAppend_counted : Counted (.append c) c s (runAppend c s) := by
  refine .withChannel ?_
  have hno (t : State) : ¬ (Sent (.append c) c t ∨ Rejected (.append c) c t ∨ Dropped (.append c) c t) := by
    simp [Sent, Rejected, Dropped]
  dsimp only
  split_ifs
  · exact .of_no_event (hno _) rfl rfl
  · exact .of_no_event (hno _) (by simp [Channel.store]) (by simp [Channel.store])
  · exact .of_no_event (hno _) rfl rfl

/-- TXCNT counts an ENCODE that passes every check; a failed check leaves a status other than OK. -/
theorem runEncode_counted (v : Version) : Counted (.encode c v) c s (runEncode c v s) := by
  have failed {code : StatusCode} (hcode : code ≠ .ok) : Counted (.encode c v) c s (s.raise (.encode c v) code) := by
    refine .of_no_event ?_ rfl rfl
    simp [Sent, Rejected, Dropped, hcode]
  refine .withChannel ?_
  dsimp only
  split_ifs
  · exact failed (by decide)
  · exact failed (by decide)
  · exact failed (by decide)
  · refine ⟨.of_ite (p := True) ?_ ?_, .of_not ?_ ?_⟩
    · simp [Sent]
    · simp
    · simp [Rejected, Dropped]
    · simp

/-- A parse that runs, of the channel as it is or with a byte stored first: RXERR counts a PARSE_ERROR. -/
theorem counted_of_parseCore {fed : Channel} {env : ParseEnv} {w : Word} {code : StatusCode}
    (hi : i = .parse c ∨ ∃ b, i = .parseByte c b) (hcode : code = .ok ∨ code = .bufferFull)
    (htx : fed.txCnt = (s.chan c).txCnt) (hrx : fed.rxErr = (s.chan c).rxErr) :
    Counted i c s (((s.setChan c (fed.parseCore env).1).setRes 0 w).setStatus i code) := by
  have hchan : (((s.setChan c (fed.parseCore env).1).setRes 0 w).setStatus i code).chan c = (fed.parseCore env).1 :=
    s.chan_setChan_self c _
  refine ⟨.of_not ?sent ?tx, .of_ite (p := (fed.parseCore env).2 = .parseError) ?event ?rx⟩
  case sent => obtain rfl | ⟨b, rfl⟩ := hi <;> simp [Sent]
  case tx => rw [hchan, (fed.parseCore_kept env).txCnt, htx]
  case event =>
    have hran : code ≠ .badChannel ∧ code ≠ .notInit := by obtain rfl | rfl := hcode <;> decide
    have hfree : i ≠ .free c := by obtain rfl | ⟨b, rfl⟩ := hi <;> simp
    simp [Rejected, Dropped, hi, hran, hfree, Channel.parseCore_tag]
  case rx => rw [hchan, fed.parseCore_rxErr, hrx]

theorem runParse_counted : Counted (.parse c) c s (runParse c s) :=
  .withChannel (counted_of_parseCore (.inl rfl) (.inl rfl) rfl rfl)

theorem runParseByte_counted (b : Byte) : Counted (.parseByte c b) c s (runParseByte c b s) := by
  refine .withChannel (counted_of_parseCore (.inr ⟨b, rfl⟩) ?_ ?_ ?_) <;> split_ifs <;> simp [Channel.store]

/-- The counters of the channel FREE leaves: RXERR counts a drop (R148, R149). -/
theorem Channel.freed_counters (draw : Nat → Byte) (ch : Channel) :
    (ch.freed draw).1.txCnt = ch.txCnt ∧
      (ch.freed draw).1.rxErr = if (ch.freed draw).2 then ch.rxErr + 1 else ch.rxErr := by
  cases hover : (Channel.compact draw { ch with pktValid := false }).overflowed with
  | false => rw [Channel.freed_kept draw hover]; exact ⟨rfl, rfl⟩
  | true => rw [Channel.freed_dropped draw hover]; exact ⟨rfl, rfl⟩

theorem runFree_counted : Counted (.free c) c s (runFree c s) := by
  obtain ⟨htx, hrx⟩ := Channel.freed_counters (s.rbDraws c) (s.chan c)
  refine .withChannel ⟨.of_not ?sent ?tx, .of_ite (p := ((s.chan c).freed (s.rbDraws c)).2 = true) ?event ?rx⟩
  case sent => simp [Sent]
  case tx => simpa using htx
  case rx => simpa using hrx
  case event => simp [Rejected, Dropped]

end

/-- Every command but INIT counts on every channel as R181 says. -/
theorem exec_counted {i : Instr} {s t : State} {c : BitVec 4} (hexec : exec i s = .next t) (hinit : i ≠ .init c) :
    Counted i c s t := by
  by_cases hch : channelOf i = some c
  · cases i with
    | init => cases hch; exact absurd rfl hinit
    | setMask _ m => cases hch; cases hexec; exact runSetMask_counted m
    | append => cases hch; cases hexec; exact runAppend_counted
    | free => cases hch; cases hexec; exact runFree_counted
    | parseByte _ b => cases hch; cases hexec; exact runParseByte_counted b
    | parse => cases hch; cases hexec; exact runParse_counted
    | encode _ v => cases hch; cases hexec; exact runEncode_counted v
    | nop | cksum | crc24 | getbits | decode | decodeByte | decodeFooter | encEnable | setHostOrder => cases hch
  · have hsame : t.chan c = s.chan c := (channelsAreIndependent i s t c hexec hch).1
    exact .of_no_event (mt channelOf_of_event hch) (by rw [hsame]) (by rw [hsame])

/-- Settles O22: a command that does not name the channel leaves it alone, and each that does is counted above. -/
theorem countersCountOneAtATime : Obligations.CountersCountOneAtATime := by
  intro i s t c hexec hinit
  obtain ⟨htx, hrx⟩ := exec_counted hexec hinit
  exact ⟨htx.1, htx.2, hrx.1, hrx.2⟩

end Sys2Proof.Machine
end

section
/-!
PROOFS. The verdicts on candidates of the families that are not native (41_checksum.md R174, R178; 42_parser.md R202 to
R204, R210): the two byte checksums, each framing's verdict where its checks lead, and the ASCII sentence and its `*hh`
field.
-/

namespace Sys2Proof.Machine

/-! ## The byte checksums (R174, R178) -/

theorem fletcher8_concat (B : List Byte) (b : Byte) :
    fletcher8 (B ++ [b]) = ((fletcher8 B).1 + b, (fletcher8 B).2 + ((fletcher8 B).1 + b)) :=
  List.foldl_concat ..

theorem nmeaXor_concat (B : List Byte) (b : Byte) : nmeaXor (B ++ [b]) = nmeaXor B ^^^ b := List.foldl_concat ..

/-! ## ublox (R202) -/

section
variable {cap : Nat} {F : List Byte}

/-- The payload length a ublox candidate declares. -/
def ubloxLen (F : List Byte) : Nat := (F.getD 4 0).toNat + 256 * (F.getD 5 0).toNat

theorem frameUblox_short (h : F.length < 6) : frameUblox cap F = .needMore := if_pos h

/-- ublox from the declared length on: it must fit the buffer, be all there, and be followed by its checksum. -/
theorem frameUblox_header (h6 : 6 ≤ F.length) :
    frameUblox cap F =
      if cap < 8 + ubloxLen F then .bad .length
      else if F.length < 8 + ubloxLen F then .needMore
      else if fletcher8 ((F.drop 2).take (4 + ubloxLen F)) = (F.getD (6 + ubloxLen F) 0, F.getD (7 + ubloxLen F) 0)
        then .good .ublox 6 (ubloxLen F) 0 none else .bad .cksum := by
  have hbody : (F.drop 2).take (4 + ubloxLen F) = slice F 2 (6 + ubloxLen F) := by
    rw [slice_eq_take_drop]
    congr 1
    omega
  rw [hbody]
  simp only [eq_comm (a := fletcher8 _)]
  exact if_neg (Nat.not_lt.2 h6)

/-! ## RTCM3 (R203) -/

/-- The payload length an RTCM3 candidate declares. -/
def rtcm3Len (F : List Byte) : Nat := 256 * (F.getD 1 0 &&& 0x03).toNat + (F.getD 2 0).toNat

theorem frameRtcm3_short (h : F.length < 3) : frameRtcm3 cap F = .needMore := if_pos h

/-- The six bits above the length must be 0. -/
theorem frameRtcm3_reserved (h3 : 3 ≤ F.length) (hres : F.getD 1 0 &&& 0xFC ≠ 0) : frameRtcm3 cap F = .bad .length := by
  rw [frameRtcm3, if_neg (Nat.not_lt.2 h3)]
  exact if_pos hres

/-- RTCM3 from the declared length on, as for ublox. -/
theorem frameRtcm3_header (h3 : 3 ≤ F.length) (hres : F.getD 1 0 &&& 0xFC = 0) :
    frameRtcm3 cap F =
      if cap < 6 + rtcm3Len F then .bad .length
      else if F.length < 6 + rtcm3Len F then .needMore
      else if crc24q (F.take (3 + rtcm3Len F)) =
          word24 (F.getD (3 + rtcm3Len F) 0) (F.getD (4 + rtcm3Len F) 0) (F.getD (5 + rtcm3Len F) 0)
        then .good .rtcm3 3 (rtcm3Len F) 0 none else .bad .cksum := by
  rw [frameRtcm3, if_neg (Nat.not_lt.2 h3)]
  exact if_neg (not_not.2 hres)

end

/-! ## ASCII (R204) -/

/-- The value of a hexadecimal digit: `0` to `9`, `A` to `F` or `a` to `f`. -/
theorem hexVal_eq_some_iff (x v : Byte) :
    hexVal x = some v ↔ (v < 0x0A ∧ x = 0x30 + v) ∨ (0x0A ≤ v ∧ v < 0x10 ∧ (x = 0x37 + v ∨ x = 0x57 + v)) := by
  unfold hexVal
  split_ifs <;> simp only [Option.some.injEq, false_iff] <;> bv_omega

/-- The sentence without its optional `\r`. -/
theorem stripCr_eq (line : List Byte) :
    stripCr line = if line.getD (line.length - 1) 0 = 0x0D then line.dropLast else line := by
  have hslice : slice line 0 (line.length - 1) = line.dropLast := by
    rw [List.dropLast_eq_take]; rfl
  have hcond : 1 ≤ line.length ∧ at' line (line.length - 1) = 0x0D ↔ line.getD (line.length - 1) 0 = 0x0D := by
    refine and_iff_right_of_imp fun h => ?_
    cases line with
    | nil => cases h
    | cons b line => exact Nat.le_add_left 1 _
  rw [stripCr, hslice]
  simp only [hcond]

/-- The `*hh` field at the end of a sentence, by the values of its two digits. -/
def HasCheckField (T : List Byte) (hi lo : Byte) : Prop :=
  4 ≤ T.length ∧ T.getD (T.length - 3) 0 = 0x2A ∧ hexVal (T.getD (T.length - 2) 0) = some hi ∧
    hexVal (T.getD (T.length - 1) 0) = some lo

theorem asciiCheckField_some {T : List Byte} {hi lo : Byte} (h : HasCheckField T hi lo) :
    asciiCheckField T = some (hi <<< 4 ||| lo) := by
  obtain ⟨hlen, hstar, hhi, hlo⟩ := h
  have hhi' : hexVal (at' T (T.length - 2)) = some hi := hhi
  have hlo' : hexVal (at' T (T.length - 1)) = some lo := hlo
  have hfound : 4 ≤ T.length ∧ at' T (T.length - 3) = 0x2A := ⟨hlen, hstar⟩
  simp only [asciiCheckField, if_pos hfound, hhi', hlo']

theorem asciiCheckField_none {T : List Byte} (h : ∀ hi lo, ¬ HasCheckField T hi lo) : asciiCheckField T = none := by
  unfold asciiCheckField
  dsimp only
  split_ifs with hfound
  · split
    · rename_i hi lo hhi hlo
      exact absurd ⟨hfound.1, hfound.2, hhi, hlo⟩ (h hi lo)
    · rfl
  · rfl

/-- ASCII at the end of the line: the `*hh` field, where there is one, must be the checksum of the sentence. -/
theorem frameAscii_field {F T : List Byte} {hi lo : Byte} (hend : F.getD (F.length - 1) 0 = 0x0A)
    (hT : stripCr (F.take (F.length - 1)) = T) (h : HasCheckField T hi lo) :
    frameAscii F = if nmeaXor ((T.take (T.length - 3)).drop 1) = hi <<< 4 ||| lo
      then .good .asciiNmea 0 F.length 0 none else .bad .cksum := by
  have hline : stripCr (slice F 0 (F.length - 1)) = T := hT
  have hfield := asciiCheckField_some h
  rw [frameAscii]
  refine (if_pos hend).trans ?_
  simp only [asciiValidate, hline, hfield]
  rfl

/-- ASCII at the end of the line: without the field every sentence is accepted. -/
theorem frameAscii_noField {F T : List Byte} (hend : F.getD (F.length - 1) 0 = 0x0A)
    (hT : stripCr (F.take (F.length - 1)) = T) (h : ∀ hi lo, ¬ HasCheckField T hi lo) :
    frameAscii F = .good .asciiNmea 0 F.length 0 none := by
  have hline : stripCr (slice F 0 (F.length - 1)) = T := hT
  rw [frameAscii]
  refine (if_pos hend).trans ?_
  simp only [asciiValidate, hline, asciiCheckField_none h]

/-- ASCII before the end of the line. -/
theorem frameAscii_beforeEnd {F : List Byte} (hend : F.getD (F.length - 1) 0 ≠ 0x0A) :
    frameAscii F =
      if (0x20 ≤ F.getD (F.length - 1) 0 ∧ F.getD (F.length - 1) 0 ≤ 0x7E) ∨ F.getD (F.length - 1) 0 = 0x0D
      then .needMore else .bad .malformed := by
  rw [frameAscii]
  refine (if_neg hend).trans ?_
  simp only [asciiByte, decide_eq_true_eq]
  rfl

/-! ## Sony and SPARTN (R210) -/

theorem foreignVerdict_answers (tag : ResultTag) (len : Nat) (v : ForeignVerdict) :
    (v = .needMore → foreignVerdict tag len v = .needMore) ∧
      (v = .bad → foreignVerdict tag len v = .bad .malformed) ∧
      (v = .good → foreignVerdict tag len v = .good tag 0 len 0 none) := by
  refine ⟨?_, ?_, ?_⟩ <;> rintro rfl <;> rfl

/-- Settles O59, family by family. -/
theorem foreignFrameVerdicts : Obligations.ForeignFrameVerdicts := by
  refine ⟨⟨rfl, fletcher8_concat⟩, ⟨rfl, nmeaXor_concat⟩, fun p cap F => ⟨?ublox, ?rtcm3, ?ascii, ?other⟩⟩
  case ublox =>
    refine ⟨frameUblox_short, fun h6 hcap => ?_, fun h6 hlen hcap => ?_, fun hlen hcap => ?_⟩
    · exact (frameUblox_header h6).trans (if_pos hcap)
    · exact (frameUblox_header h6).trans ((if_neg (Nat.not_lt.2 hcap)).trans (if_pos hlen))
    · exact (frameUblox_header (by omega)).trans ((if_neg (Nat.not_lt.2 hcap)).trans (if_neg (Nat.not_lt.2 hlen)))
  case rtcm3 =>
    refine ⟨frameRtcm3_short, frameRtcm3_reserved,
      fun hres => ⟨fun h3 hcap => ?_, fun h3 hlen hcap => ?_, fun hlen hcap => ?_⟩⟩
    · exact (frameRtcm3_header h3 hres).trans (if_pos hcap)
    · exact (frameRtcm3_header h3 hres).trans ((if_neg (Nat.not_lt.2 hcap)).trans (if_pos hlen))
    · exact (frameRtcm3_header (by omega) hres).trans
        ((if_neg (Nat.not_lt.2 hcap)).trans (if_neg (Nat.not_lt.2 hlen)))
  case ascii =>
    have hT := stripCr_eq (F.take (F.length - 1))
    refine ⟨fun hend hbyte => (frameAscii_beforeEnd hend).trans (if_pos hbyte),
      fun hend hbyte => (frameAscii_beforeEnd hend).trans (if_neg hbyte), fun hend => ⟨fun hi lo hfield => ?_, fun hno => ?_⟩⟩
    · simp only [← hexVal_eq_some_iff] at hfield
      exact frameAscii_field hend hT hfield
    · simp only [← hexVal_eq_some_iff] at hno
      exact frameAscii_noField hend hT hno
  case other =>
    simp only [List.mem_cons, List.not_mem_nil, or_false, forall_eq_or_imp, forall_eq]
    exact ⟨foreignVerdict_answers _ _ _, foreignVerdict_answers _ _ _⟩

end Sys2Proof.Machine
end

section
/-!
PROOFS. The verdicts on native candidates (42_parser.md R200, R201, R205, R206; 43_codec.md R225): what the checks of a
complete frame answer by the unescaped bytes and by the class of the packet id, and why the frame an encoder builds with
escaping on has no stop byte before its last.
-/

namespace Sys2Proof.Machine

/-! ## The stop byte (R200) -/

section
variable {p : Params} {cap : Nat} {k : Family} {F : List Byte}

theorem frame_native (hk : k = .isbV1 ∨ k = .isbV2) : frame p cap k F = frameIsb p F := by
  obtain rfl | rfl := hk <;> rfl

theorem frame_native_beforeStop (hk : k = .isbV1 ∨ k = .isbV2) (h : F.getD (F.length - 1) 0 ≠ Config.stop) :
    frame p cap k F = .needMore :=
  (frame_native hk).trans (if_neg h)

theorem frame_native_atStop (hk : k = .isbV1 ∨ k = .isbV2) (h : F.getD (F.length - 1) 0 = Config.stop) :
    frame p cap k F = isbValidate p F :=
  (frame_native hk).trans (if_pos h)

end

/-! ## The checks of a complete frame, by its unescaped bytes (R201) -/

section
variable {p : Params} {F R : List Byte}

theorem slice_betweenStartAndStop (F : List Byte) : slice F 1 (F.length - 1) = (F.drop 1).take (F.length - 2) :=
  slice_eq_take_drop F 1 (F.length - 1)

theorem isbValidate_escapeError (h : unescape p ((F.drop 1).take (F.length - 2)) = none) :
    isbValidate p F = .bad .malformed := by
  rw [isbValidate, unpackIsb_eq, slice_betweenStartAndStop, h]

theorem isbValidate_short (h : unescape p ((F.drop 1).take (F.length - 2)) = some R) (hlen : R.length < 6) :
    isbValidate p F = .bad .malformed := by
  rw [isbValidate, unpackIsb_eq, slice_betweenStartAndStop, h]
  simp only [if_pos hlen]

theorem isbValidate_tooLong (h : unescape p ((F.drop 1).take (F.length - 2)) = some R) (h6 : 6 ≤ R.length)
    (hlen : p.maxBody < R.length - 6) : isbValidate p F = .bad .length := by
  rw [isbValidate, unpackIsb_eq, slice_betweenStartAndStop, h]
  simp only [if_neg (Nat.not_lt.2 h6), if_pos hlen]

/-- A frame that passes the checks of its length unpacks to the fields of its unescaped bytes. -/
theorem unpackIsb_of_unescape (h : unescape p ((F.drop 1).take (F.length - 2)) = some R) (h6 : 6 ≤ R.length)
    (hlen : R.length - 6 ≤ p.maxBody) : unpackIsb p F = .frame (splitIsb (F.getD 0 0) R) := by
  rw [unpackIsb_eq, slice_betweenStartAndStop, h]
  simp only [if_neg (Nat.not_lt.2 h6), if_neg (Nat.not_lt.2 hlen)]
  rfl

end

/-! ## The verdict on an unpacked frame (R201, R205, R206) -/

section
variable {p : Params} {F : List Byte} {fr : IsbFrame}

theorem isbValidate_mismatch (h : unpackIsb p F = .frame fr) (hck : fr.received ≠ fr.expected p) :
    isbValidate p F = .bad .cksum := by
  rw [isbValidate, h]
  exact if_neg hck

theorem isbValidate_match (h : unpackIsb p F = .frame fr) (hck : fr.received = fr.expected p) :
    isbValidate p F = classifyIsb p fr := by
  rw [isbValidate, h]
  exact if_pos hck

/-- Every verdict on a frame whose checksum matches, by the class of its packet id: `v` is the verdict the class calls
for. -/
structure ClassVerdict (p : Params) (fr : IsbFrame) (v : Verdict) : Prop where
  cmd : pidClass p fr.pid = .cmd → v = .good .nativeCmd 4 fr.payload.length fr.headerWord none
  ack : pidClass p fr.pid = .ack → v = .good .nativeAck 4 fr.payload.length fr.headerWord none
  data : pidClass p fr.pid = .data → ∀ dh, dataHeader p fr.flags fr.payload = some dh →
    v = .good .nativeData 16 dh.size.toNat fr.headerWord (some dh)
  noHeader : pidClass p fr.pid = .data → dataHeader p fr.flags fr.payload = none → v = .bad .malformed

theorem classifyIsb_classVerdict (p : Params) (fr : IsbFrame) : ClassVerdict p fr (classifyIsb p fr) := by
  constructor
  case cmd =>
    intro hclass
    rw [classifyIsb_eq, hclass]
  case ack =>
    intro hclass
    rw [classifyIsb_eq, hclass]
  case data =>
    intro hclass dh hdh
    simp only [classifyIsb_eq, hclass, hdh]
  case noHeader =>
    intro hclass hdh
    simp only [classifyIsb_eq, hclass, hdh]

end

/-- The default map of packet ids (R205): the table lists the four ids that are not commands. -/
theorem pidClass_default (pid : Byte) : pidClass Params.default pid =
    if pid = 1 ∨ pid = 2 then .ack else if pid = 4 ∨ pid = 5 then .data else .cmd := by
  by_cases hlisted : pid = 1 ∨ pid = 2 ∨ pid = 4 ∨ pid = 5
  · obtain rfl | rfl | rfl | rfl := hlisted <;> rfl
  · simp only [not_or] at hlisted
    obtain ⟨h1, h2, h4, h5⟩ := hlisted
    simp only [pidClass, Params.default, List.lookup, beq_false_of_ne h1, beq_false_of_ne h2, beq_false_of_ne h4,
      beq_false_of_ne h5, h1, h2, h4, h5, or_self, if_false, Option.getD_none]

/-- Settles O60: the stop byte, then the checks on the unescaped bytes in their order, then the class of the packet id. -/
theorem nativeFrameVerdicts : Obligations.NativeFrameVerdicts := by
  refine ⟨pidClass_default, fun p cap k F hk _ => ⟨frame_native_beforeStop hk, fun hstop => ?_⟩⟩
  rw [frame_native_atStop hk hstop]
  refine ⟨isbValidate_escapeError, fun R hR => ⟨isbValidate_short hR, isbValidate_tooLong hR, fun h6 hlen => ?_⟩⟩
  intro n S pid counter flags P ckr acc expected hdr
  have hunpack : unpackIsb p F = .frame ⟨S, pid, counter, flags, P, ckr⟩ := by
    rw [unpackIsb_of_unescape hR h6 hlen, splitIsb_eq _ h6, slice_eq_take_drop, Nat.add_sub_cancel_left]
    rfl
  have hP : P.length = n := by
    simp only [P, n, List.length_take, List.length_drop]
    omega
  refine ⟨isbValidate_mismatch hunpack, fun hck => ?_⟩
  have hclass := classifyIsb_classVerdict p ⟨S, pid, counter, flags, P, ckr⟩
  rw [← isbValidate_match hunpack hck] at hclass
  obtain ⟨hcmd, hack, hdata, hnone⟩ := hclass
  simp only [hP] at hcmd hack
  exact ⟨hcmd, hack, fun hpid => ⟨hdata hpid, hnone hpid⟩⟩

/-! ## The data header (R206) -/

theorem dataHeader_eq_some_iff {p : Params} {flags : Byte} {P : List Byte} {dh : DataHeader} :
    dataHeader p flags P = some dh ↔
      12 ≤ P.length ∧ dh.id = headerField flags P 0 ∧ dh.size = headerField flags P 4 ∧
        dh.offset = headerField flags P 8 ∧ dh.size.toNat ≤ P.length - 12 ∧
        dh.offset.toNat + dh.size.toNat ≤ p.maxDataset := by
  obtain ⟨id, size, offset⟩ := dh
  rw [dataHeader_eq]
  constructor
  · intro h
    split_ifs at h with hlen hsize hmax
    cases h
    exact ⟨Nat.not_lt.1 hlen, rfl, rfl, rfl, Nat.not_lt.1 hsize, Nat.not_lt.1 hmax⟩
  · rintro ⟨hlen, rfl, rfl, rfl, hsize, hmax⟩
    rw [if_neg (Nat.not_lt.2 hlen), if_neg (Nat.not_lt.2 hsize), if_neg (Nat.not_lt.2 hmax)]

/-! ## The frame an encoder builds with escaping on (43_codec.md R223, R225) -/

theorem unescape_escapeAll {p : Params} (hp : p.lawful = true) (Y : List Byte) :
    unescape p (escapeAll p true Y) = some Y := by
  induction Y with
  | nil => rfl
  | cons y Y ih => rw [escapeAll_cons, unescape_escapeByte hp, ih]; rfl

/-- No byte of an escaped string is the stop byte, unless the stop byte is the escape key (log entry 11). -/
theorem stop_not_mem_escapeAll {p : Params} (hp : p.lawful = true) (hkey : p.escKey ≠ Config.stop) (Y : List Byte) :
    Config.stop ∉ escapeAll p true Y :=
  fun h => hkey (mem_escapeAll hp h (Params.lawful_stop hp)).symm

/-- A frame cut off before its end does not end in a stop byte, if its last byte is its only one. -/
theorem getD_take_ne_stop {S : Byte} {F X : List Byte} (hF : F = S :: (X ++ [Config.stop])) (hX : Config.stop ∉ X)
    {m : Nat} (h2 : 2 ≤ m) (hm : m < F.length) : (F.take m).getD ((F.take m).length - 1) 0 ≠ Config.stop := by
  subst hF
  obtain ⟨i, rfl⟩ : ∃ i, m = i + 2 := ⟨m - 2, by omega⟩
  have hi : i < X.length := by
    simp only [List.length_cons, List.length_append, List.length_nil] at hm
    omega
  have hlast : ((S :: (X ++ [Config.stop])).take (i + 2)).length - 1 = i + 1 := by
    rw [List.length_take]
    omega
  have hbyte : ((S :: (X ++ [Config.stop])).take (i + 2)).getD (i + 1) 0 = X[i] := by
    simp [List.getD_eq_getElem?_getD, List.getElem?_append_left hi, hi]
  rw [hlast, hbyte]
  exact fun h => hX (h ▸ List.getElem_mem hi)

section
variable (p : Params) (S pid counter flags : Byte) (P : List Byte) (ck : Word)

/-- The bytes of a frame that are escaped: the header after the start byte, the payload, the checksum (R223). -/
def frameBody : List Byte := [pid, counter, flags] ++ P ++ [byteOf ck 2, byteOf ck 1, byteOf ck 0]

theorem frameBytes_eq :
    frameBytes p true S pid counter flags P ck = S :: (escapeAll p true (frameBody pid counter flags P ck) ++ [Config.stop]) :=
  rfl

@[simp] theorem frameBody_length : (frameBody pid counter flags P ck).length = P.length + 6 := by
  simp [frameBody]

/-- The fields of a frame, read back from its unescaped bytes; of the checksum three bytes are sent. -/
theorem splitIsb_frameBody :
    splitIsb S (frameBody pid counter flags P ck) = ⟨S, pid, counter, flags, P, ck24 ck⟩ := by
  rw [splitIsb_eq S (by simp), frameBody_length, Nat.add_sub_cancel, ← word24_byteOf]
  have hpayload : slice (frameBody pid counter flags P ck) 3 (3 + P.length) = P := by
    rw [slice_eq_take_drop, Nat.add_sub_cancel_left]
    simp [frameBody]
  have hcksum : ∀ i, at' (frameBody pid counter flags P ck) (i + (3 + P.length))
      = [byteOf ck 2, byteOf ck 1, byteOf ck 0].getD i 0 := by
    intro i
    have hlen : ([pid, counter, flags] ++ P).length = 3 + P.length := by
      simp only [List.length_append, List.length_cons, List.length_nil]
    rw [at', frameBody, List.getD_append_right _ _ _ _ (by omega), hlen, Nat.add_sub_cancel]
  have h0 := hcksum 0
  have h1 := hcksum 1
  have h2 := hcksum 2
  rw [Nat.zero_add] at h0
  rw [← Nat.add_assoc] at h1 h2
  rw [hpayload, h0, h1, h2]
  rfl

end

section
variable {p : Params} {S pid counter flags : Byte} {P : List Byte} {ck : Word}

/-- The frame an encoder builds unpacks to its own fields. -/
theorem unpackIsb_frameBytes (hp : p.lawful = true) (hP : P.length ≤ p.maxBody) :
    unpackIsb p (frameBytes p true S pid counter flags P ck) = .frame ⟨S, pid, counter, flags, P, ck24 ck⟩ := by
  have hR : unescape p (((frameBytes p true S pid counter flags P ck).drop 1).take
      ((frameBytes p true S pid counter flags P ck).length - 2)) = some (frameBody pid counter flags P ck) := by
    rw [frameBytes_eq]
    simp [unescape_escapeAll hp]
  rw [unpackIsb_of_unescape hR (by simp) (by simpa using hP), ← splitIsb_frameBody]
  rfl

/-- With the checksum its header and payload call for, the frame is judged by the class of its packet id. -/
theorem frameBytes_classVerdict (hp : p.lawful = true) (hP : P.length ≤ p.maxBody)
    (hck : ck = ckSelect flags (cksumFn p.cksumOrder ([S, pid, counter, flags] ++ P))) :
    ClassVerdict p ⟨S, pid, counter, flags, P, ck⟩ (isbValidate p (frameBytes p true S pid counter flags P ck)) := by
  have hsent : ck24 ck = ck := by rw [hck, ck24_ckSelect]
  have hunpack := unpackIsb_frameBytes (S := S) (pid := pid) (counter := counter) (flags := flags) (ck := ck) hp hP
  rw [hsent] at hunpack
  rw [isbValidate_match hunpack hck]
  exact classifyIsb_classVerdict p _

end

/-- Settles O46: no byte between the start and the stop byte is a stop byte, and at the stop byte the frame unpacks to its
own fields, with the checksum they call for. -/
theorem escapedFrameIsJudgedAtItsStop : Obligations.EscapedFrameIsJudgedAtItsStop := by
  refine ⟨fun p flags P dh => dataHeader_eq_some_iff, fun p cap k pid counter flags P hp hkey hk hP => ?_⟩
  intro S hdr F
  have hstop : F.getD (F.length - 1) 0 = Config.stop := by
    simp [F, frameBytes_eq]
  obtain ⟨hcmd, hack, hdata, hnone⟩ :=
    frameBytes_classVerdict (S := S) (pid := pid) (counter := counter) (flags := flags) hp hP rfl
  rw [frame_native_atStop hk hstop]
  refine ⟨fun m h2 hm => frame_native_beforeStop hk ?_, hcmd, hack, fun hpid => ⟨hdata hpid, hnone hpid⟩⟩
  exact getD_take_ne_stop (frameBytes_eq ..) (stop_not_mem_escapeAll hp hkey _) h2 hm

end Sys2Proof.Machine
end

section
/-!
PROOFS. A PARSE that reports no packet (42_parser.md R199, R211): with the tag PARSE_ERROR it rejects a candidate the
family's verdict function judges bad, and with the tag NONE it has come to the end of the bytes.
-/

namespace Sys2Proof.Machine

open Sys2Proof.Safety

/-! ## The decision's tag (R198, R199) -/

/-- A decision never has the tag NONE. -/
theorem StepDone.tag_ne_none {env : ParseEnv} {ch ch' : Channel} {tag : ResultTag} (h : StepDone env ch ch' tag) :
    tag ≠ .none := by
  cases h with
  | bad => exact ResultTag.noConfusion
  | good _ _ _ _ _ _ _ _ hv => exact (frame_good hv).not_none

/-- A decision with the tag PARSE_ERROR is the FAIL of the candidate in progress. -/
theorem StepDone.of_parseError {env : ParseEnv} {ch ch' : Channel} (h : StepDone env ch ch' .parseError) :
    ∃ k cause, ch.pstate = .accum ∧ ch.cand = some k ∧
      frame env.params ch.cap.toNat k (ch.candidate env) = .bad cause ∧ ch' = ch.fail ch.head cause := by
  cases h with
  | bad k cause hst hk hv => exact ⟨k, cause, hst, hk, hv, rfl⟩
  | good _ _ _ _ _ _ _ _ hv => exact absurd rfl (frame_good hv).not_error

/-! ## The channel after a candidate is rejected (R199) -/

/-- The channel `ch` after PARSE_CORE rejected a candidate and resumed at `h`. -/
def Channel.rejected (ch : Channel) (h : Word) (cause : Cause) : Channel :=
  { ch with head := h, scan := h, pstate := .idle, cand := none, rxErr := ch.rxErr + 1, lastErr := cause,
            lastTag := .parseError, pktValid := false }

/-- FAIL overwrites every field a step that goes on may move. -/
theorem Channel.Scanned.fail_eq {ch mid : Channel} (h : ({ ch with pktValid := false } : Channel).Scanned mid) (s : Word)
    (cause : Cause) : { mid.fail s cause with lastTag := .parseError } = ch.rejected (s + 1) cause := by
  unfold Channel.Scanned at h
  rw [h]
  rfl

/-- The byte reader sees none of the fields a step that goes on may move. -/
theorem Channel.Scanned.byteAt_eq {ch mid : Channel} (h : ({ ch with pktValid := false } : Channel).Scanned mid)
    (draw : Nat → Byte) : mid.byteAt draw = ch.byteAt draw := by
  unfold Channel.Scanned at h
  rw [h]
  rfl

/-- The steps before a decision keep what no parse writes. -/
theorem Channel.Scanned.kept {ch mid : Channel} (h : ({ ch with pktValid := false } : Channel).Scanned mid) :
    ch.Kept mid := by
  unfold Channel.Scanned at h
  rw [h]
  exact ⟨rfl, rfl, rfl, rfl, rfl⟩

section
variable {env : ParseEnv} {ch : Channel}

/-- A PARSE_CORE that returns PARSE_ERROR has rejected the candidate whose start byte is the one before `h`. -/
theorem Channel.parseCore_rejects (hp : env.params.lawful = true) (hi : ChannelInv env.params env.draw ch)
    (h : (ch.parseCore env).2 = .parseError) :
    ∃ (h : Word) (p : Nat) (k : Family) (cause : Cause),
      ch.head.toNat < h.toNat ∧ h.toNat ≤ p ∧ p < ch.tail.toNat ∧ ch.byteAt env.draw (h.toNat - 1) = k.startByte ∧
      frame env.params ch.cap.toNat k (bytesFrom (ch.byteAt env.draw) (h.toNat - 1) (p + 2 - h.toNat)) = .bad cause ∧
      (ch.parseCore env).1 = ch.rejected h cause := by
  obtain ⟨mid, hmid, hscanned, hhead, ⟨he, _⟩ | ⟨hs, ch', tag, he, hdone⟩⟩ := Channel.parseCore_cases hp hi <;>
    rw [he] at h ⊢
  · cases h
  · obtain rfl : tag = .parseError := h
    obtain ⟨k, cause, hst, hk, hv, rfl⟩ := hdone.of_parseError
    have hnext := (Channel.fail_inv hp hmid hs cause).1
    have hstarted := (hmid.accum hst).2
    have hstart := hmid.start_byte k hk
    rw [Channel.candidate, Channel.bytes, hscanned.byteAt_eq, hscanned.kept.cap] at hv
    rw [hscanned.byteAt_eq] at hstart
    rw [hscanned.kept.tail] at hs
    refine ⟨mid.head + 1, mid.scan.toNat, k, cause, by omega, by omega, hs, ?_, ?_, hscanned.fail_eq mid.head cause⟩ <;>
      rw [hnext, Nat.add_sub_cancel]
    · exact hstart
    · have hlen : mid.scan.toNat + 2 - (mid.head.toNat + 1) = mid.scan.toNat + 1 - mid.head.toNat := by omega
      rw [hlen]
      exact hv

/-- The candidate in progress is rejected when its verdict is bad. -/
theorem Channel.step_bad {k : Family} {cause : Cause} (hst : ch.pstate = .accum) (hc : ch.cand = some k)
    (hv : frame env.params ch.cap.toNat k (ch.candidate env) = .bad cause) :
    ch.step env = (ch.fail ch.head cause, .done .parseError) := by
  rw [Channel.step_accum hst, Channel.stepAccum, Channel.verdict_eq hc, hv]
  rfl

/-- A candidate in progress whose verdict is bad at the byte `p`, and "need more" before, is the one PARSE_CORE rejects
(R211). -/
theorem Channel.parseCore_rejects_inProgress {k : Family} {cause : Cause} {p : Nat} (hp : env.params.lawful = true)
    (hi : ChannelInv env.params env.draw ch) (hst : ch.pstate = .accum) (hc : ch.cand = some k)
    (hle : ch.scan.toNat ≤ p) (hlt : p < ch.tail.toNat)
    (hmore : ∀ q, ch.scan.toNat ≤ q → q < p →
      frame env.params ch.cap.toNat k (ch.bytes env.draw ch.head.toNat (q + 1)) = .needMore)
    (hv : frame env.params ch.cap.toNat k (ch.bytes env.draw ch.head.toNat (p + 1)) = .bad cause) :
    ch.parseCore env = (ch.rejected (ch.head + 1) cause, .parseError) := by
  have hscan : (BitVec.ofNat 32 p).toNat = p := by
    have := ch.tail.isLt
    rw [BitVec.toNat_ofNat]
    omega
  obtain ⟨n, rfl⟩ := Nat.exists_eq_add_of_le hle
  obtain ⟨_, hcore⟩ := Channel.parseCore_needMore hp n hi hst hc hlt hmore
  generalize BitVec.ofNat 32 (ch.scan.toNat + n) = p at hscan hcore
  have hs : p.toNat < ch.tail.toNat := by omega
  rw [← hscan] at hv
  have hstep := Channel.step_bad (ch := { ch with pktValid := false, scan := p }) hst hc hv
  rw [hcore, Channel.parseCore_done hs hstep]
  rfl

/-- A PARSE_CORE that returns NONE has moved the cursors and the parse state to the end of the bytes (R211). -/
theorem Channel.parseCore_exhausts (hp : env.params.lawful = true) (hi : ChannelInv env.params env.draw ch)
    (h : (ch.parseCore env).2 = .none) :
    (ch.parseCore env).1.scan = ch.tail ∧
      ({ ch with lastTag := .none, pktValid := false } : Channel).Scanned (ch.parseCore env).1 := by
  obtain ⟨mid, _, hscanned, _, ⟨he, hend⟩ | ⟨_, ch', tag, he, hdone⟩⟩ := Channel.parseCore_cases hp hi <;>
    rw [he] at h ⊢
  · rw [hscanned.kept.tail] at hend
    refine ⟨BitVec.eq_of_toNat_eq hend, ?_⟩
    unfold Channel.Scanned at hscanned ⊢
    rw [hscanned]
  · exact absurd h hdone.tag_ne_none

end

/-! ## PARSE -/

/-- The channel a PARSE leaves is PARSE_CORE's. -/
theorem chan_of_exec_parse {s t : State} {c : BitVec 4} (hr : channelReady s c) (h : exec (.parse c) s = .next t) :
    t.chan c = ((s.chan c).parseCore (s.parseEnv c)).1 := by
  rw [exec_parse_ready hr] at h
  obtain rfl := Host.Outcome.next.inj h
  simp only [State.chan_done, State.chan_setRes, State.chan_setChan_self]

/-- A PARSE by what PARSE_CORE answers. -/
theorem exec_parse_of_parseCore {s : State} {c : BitVec 4} {ch : Channel} {tag : ResultTag} (hr : channelReady s c)
    (h : (s.chan c).parseCore (s.parseEnv c) = (ch, tag)) :
    exec (.parse c) s = .next { (s.setRes 0 tag.word).setChan c ch with status := ⟨0x06, .ok⟩ } := by
  rw [exec_parse_ready hr, h]
  rfl

/-- Settles O40: the first clause through everything PARSE_CORE can do, the second through the verdicts on the candidate
in progress. -/
theorem parseErrorRejectsCandidate : Obligations.ParseErrorRejectsCandidate := by
  refine ⟨?rejected, ?inProgress⟩
  case rejected =>
    intro s t c hinv hr hexec htag
    rw [chan_of_exec_parse hr hexec] at htag ⊢
    obtain ⟨h, p, k, cause, hhead, hle, hlt, hstart, hv, hch⟩ :=
      Channel.parseCore_rejects (env := s.parseEnv c) hinv.params_lawful (hinv.channel c hr.2) htag
    exact ⟨h, p, k, cause, hhead, hle, hlt, hstart, hv, frame_bad hv, hch⟩
  case inProgress =>
    intro s c k cause p hinv hr ch verdict hst hc hle hlt hmore hv
    exact exec_parse_of_parseCore hr (Channel.parseCore_rejects_inProgress (env := s.parseEnv c) hinv.params_lawful
      (hinv.channel c hr.2) hst hc hle hlt hmore hv)

/-- Settles O42: the only other outcomes of PARSE_CORE are decisions, whose tag is not NONE. -/
theorem parseNoneExhaustsBuffer : Obligations.ParseNoneExhaustsBuffer := by
  intro s t c hinv hr hexec htag
  rw [chan_of_exec_parse hr hexec] at htag ⊢
  exact Channel.parseCore_exhausts (env := s.parseEnv c) hinv.params_lawful (hinv.channel c hr.2) htag

end Sys2Proof.Machine
end

section
/-!
PROOFS. PARSE transition by transition (42_parser.md R191, R195, R196, R211 to R213): the step each byte calls for in
each parser state, PARSE after it, and PARSE_BYTE as a store and a PARSE.
-/

namespace Sys2Proof.Machine

open Sys2Proof.Safety

/-! ## The steps of IDLE and HAVE_START (R191, R195, R196) -/

/-- The channel after byte `b` at `scan` was examined for a start pattern: dropped, or the start of a candidate. -/
def Channel.examined (ch : Channel) (b : Byte) : Channel :=
  match matchStart ch.mask b with
  | none => { ch with head := ch.scan + 1, scan := ch.scan + 1, pstate := .idle, cand := none }
  | some k => { ch with head := ch.scan, scan := ch.scan + 1, cand := some k,
                        pstate := if k = .ublox then .haveStart else .accum }

/-- Either way the byte at `scan` is taken. -/
theorem Channel.examined_cursors (ch : Channel) (b : Byte) :
    (ch.examined b).scan = ch.scan + 1 ∧ (ch.examined b).tail = ch.tail := by
  unfold Channel.examined
  split <;> exact ⟨rfl, rfl⟩

section
variable {env : ParseEnv} {ch : Channel}

/-- In IDLE the byte at `scan` is examined. -/
theorem Channel.step_idle (hst : ch.pstate = .idle) (hc : ch.cand = none) :
    ch.step env = (ch.examined (ch.byteAt env.draw ch.scan.toNat), .cont) := by
  cases hm : matchStart ch.mask (ch.byteAt env.draw ch.scan.toNat) with
  | none => simp only [Channel.step, hst, Channel.stepIdle, Channel.examined, hm, hc]
  | some k => simp only [Channel.step, hst, Channel.stepIdle, Channel.examined, hm]

/-- In HAVE_START the second byte of the ublox pattern goes on to ACCUM. -/
theorem Channel.step_haveStart_match (hst : ch.pstate = .haveStart)
    (hb : ch.byteAt env.draw ch.scan.toNat = Config.ubxSync2) :
    ch.step env = ({ ch with pstate := .accum, scan := ch.scan + 1 }, .cont) := by
  simp only [Channel.step, hst, Channel.stepHaveStart, if_pos hb]

/-- In HAVE_START any other byte stays where it is, and the candidate is given up. -/
theorem Channel.step_haveStart_mismatch (hst : ch.pstate = .haveStart)
    (hb : ch.byteAt env.draw ch.scan.toNat ≠ Config.ubxSync2) :
    ch.step env = ({ ch with pstate := .idle, cand := none, head := ch.scan }, .cont) := by
  simp only [Channel.step, hst, Channel.stepHaveStart, if_neg hb]

/-- Giving up a candidate of one byte changes nothing the examination of the next byte reads or keeps. -/
theorem Channel.examined_givenUp (ch : Channel) (b : Byte) :
    ({ ch with pstate := .idle, cand := none, head := ch.scan } : Channel).examined b = ch.examined b := by
  simp only [Channel.examined]

end

/-! ## PARSE after a transition (R211) -/

/-- PARSE on channel `c` is PARSE again with the channel `ch`. -/
structure ParseGoesOn (s : State) (c : BitVec 4) (ch : Channel) : Prop where
  inv : Inv (s.setChan c ch)
  ready : channelReady (s.setChan c ch) c
  exec_eq : exec (.parse c) s = exec (.parse c) (s.setChan c ch)

section
variable {s : State} {c : BitVec 4} {ch ch' : Channel}

/-- A step that goes on. -/
theorem ParseGoesOn.of_step (hi : Inv s) (hr : channelReady s c) (hs : (s.chan c).scan.toNat < (s.chan c).tail.toNat)
    (h : (s.chan c).step (s.parseEnv c) = (ch, .cont)) : ParseGoesOn s c ch := by
  obtain ⟨hinv, hready, heq⟩ := exec_parse_step hi hr hs h
  exact ⟨hinv, hready, heq⟩

/-- One more step that goes on. -/
theorem ParseGoesOn.step (h : ParseGoesOn s c ch) (hs : ch.scan.toNat < ch.tail.toNat)
    (hstep : ch.step (s.parseEnv c) = (ch', .cont)) : ParseGoesOn s c ch' := by
  have hchan := s.chan_setChan_self c ch
  obtain ⟨hinv, hready, heq⟩ := ParseGoesOn.of_step h.inv h.ready (by rwa [hchan]) (by rw [hchan]; exact hstep)
  rw [State.setChan_setChan] at hinv hready heq
  exact ⟨hinv, hready, h.exec_eq.trans heq⟩

/-- With no byte left, PARSE returns NONE. -/
theorem ParseGoesOn.exec_parse_end (h : ParseGoesOn s c ch) (hend : ch.scan = ch.tail) :
    exec (.parse c) s = .next { (s.setRes 0 0).setChan c { ch with lastTag := .none, pktValid := false } with
      status := ⟨0x06, .ok⟩ } := by
  have hcore : ((s.setChan c ch).chan c).parseCore ((s.setChan c ch).parseEnv c)
      = ({ ch with lastTag := .none, pktValid := false }, .none) := by
    rw [State.chan_setChan_self]
    exact Channel.parseCore_empty _ hend
  have hset (x : Channel) : ((s.setChan c ch).setRes 0 ResultTag.none.word).setChan c x = (s.setRes 0 0).setChan c x :=
    (s.setRes 0 0).setChan_setChan c ch x
  rw [h.exec_eq, exec_parse_of_parseCore h.ready hcore, hset]

/-- A transition that takes the byte at `scan`: PARSE is PARSE again after it, and returns NONE if the byte was the last. -/
theorem ParseGoesOn.takes (h : ParseGoesOn s c ch) (hscan : ch.scan = (s.chan c).scan + 1)
    (htail : ch.tail = (s.chan c).tail) :
    exec (.parse c) s = exec (.parse c) (s.setChan c ch) ∧
      ((s.chan c).scan + 1 = (s.chan c).tail →
        exec (.parse c) s = .next { (s.setRes 0 0).setChan c { ch with lastTag := .none, pktValid := false } with
          status := ⟨0x06, .ok⟩ }) :=
  ⟨h.exec_eq, fun hlast => h.exec_parse_end (hscan.trans (hlast.trans htail.symm))⟩

/-- In IDLE, PARSE goes on with the byte at `scan` examined. -/
theorem ParseGoesOn.of_idle (hi : Inv s) (hr : channelReady s c) (hs : (s.chan c).scan.toNat < (s.chan c).tail.toNat)
    (hst : (s.chan c).pstate = .idle) : ParseGoesOn s c ((s.chan c).examined (s.rbByte c (s.chan c).scan.toNat)) :=
  .of_step hi hr hs (Channel.step_idle hst ((hi.channel c hr.2).idle hst).2)

/-- In HAVE_START a byte that does not match is examined as in IDLE, after one step that gives the candidate up. -/
theorem ParseGoesOn.of_haveStart_mismatch (hi : Inv s) (hr : channelReady s c)
    (hs : (s.chan c).scan.toNat < (s.chan c).tail.toNat) (hst : (s.chan c).pstate = .haveStart)
    (hb : s.rbByte c (s.chan c).scan.toNat ≠ Config.ubxSync2) :
    ParseGoesOn s c ((s.chan c).examined (s.rbByte c (s.chan c).scan.toNat)) := by
  have hgivenUp := ParseGoesOn.of_step hi hr hs (Channel.step_haveStart_mismatch hst hb)
  rw [← Channel.examined_givenUp]
  exact hgivenUp.step hs (Channel.step_idle rfl rfl)

end

/-- Settles O38: the frame of a PARSE is that of PARSE_CORE, and each transition is one step that goes on, or two where
HAVE_START gives its candidate up. -/
theorem parseCompletes : Obligations.ParseCompletes := by
  refine ⟨?frame, ?transitions⟩
  case frame =>
    intro s c hr
    have hkept := Channel.parseCore_kept (s.parseEnv c) (s.chan c)
    refine ⟨_, exec_parse_ready hr, ?_⟩
    simp only [State.chan_done, State.chan_setRes, State.chan_setChan_self]
    refine ⟨rfl, fun d hd => s.chan_setChan_ne _ hd.symm, hkept.inited.trans hr.2, hkept.tail, hkept.cap, hkept.mask,
      hkept.txCnt, fun hend => ?_⟩
    rw [Channel.parseCore_empty _ hend]
  case transitions =>
    intro s c hi hr ch b examined stepsTo hs
    obtain ⟨hscan, htail⟩ := ch.examined_cursors b
    refine ⟨fun hst => ?_, fun hst hb => ?_, fun hst hb => ?_, fun k hst hc hv => ?_⟩
    · exact (ParseGoesOn.of_idle hi hr hs hst).takes hscan htail
    · exact (ParseGoesOn.of_step hi hr hs (Channel.step_haveStart_match hst hb)).takes rfl rfl
    · exact (ParseGoesOn.of_haveStart_mismatch hi hr hs hst hb).takes hscan htail
    · exact (ParseGoesOn.of_step hi hr hs (Channel.step_needMore hst hc hv)).takes rfl rfl

/-! ## PARSE_BYTE (R213) -/

/-- The store of one byte. -/
theorem Channel.store_singleton (ch : Channel) (b : Byte) :
    ch.store [b] = { ch with rb := ch.rb.put ch.tail.toNat b, tail := ch.tail + 1 } := rfl

/-- Settles O39: both sides run PARSE_CORE on the same channel, and differ in STATUS. -/
theorem parseByteStoresThenParses : Obligations.ParseByteStoresThenParses := by
  intro s c b hr ch
  refine ⟨fun hroom => ?room, fun hfull => ?full⟩
  case room =>
    rw [← Channel.store_singleton]
    have hr' : channelReady (s.setChan c (ch.store [b])) c := by
      refine ⟨hr.1, ?_⟩
      rw [State.chan_setChan_self]
      exact hr.2
    refine ⟨_, exec_parse_ready hr', ?_⟩
    rw [exec_parseByte, runParseByte_stored hr b hroom]
    simp only [State.chan_setChan_self, State.setChan_setChan]
    rfl
  case full =>
    refine ⟨_, exec_parse_ready hr, ?_⟩
    rw [exec_parseByte, runParseByte_full hr b hfull]
    rfl

end Sys2Proof.Machine
end

section
/-!
PROOFS. The byte strings of the codec (43_codec.md R228, R230, R234): SWAP32 word by word, and un-escaping as the exact
inverse of escaping.
-/

namespace Sys2Proof.Machine

/-! ## SWAP32 (R234) -/

theorem swap32_cons (b0 b1 b2 b3 : Byte) (rest : List Byte) :
    swap32 (b0 :: b1 :: b2 :: b3 :: rest) = b3 :: b2 :: b1 :: b0 :: swap32 rest := rfl

/-- Fewer than four bytes hold no complete word. -/
theorem swap32_of_noWord {P : List Byte} (h : P.length < 4) : swap32 P = P := by
  match P with
  | [] | [_] | [_, _] | [_, _, _] => rfl
  | _ :: _ :: _ :: _ :: _ =>
    simp only [List.length_cons] at h
    omega

/-- Induction over the complete words of a byte string. -/
theorem word_induction {motive : List Byte → Prop} (short : ∀ P, P.length < 4 → motive P)
    (word : ∀ b0 b1 b2 b3 rest, motive rest → motive (b0 :: b1 :: b2 :: b3 :: rest)) (P : List Byte) : motive P := by
  induction P using swap32.induct with
  | case1 b0 b1 b2 b3 rest ih => exact word b0 b1 b2 b3 rest ih
  | case2 rest hrest =>
    refine short rest (Nat.lt_of_not_le fun hlen => ?_)
    match rest, hlen with
    | _ :: _ :: _ :: _ :: _, _ => exact hrest _ _ _ _ _ rfl

@[simp] theorem swap32_swap32 (P : List Byte) : swap32 (swap32 P) = P := by
  induction P using word_induction with
  | short P h => rw [swap32_of_noWord h, swap32_of_noWord h]
  | word b0 b1 b2 b3 rest ih => rw [swap32_cons, swap32_cons, ih]

/-- Byte `j` of the complete word `k` is byte `3 - j` of that word of the source. -/
theorem swap32_word (P : List Byte) {k j : Nat} (hk : k < P.length / 4) (hj : j < 4) :
    (swap32 P)[4 * k + j]? = P[4 * k + (3 - j)]? := by
  induction P using word_induction generalizing k with
  | short P h => omega
  | word b0 b1 b2 b3 rest ih =>
    rw [swap32_cons]
    cases k with
    | zero =>
      match j, hj with
      | 0, _ | 1, _ | 2, _ | 3, _ => rfl
    | succ k =>
      have hrest : k < rest.length / 4 := by
        simp only [List.length_cons] at hk
        omega
      have hindex (i : Nat) : 4 * (k + 1) + i = 4 * k + i + 4 := by omega
      rw [hindex, hindex]
      exact ih hrest

/-- The bytes after the last complete word stay. -/
theorem swap32_tail (P : List Byte) {i : Nat} (hi : 4 * (P.length / 4) ≤ i) : (swap32 P)[i]? = P[i]? := by
  induction P using word_induction generalizing i with
  | short P h => rw [swap32_of_noWord h]
  | word b0 b1 b2 b3 rest ih =>
    simp only [List.length_cons] at hi
    obtain ⟨i, rfl⟩ : ∃ i', i = i' + 4 := ⟨i - 4, by omega⟩
    exact ih (by omega)

/-- Settles O57, word by word. -/
theorem swapIsInvolution : Obligations.SwapIsInvolution :=
  fun P => ⟨swap32_length P, fun _ _ => swap32_word P, fun _ => swap32_tail P, swap32_swap32 P⟩

/-! ## Un-escaping (R230) -/

/-- What un-escapes is the escaped form of what comes out. -/
theorem escapeAll_of_unescape {p : Params} {X R : List Byte} (h : unescape p X = some R) : escapeAll p true R = X := by
  induction X using unescape.induct p generalizing R with
  | case1 =>
    obtain rfl : [] = R := Option.some.inj h
    rfl
  | case2 => simp [unescape] at h
  | case3 x hkey hesc => simp [unescape, hkey, hesc] at h
  | case4 x hkey hesc =>
    have hplain : inEscSet p x = false := by simpa using hesc
    rw [unescape_literal p x [] hkey hplain] at h
    obtain rfl : [x] = R := Option.some.inj h
    rw [escapeAll_cons, escapeByte_plain hplain]
    rfl
  | case5 y rest hesc ih =>
    rw [unescape_pair p y rest hesc] at h
    obtain ⟨r, hr, rfl⟩ := Option.map_eq_some_iff.1 h
    rw [escapeAll_cons, escapeByte_protected hesc, BitVec.not_not, ih hr]
    rfl
  | case6 y rest hesc => simp [unescape, hesc] at h
  | case7 x y rest hkey hesc => simp [unescape, hkey, hesc] at h
  | case8 x y rest hkey hesc ih =>
    have hplain : inEscSet p x = false := by simpa using hesc
    rw [unescape_literal p x (y :: rest) hkey hplain] at h
    obtain ⟨r, hr, rfl⟩ := Option.map_eq_some_iff.1 h
    rw [escapeAll_cons, escapeByte_plain hplain, ih hr]
    rfl

/-- Un-escaping answers `R` on the escaped form of `R` and on no other string. -/
theorem unescape_eq_some_iff {p : Params} (hp : p.lawful = true) {X R : List Byte} :
    unescape p X = some R ↔ X = escapeAll p true R :=
  ⟨fun h => (escapeAll_of_unescape h).symm, fun h => h ▸ unescape_escapeAll hp R⟩

/-- Settles O55: escaping inverts un-escaping on both sides. -/
theorem unescapeReversesEscape : Obligations.UnescapeReversesEscape :=
  ⟨fun _ Y hp => unescape_escapeAll hp Y, fun _ _ _ => escapeAll_of_unescape⟩

end Sys2Proof.Machine
end

section
/-!
PROOFS. ENC_ENABLE and SET_HOST_ORDER (43_codec.md R245, R246).
-/

namespace Sys2Proof.Machine

/-- A word of format B with a reserved bit set is illegal (30_encoding.md R110, R111). -/
theorem formatB_reserved {w : Word} (f : Bool → Instr) (h : w.extractLsb' 1 23 ≠ 0) :
    formatB w f = .error (.reservedBits (wordOpc w)) :=
  if_neg h

theorem decode_of_encEnable {w : Word} (hopc : wordOpc w = 0x30) : decode w = formatB w .encEnable := by
  simp [decode, hopc]

theorem decode_of_setHostOrder {w : Word} (hopc : wordOpc w = 0x31) : decode w = formatB w .setHostOrder := by
  simp [decode, hopc]

/-- The word of a command of format B: its OPC and its bit. -/
theorem encode_formatB {i : Instr} {b : Bool} (opc : Byte) (hopc : i.opcode = opc)
    (hbits : operandBits i = (0 : BitVec 23) ++ BitVec.ofBool b) :
    encode i = opc.setWidth 32 <<< 24 ||| (BitVec.ofBool b).setWidth 32 := by
  rw [encode_eq_or, hopc, hbits, BitVec.setWidth_append_eq_shiftLeft_setWidth_or, BitVec.ofNat_eq_ofNat,
    BitVec.setWidth_zero, BitVec.zero_shiftLeft, BitVec.zero_or]

/-- Settles O54: the reserved field of format B, then each command's arm. -/
theorem configurationCommandsComplete : Obligations.ConfigurationCommandsComplete := by
  refine ⟨fun w hreserved => ⟨fun hopc => ?encEnable, fun hopc => ?setHostOrder⟩, fun s b => ?effects⟩
  case encEnable =>
    rw [decode_of_encEnable hopc, formatB_reserved _ hreserved]
    exact congrArg (Except.error ∘ Illegal.reservedBits) hopc
  case setHostOrder =>
    rw [decode_of_setHostOrder hopc, formatB_reserved _ hreserved]
    exact congrArg (Except.error ∘ Illegal.reservedBits) hopc
  case effects =>
    exact ⟨encode_formatB 0x30 rfl rfl, encode_formatB 0x31 rfl rfl, exec_encEnable b s, exec_setHostOrder b s⟩

end Sys2Proof.Machine
end

section
/-!
PROOFS. ENCODE and DECODE where their checks pass (43_codec.md R232, R238): the frame ENCODE builds, written out from the
operands, and the three ways DECODE ends once the framing holds.
-/

namespace Sys2Proof.Machine

open Sys2Proof.Safety

/-! ## The frame ENCODE builds (R223, R224, R228, R233) -/

theorem escapeByte_eq (p : Params) (encEn : Bool) (x : Byte) :
    escapeByte p encEn x = if encEn = true ∧ x ∈ p.escSet then [p.escKey, ~~~x] else [x] := by
  simp only [escapeByte, Bool.and_eq_true, inEscSet_iff]

/-- A frame, part by part. -/
theorem frameBytes_parts (p : Params) (encEn : Bool) (S pid counter flags : Byte) (P : List Byte) (ck : Word) :
    frameBytes p encEn S pid counter flags P ck =
      [S] ++ escapeByte p encEn pid ++ escapeByte p encEn counter ++ escapeByte p encEn flags
        ++ P.flatMap (escapeByte p encEn)
        ++ escapeByte p encEn (byteOf ck 2) ++ escapeByte p encEn (byteOf ck 1) ++ escapeByte p encEn (byteOf ck 0)
        ++ [Config.stop] := by
  simp [frameBytes, escapeAll]

/-- R233: bit 0 of the flags is the host's order, the other bits are the template's and the additional bits. -/
theorem encodeFlags_eq (hostLe : Bool) (t x : Word) : encodeFlags hostLe t x =
    ((t.extractLsb' 16 8 ||| x.extractLsb' 0 8) &&& 0xFE) ||| (if hostLe then 1 else 0) := by
  cases hostLe <;> rfl

theorem versionStart_eq (ver : Version) : versionStart ver = match ver with
    | .v1 => 0xFF
    | .v2 => 0xEF := by
  cases ver <;> rfl

/-- Settles O47: the frame is written at the destination, and the write touches no other byte. -/
theorem encodeCompletes : Obligations.EncodeCompletes := by
  intro s c ver hready src n dst cap hbody hcap hsrc hdst E S pid counter flags P acc ck out
  have hframe : s.encoded ver = out := by
    have hE : escapeByte s.params s.ctrl.encEn = E := funext (escapeByte_eq s.params s.ctrl.encEn)
    have hS : versionStart ver = S := versionStart_eq ver
    have hflags : encodeFlags s.ctrl.hostLe (s.arg 4) (s.arg 5) = flags := encodeFlags_eq ..
    simp only [State.encoded, frameBytes_parts, hE, hS, hflags]
    rfl
  have hroom : worstSize s.ctrl.encEn n ≤ cap := by rwa [worstSize_eq]
  have hrun := runEncode_ready hready ver hbody hroom hsrc hdst
  have hlen := (s.encoded_length_le ver).trans hroom
  rw [hframe] at hrun hlen
  clear_value out
  rw [exec_encode, hrun]
  exact ⟨_, rfl, rfl, hlen, s.dmemRead_dmemWrite_self dst out, fun a ha => s.dmemByte_dmemWrite_outside ha⟩

/-! ## DECODE of a range whose framing holds (R238) -/

section
variable {s : State} {fr : IsbFrame}

/-- A range that is framed and unpacks to a frame is judged by its checksum. -/
theorem runDecode_unpacked (hsrc : (s.arg 0).toNat + (s.arg 1).toNat ≤ s.params.dmemSize)
    (hdst : (s.arg 2).toNat + (s.arg 3).toNat ≤ s.params.dmemSize)
    (hframed : framed (s.dmemRead (s.arg 0).toNat (s.arg 1).toNat) = true)
    (hunpack : unpackIsb s.params (s.dmemRead (s.arg 0).toNat (s.arg 1).toNat) = .frame fr) :
    runDecode s = decodeUnpacked s fr := by
  rw [runDecode_inDmem hsrc hdst, if_pos hframed, hunpack]

theorem decodeUnpacked_mismatch (hck : fr.received ≠ fr.expected s.params) :
    decodeUnpacked s fr = (s.setDecodeResults fr).setStatus .decode .cksumMismatch :=
  if_pos hck

theorem decodeUnpacked_small (hck : fr.received = fr.expected s.params)
    (hcap : (s.arg 3).toNat < 4 + fr.payload.length) : decodeUnpacked s fr = s.raise .decode .dstTooSmall := by
  rw [decodeUnpacked, if_neg (not_not.2 hck), Config.isbHeaderLength_eq, if_pos hcap]

theorem decodeUnpacked_ok (hck : fr.received = fr.expected s.params)
    (hcap : 4 + fr.payload.length ≤ (s.arg 3).toNat) :
    decodeUnpacked s fr =
      ((s.setDecodeResults fr).dmemWrite (s.arg 2).toNat (fr.decoded s.ctrl.hostLe)).done .decode := by
  rw [decodeUnpacked, if_neg (not_not.2 hck), Config.isbHeaderLength_eq, if_neg (Nat.not_lt.2 hcap)]
  rfl

end

/-- Settles O48: the range unpacks to the frame of its unescaped bytes, and each clause is one way that frame ends. -/
theorem decodeCompletes : Obligations.DecodeCompletes := by
  intro s R src len dst cap hsrc hdst hlen hstart hstop hR h6 hbody n S pid counter flags P ckr acc expected data
    reported
  let fr : IsbFrame := ⟨S, pid, counter, flags, P, ckr⟩
  have hunpack : unpackIsb s.params (s.dmemRead src len) = .frame fr := by
    simp only [unpackIsb_dmemRead s src len hlen, hR, if_neg (Nat.not_lt.2 h6), if_neg (Nat.not_lt.2 hbody)]
    rw [splitIsb_eq _ h6, slice_eq_take_drop, Nat.add_sub_cancel_left]
    rfl
  have hP : P.length = n := by
    simp only [P, n, List.length_take, List.length_drop]
    omega
  have hrun := runDecode_unpacked hsrc hdst ((framed_dmemRead s src len).2 ⟨hlen, hstart, hstop⟩) hunpack
  have hreported : s.setDecodeResults fr = reported := by
    rw [State.setDecodeResults, hP]
    rfl
  rw [exec_decode, hrun]
  refine ⟨fun hck => ?mismatch, fun hck hcap => ?small, fun hck hcap => ?ok⟩
  case mismatch =>
    rw [decodeUnpacked_mismatch hck, hreported]
    rfl
  case small =>
    rw [decodeUnpacked_small hck (by rwa [hP])]
    rfl
  case ok =>
    have hdecoded : fr.decoded s.ctrl.hostLe = [S, pid, counter, flags] ++ data := rfl
    have hlength : ([S, pid, counter, flags] ++ data).length = 4 + n := by
      rw [← hdecoded, IsbFrame.decoded_length, hP, Nat.add_comm]
    rw [decodeUnpacked_ok hck (by rwa [hP]), hreported, hdecoded, ← hlength]
    exact ⟨_, rfl, rfl, reported.dmemRead_dmemWrite_self dst _, fun a ha => reported.dmemByte_dmemWrite_outside ha⟩

end Sys2Proof.Machine
end

section
/-!
PROOFS. DECODE_FOOTER (43_codec.md R243). Its cursor moves backwards, so what it reads is told forwards here: a checksum
byte comes out exactly where its encoded form stands and no escape pair is cut, and three of them in a row are the
encoded form of the three.
-/

namespace Sys2Proof.Machine

/-! ## One checksum byte, backwards -/

section
variable (p : Params) (rd : Nat → Byte) (lo : Nat)

/-- The byte at `q` is the second byte of an escape pair that begins at or above `lo`. -/
def SecondOfPair (q : Nat) : Prop := lo < q ∧ rd (q - 1) = p.escKey ∧ inEscSet p (~~~rd q) = true

/-- The bytes `X` stand at `[q, j)`, at or above `lo`, and do not begin inside an escape pair. -/
structure EncodedAt (X : List Byte) (q j : Nat) : Prop where
  above : lo ≤ q
  stop : j = q + X.length
  bytes : bytesFrom rd q X.length = X
  whole : ¬ SecondOfPair p rd lo q

end

section
variable {p : Params} {rd : Nat → Byte} {lo : Nat}

/-- The two ways a checksum byte `v` is read: the complement of the second byte of a pair, or a literal. -/
theorem footerByte_eq_some_iff {j q : Nat} {v : Byte} :
    footerByte p rd lo j = some (v, q) ↔ lo ≤ q ∧
      ((j = q + 2 ∧ rd q = p.escKey ∧ rd (q + 1) = ~~~v ∧ inEscSet p v = true) ∨
        (j = q + 1 ∧ rd q = v ∧ inEscSet p v = false ∧ ¬ SecondOfPair p rd lo q)) := by
  unfold footerByte
  constructor
  · intro h
    split_ifs at h with hlo hpair hesc
    · obtain ⟨rfl, rfl⟩ := Prod.mk.inj (Option.some.inj h)
      obtain ⟨hj, hkey, hprot⟩ := hpair
      have hlast : j - 2 + 1 = j - 1 := by omega
      exact ⟨by omega, .inl ⟨by omega, hkey, by rw [hlast, BitVec.not_not], hprot⟩⟩
    · obtain ⟨rfl, rfl⟩ := Prod.mk.inj (Option.some.inj h)
      refine ⟨by omega, .inr ⟨by omega, rfl, by simpa using hesc, fun ⟨hq, hkey, hprot⟩ => hpair ?_⟩⟩
      exact ⟨by omega, hkey, hprot⟩
  · rintro ⟨hlo, ⟨rfl, hkey, hsecond, hprot⟩ | ⟨rfl, rfl, hplain, hwhole⟩⟩
    · have hv : ~~~rd (q + 1) = v := by rw [hsecond, BitVec.not_not]
      rw [if_neg (by omega), if_pos ⟨by omega, hkey, hv.symm ▸ hprot⟩]
      exact congrArg (fun x => some (x, q)) hv
    · rw [if_neg (by omega), if_neg fun ⟨hj, hkey, hprot⟩ => hwhole ⟨by omega, hkey, hprot⟩, Nat.add_sub_cancel, hplain]
      rfl

/-- The cursor moves down and stays at or above `lo`. -/
theorem footerByte_cursor {j q : Nat} {v : Byte} (h : footerByte p rd lo j = some (v, q)) : lo ≤ q ∧ q < j := by
  obtain ⟨hlo, ⟨rfl, _⟩ | ⟨rfl, _⟩⟩ := footerByte_eq_some_iff.1 h <;> omega

/-- No escape pair begins with a second byte (00_scope.md R8 law (2)). -/
theorem not_secondOfPair_of_key (hp : p.lawful = true) {q : Nat} (h : rd q = p.escKey) : ¬ SecondOfPair p rd lo q := by
  rintro ⟨_, _, hprot⟩
  rw [h, Params.lawful_complement hp (Params.lawful_escKey hp)] at hprot
  cases hprot

/-- A checksum byte is read where its encoded form stands (R228). -/
theorem footerByte_iff_encodedAt (hp : p.lawful = true) {j q : Nat} {v : Byte} :
    footerByte p rd lo j = some (v, q) ↔ EncodedAt p rd lo (escapeByte p true v) q j := by
  rw [footerByte_eq_some_iff]
  cases hv : inEscSet p v with
  | true =>
    rw [escapeByte_protected hv]
    constructor
    · rintro ⟨hlo, ⟨rfl, hkey, hsecond, _⟩ | ⟨_, _, hplain, _⟩⟩
      · exact ⟨hlo, rfl, by simp [bytesFrom_succ, hkey, hsecond], not_secondOfPair_of_key hp hkey⟩
      · cases hplain
    · rintro ⟨hlo, rfl, hbytes, _⟩
      simp only [List.length_cons, List.length_nil, bytesFrom_succ, bytesFrom_zero, List.cons.injEq, and_true] at hbytes
      obtain ⟨hkey, hsecond⟩ := hbytes
      exact ⟨hlo, .inl ⟨rfl, hkey, hsecond, rfl⟩⟩
  | false =>
    rw [escapeByte_plain hv]
    constructor
    · rintro ⟨hlo, ⟨_, _, _, hprot⟩ | ⟨rfl, hbyte, _, hwhole⟩⟩
      · cases hprot
      · exact ⟨hlo, rfl, by simp [bytesFrom_succ, hbyte], hwhole⟩
    · rintro ⟨hlo, rfl, hbytes, hwhole⟩
      simp only [List.length_cons, List.length_nil, bytesFrom_succ, bytesFrom_zero, List.cons.injEq, and_true] at hbytes
      exact ⟨hlo, .inr ⟨rfl, hbytes, rfl, hwhole⟩⟩

/-- The encoded form of a byte does not end in the escape key, so what follows it begins no pair's second byte. -/
theorem EncodedAt.next_whole (hp : p.lawful = true) {v : Byte} {q m : Nat}
    (h : EncodedAt p rd lo (escapeByte p true v) q m) : ¬ SecondOfPair p rd lo m := by
  rintro ⟨_, hkey, _⟩
  obtain ⟨_, ⟨rfl, _, hsecond, hprot⟩ | ⟨rfl, rfl, hplain, _⟩⟩ :=
    footerByte_eq_some_iff.1 ((footerByte_iff_encodedAt hp).2 h)
  · exact Params.lawful_key_ne hp (Params.lawful_complement hp hprot) (hsecond.symm.trans hkey)
  · exact Params.lawful_key_ne hp hplain hkey

/-- The encoded form of a byte, and an encoded string after it. -/
theorem encodedAt_append_iff (hp : p.lawful = true) {v : Byte} {X : List Byte} {q j : Nat} :
    EncodedAt p rd lo (escapeByte p true v ++ X) q j ↔
      ∃ m, EncodedAt p rd lo (escapeByte p true v) q m ∧ EncodedAt p rd lo X m j := by
  constructor
  · rintro ⟨hlo, rfl, hbytes, hwhole⟩
    rw [List.length_append, bytesFrom_append] at hbytes
    obtain ⟨hfirst, hrest⟩ := List.append_inj hbytes (bytesFrom_length ..)
    have hv : EncodedAt p rd lo (escapeByte p true v) q (q + (escapeByte p true v).length) := ⟨hlo, rfl, hfirst, hwhole⟩
    exact ⟨_, hv, by omega, by rw [List.length_append, Nat.add_assoc], hrest, hv.next_whole hp⟩
  · rintro ⟨_, ⟨hlo, rfl, hfirst, hwhole⟩, _, rfl, hrest, _⟩
    exact ⟨hlo, by rw [List.length_append, Nat.add_assoc], by rw [List.length_append, bytesFrom_append, hfirst, hrest],
      hwhole⟩

/-! ## The three checksum bytes -/

theorem footerField_eq_some_iff {last q : Nat} {ck : Word} :
    footerField p rd lo last = some (ck, q) ↔ ∃ v2 v1 v0 j1 j0, footerByte p rd lo j1 = some (v2, q) ∧
      footerByte p rd lo j0 = some (v1, j1) ∧ footerByte p rd lo last = some (v0, j0) ∧ word24 v2 v1 v0 = ck := by
  unfold footerField
  constructor
  · intro h
    split at h
    · cases h
    next v0 j0 h0 =>
      split at h
      · cases h
      next v1 j1 h1 =>
        split at h
        · cases h
        next v2 j2 h2 =>
          obtain ⟨hck, rfl⟩ := Prod.mk.inj (Option.some.inj h)
          exact ⟨v2, v1, v0, j1, j0, h2, h1, h0, hck⟩
  · rintro ⟨v2, v1, v0, j1, j0, h2, h1, h0, rfl⟩
    simp only [h0, h1, h2]

/-- The field is read where the encoded form of three bytes stands, up to the stop byte. -/
theorem footerField_iff_encodedAt (hp : p.lawful = true) {last q : Nat} {ck : Word} :
    footerField p rd lo last = some (ck, q) ↔
      ∃ v2 v1 v0, EncodedAt p rd lo (escapeAll p true [v2, v1, v0]) q last ∧ word24 v2 v1 v0 = ck := by
  have hthree (v2 v1 v0 : Byte) : escapeAll p true [v2, v1, v0]
      = escapeByte p true v2 ++ (escapeByte p true v1 ++ escapeByte p true v0) := by
    simp only [escapeAll_cons, escapeAll_nil, List.append_nil]
  simp only [footerField_eq_some_iff, footerByte_iff_encodedAt hp, hthree, encodedAt_append_iff hp]
  constructor
  · rintro ⟨v2, v1, v0, j1, j0, h2, h1, h0, hck⟩
    exact ⟨v2, v1, v0, ⟨j1, h2, j0, h1, h0⟩, hck⟩
  · rintro ⟨v2, v1, v0, ⟨j1, h2, j0, h1, h0⟩, hck⟩
    exact ⟨v2, v1, v0, j1, j0, h2, h1, h0, hck⟩

/-- The encoded form of a nonempty string as R243 finds it: a range up to `j` that un-escapes to the string. -/
theorem encodedAt_escapeAll_iff (hp : p.lawful = true) {V : List Byte} (hV : V ≠ []) {q j : Nat} :
    EncodedAt p rd lo (escapeAll p true V) q j ↔
      lo ≤ q ∧ unescape p (bytesFrom rd q (j - q)) = some V ∧ ¬ SecondOfPair p rd lo q := by
  rw [unescape_eq_some_iff hp]
  constructor
  · rintro ⟨hlo, rfl, hbytes, hwhole⟩
    exact ⟨hlo, by rwa [Nat.add_sub_cancel_left], hwhole⟩
  · rintro ⟨hlo, hbytes, hwhole⟩
    have hlen : (escapeAll p true V).length = j - q := by rw [← hbytes, bytesFrom_length]
    have hpos := List.length_pos_of_ne_nil hV
    have hle := (escapeAll_length p V).1
    exact ⟨hlo, by omega, by rw [hlen, hbytes], hwhole⟩

end

/-! ## The command -/

section
variable {s : State}

theorem runDecodeFooter_badArg (h : (s.arg 0).toNat ≤ (s.arg 1).toNat) :
    runDecodeFooter s = s.raise .decodeFooter .badArg :=
  if_pos h

theorem runDecodeFooter_oob (hlo : (s.arg 1).toNat < (s.arg 0).toNat) (h : s.params.dmemSize < (s.arg 0).toNat) :
    runDecodeFooter s = s.raise .decodeFooter .oob := by
  rw [runDecodeFooter, if_neg (Nat.not_le.2 hlo), if_pos h]

/-- A range without the stop byte. -/
theorem runDecodeFooter_noStop (hlo : (s.arg 1).toNat < (s.arg 0).toNat) (hend : (s.arg 0).toNat ≤ s.params.dmemSize)
    (h : s.dmemByte ((s.arg 0).toNat - 1) ≠ Config.stop) : runDecodeFooter s = s.raise .decodeFooter .malformed := by
  rw [runDecodeFooter, if_neg (Nat.not_le.2 hlo), if_neg (Nat.not_lt.2 hend), if_neg h]

section
variable (hlo : (s.arg 1).toNat < (s.arg 0).toNat) (hend : (s.arg 0).toNat ≤ s.params.dmemSize)
  (hstop : s.dmemByte ((s.arg 0).toNat - 1) = Config.stop)
include hlo hend hstop

/-- A range that ends in the stop byte but in no checksum field. -/
theorem runDecodeFooter_noField
    (h : footerField s.params s.dmemByte (s.arg 1).toNat ((s.arg 0).toNat - 1) = none) :
    runDecodeFooter s = s.raise .decodeFooter .malformed := by
  simp only [runDecodeFooter, if_neg (Nat.not_le.2 hlo), if_neg (Nat.not_lt.2 hend), if_pos hstop, h]

theorem runDecodeFooter_field {ck : Word} {q : Nat}
    (h : footerField s.params s.dmemByte (s.arg 1).toNat ((s.arg 0).toNat - 1) = some (ck, q)) :
    runDecodeFooter s = ((s.setRes 0 ck).setRes 1 (BitVec.ofNat 32 q)).done .decodeFooter := by
  simp only [runDecodeFooter, if_neg (Nat.not_le.2 hlo), if_neg (Nat.not_lt.2 hend), if_pos hstop, h]

end

end

/-- Settles O52: the checksum field is read exactly where the encoded form of three bytes ends at the stop byte. -/
theorem decodeFooterCompletes : Obligations.DecodeFooterCompletes := by
  intro s hp stopEnd lo footer hlo hend hstop
  have hfooter (q : Nat) (v2 v1 v0 : Byte) : footer q v2 v1 v0 ↔
      EncodedAt s.params s.dmemByte lo (escapeAll s.params true [v2, v1, v0]) q (stopEnd - 1) := by
    rw [encodedAt_escapeAll_iff hp (List.cons_ne_nil _ _), SecondOfPair, inEscSet_iff]
    rfl
  simp only [hfooter, exec_decodeFooter]
  refine ⟨fun q v2 v1 v0 h => ?field, fun h => ?noField⟩
  case field =>
    rw [runDecodeFooter_field hlo hend hstop ((footerField_iff_encodedAt hp).2 ⟨v2, v1, v0, h, rfl⟩)]
    rfl
  case noField =>
    rw [runDecodeFooter_noField hlo hend hstop]
    · rfl
    · refine Option.eq_none_iff_forall_ne_some.2 fun ⟨ck, q⟩ hsome => ?_
      obtain ⟨v2, v1, v0, hat, _⟩ := (footerField_iff_encodedAt hp).1 hsome
      exact h q v2 v1 v0 hat

end Sys2Proof.Machine
end

section
/-!
PROOFS. When ENCODE, DECODE and DECODE_FOOTER fail before a frame's checksum is judged (43_codec.md R232, R238, R243;
60_exceptions.md R262): one lemma for each failing check.
-/

namespace Sys2Proof.Machine

open Sys2Proof.Safety

/-! ## ENCODE and DECODE -/

section
variable {s : State}

theorem runEncode_tooLarge {c : BitVec 4} (hr : channelReady s c) (ver : Version)
    (h : s.params.maxBody < (s.arg 1).toNat ∨ (s.arg 3).toNat < worstSize s.ctrl.encEn (s.arg 1).toNat) :
    runEncode c ver s = s.raise (.encode c ver) .encodeTooLarge := by
  rw [runEncode, State.withChannel_ready hr]
  exact if_pos h

theorem runEncode_oob {c : BitVec 4} (hr : channelReady s c) (ver : Version)
    (hfits : ¬ (s.params.maxBody < (s.arg 1).toNat ∨ (s.arg 3).toNat < worstSize s.ctrl.encEn (s.arg 1).toNat))
    (h : s.params.dmemSize < (s.arg 0).toNat + (s.arg 1).toNat ∨ s.params.dmemSize < (s.arg 2).toNat + (s.arg 3).toNat) :
    runEncode c ver s = s.raise (.encode c ver) .oob := by
  rw [runEncode, State.withChannel_ready hr]
  simp only [if_neg hfits]
  obtain hsrc | hdst := h
  · rw [State.inDmem_false hsrc]
    rfl
  · rw [State.inDmem_false hdst]
    exact ite_self _

theorem runDecode_oob
    (h : s.params.dmemSize < (s.arg 0).toNat + (s.arg 1).toNat ∨ s.params.dmemSize < (s.arg 2).toNat + (s.arg 3).toNat) :
    runDecode s = s.raise .decode .oob := by
  unfold runDecode
  obtain hsrc | hdst := h
  · rw [State.inDmem_false hsrc]
    rfl
  · rw [State.inDmem_false hdst]
    exact ite_self _

theorem runDecode_malformed (hsrc : (s.arg 0).toNat + (s.arg 1).toNat ≤ s.params.dmemSize)
    (hdst : (s.arg 2).toNat + (s.arg 3).toNat ≤ s.params.dmemSize)
    (h : framed (s.dmemRead (s.arg 0).toNat (s.arg 1).toNat) = true →
      ∀ fr, unpackIsb s.params (s.dmemRead (s.arg 0).toNat (s.arg 1).toNat) ≠ .frame fr) :
    runDecode s = s.raise .decode .malformed := by
  rw [runDecode_inDmem hsrc hdst]
  split
  next hframed =>
    split
    · rfl
    · rfl
    next fr hunpack => exact absurd hunpack (h hframed fr)
  next => rfl

end

/-- What a range that unpacks to a frame un-escapes to: at least six bytes, and no more than `MAX_BODY` of payload. -/
theorem unescape_of_unpackIsb {s : State} {a n : Nat} {fr : IsbFrame} (hn : 2 ≤ n)
    (h : unpackIsb s.params (s.dmemRead a n) = .frame fr) :
    ∃ R, unescape s.params (s.dmemRead (a + 1) (n - 2)) = some R ∧ 6 ≤ R.length ∧ R.length - 6 ≤ s.params.maxBody := by
  rw [unpackIsb_dmemRead s a n hn] at h
  split at h
  · cases h
  next R hR =>
    split_ifs at h with h6 hbody
    exact ⟨R, hR, Nat.not_lt.1 h6, Nat.not_lt.1 hbody⟩

/-! ## DECODE_FOOTER -/

section
variable {p : Params} {rd : Nat → Byte} {lo last : Nat}

/-- Three checksum bytes do not fit. -/
theorem footerField_short (h : last < lo + 3) : footerField p rd lo last = none := by
  refine Option.eq_none_iff_forall_ne_some.2 fun ⟨ck, q⟩ hsome => ?_
  obtain ⟨v2, v1, v0, j1, j0, h2, h1, h0, _⟩ := footerField_eq_some_iff.1 hsome
  have hc2 := footerByte_cursor h2
  have hc1 := footerByte_cursor h1
  have hc0 := footerByte_cursor h0
  omega

/-- The last checksum byte is reserved and not the second byte of an escape pair. -/
theorem footerField_reserved (hprot : inEscSet p (rd (last - 1)) = true) (h : ¬ SecondOfPair p rd lo (last - 1)) :
    footerField p rd lo last = none := by
  refine Option.eq_none_iff_forall_ne_some.2 fun ⟨ck, q⟩ hsome => ?_
  obtain ⟨v2, v1, v0, j1, j0, h2, h1, h0, _⟩ := footerField_eq_some_iff.1 hsome
  obtain ⟨hlo, ⟨rfl, hkey, hsecond, hv⟩ | ⟨rfl, rfl, hplain, _⟩⟩ := footerByte_eq_some_iff.1 h0
  · have hv0 : ~~~rd (j0 + 1) = v0 := by rw [hsecond, BitVec.not_not]
    exact h ⟨by omega, hkey, hv0.symm ▸ hv⟩
  · exact absurd hprot (by simp [hplain])

end

/-- Settles O49: each clause is one failing check, after the checks before it. -/
theorem codecCommandsReject : Obligations.CodecCommandsReject := by
  refine fun s => ⟨fun c ver hready => ?encode, ?decode, ?decodeFooter⟩
  case encode =>
    simp only [← worstSize_eq, exec_encode]
    refine ⟨fun hlarge => ?_, fun hfits hout => ?_⟩
    · rw [runEncode_tooLarge hready ver hlarge]
      rfl
    · rw [runEncode_oob hready ver hfits hout]
      rfl
  case decode =>
    intro src len outside
    refine ⟨fun hout => ?_, fun hin hbad => ?_⟩
    · rw [exec_decode, runDecode_oob hout]
      rfl
    · obtain ⟨hsrc, hdst⟩ := not_or.1 hin
      rw [exec_decode, runDecode_malformed (Nat.not_lt.1 hsrc) (Nat.not_lt.1 hdst)]
      · rfl
      · intro hframed fr hunpack
        obtain ⟨hlen, hstart, hstop⟩ := (framed_dmemRead s src len).1 hframed
        obtain ⟨R, hR, h6, hbody⟩ := unescape_of_unpackIsb hlen hunpack
        obtain hshort | ⟨hv1, hv2⟩ | hnostop | hnone | ⟨R', hR', hlength⟩ := hbad
        · omega
        · exact hstart.elim hv1 hv2
        · exact hnostop hstop
        · exact absurd (hnone.symm.trans hR) (Option.some_ne_none R).symm
        · obtain rfl : R' = R := Option.some.inj (hR'.symm.trans hR)
          omega
  case decodeFooter =>
    intro stopEnd lo
    refine ⟨fun hbad => ?_, fun hlo hout => ?_, fun hlo hend hbad => ?_⟩
    · rw [exec_decodeFooter, runDecodeFooter_badArg hbad]
      rfl
    · rw [exec_decodeFooter, runDecodeFooter_oob hlo hout]
      rfl
    · by_cases hstop : s.dmemByte (stopEnd - 1) = Config.stop
      · rw [exec_decodeFooter, runDecodeFooter_noField hlo hend hstop]
        · rfl
        · obtain hnostop | hshort | ⟨hprot, hwhole⟩ := hbad
          · exact absurd hstop hnostop
          · exact footerField_short (by omega)
          · refine footerField_reserved ((inEscSet_iff ..).2 hprot) fun ⟨hpos, hkey, hpair⟩ => hwhole ?_
            exact ⟨by omega, hkey, (inEscSet_iff ..).1 hpair⟩
      · rw [exec_decodeFooter, runDecodeFooter_noStop hlo hend hstop]
        rfl

end Sys2Proof.Machine
end

section
/-!
PROOFS. How a command fails (60_exceptions.md R251, R254, R255, R262): the channel checks of the commands that name a
channel, and every way a command can end, each command's effect taken through its checks once.
-/

namespace Sys2Proof.Machine

open Sys2Proof.Safety

/-! ## The channel checks come first (R254, R255) -/

section
variable {i : Instr} {s : State} {c : BitVec 4}

/-- A command that names a channel, other than INIT, is its effect behind the two channel checks. -/
theorem exec_eq_withChannel (hc : channelOf i = some c) (hi : i ≠ .init c) (s : State) :
    ∃ run, exec i s = .next (s.withChannel i c run) := by
  cases i with
  | init => cases hc; exact absurd rfl hi
  | setMask | append | free | parseByte | parse | encode => cases hc; exact ⟨_, rfl⟩
  | nop | cksum | crc24 | getbits | decode | decodeByte | decodeFooter | encEnable | setHostOrder => cases hc

/-- INIT too makes the first check (R254). -/
theorem exec_badChannel (hc : channelOf i = some c) (h : s.params.nch ≤ c.toNat) :
    exec i s = .next (s.raise i .badChannel) := by
  by_cases hi : i = .init c
  · subst hi
    rw [exec_init, runInit_badChannel h]
  · obtain ⟨run, hexec⟩ := exec_eq_withChannel hc hi s
    rw [hexec, State.withChannel_badChannel h]

theorem exec_notInit (hc : channelOf i = some c) (hi : i ≠ .init c) (h : c.toNat < s.params.nch)
    (hinit : (s.chan c).inited = false) : exec i s = .next (s.raise i .notInit) := by
  obtain ⟨run, hexec⟩ := exec_eq_withChannel hc hi s
  rw [hexec, State.withChannel_notInit h hinit]

end

/-! ## Every way a command can end (R250, R251, R262) -/

/-- The three failures that change more than STATUS (R262 (b)): PARSE_BYTE on a full buffer, DECODE of a frame with a
wrong checksum, and DECODE_BYTE of a malformed byte. -/
inductive Excepted : Instr → StatusCode → Prop where
  | parseByte (c : BitVec 4) (b : Byte) : Excepted (.parseByte c b) .bufferFull
  | decode : Excepted .decode .cksumMismatch
  | decodeByte : Excepted .decodeByte .malformed

/-- Every way the command `i` can end from `s`: it succeeds, it raises a status and does nothing else, or its failure is
one of the three exceptions. A status of the channel checks is raised only where the check fails. -/
inductive Ends (i : Instr) (s : State) : State → Prop where
  | ok {t : State} (h : t.status.code = .ok) : Ends i s t
  | badChannel (c : BitVec 4) (hc : channelOf i = some c) (h : s.params.nch ≤ c.toNat) :
      Ends i s (s.raise i .badChannel)
  | notInit (c : BitVec 4) (hc : channelOf i = some c) (h : (s.chan c).inited = false) (hi : i ≠ .init c) :
      Ends i s (s.raise i .notInit)
  | raise (code : StatusCode) (h : code ≠ .badChannel ∧ code ≠ .notInit) : Ends i s (s.raise i code)
  | excepted {t : State} (h : Excepted i t.status.code) : Ends i s t

section
variable {i : Instr} {s : State}

/-- A command behind the channel checks fails one of them, or ends as its effect does. -/
theorem Ends.withChannel {c : BitVec 4} {run : Channel → State} (hc : channelOf i = some c) (hi : i ≠ .init c)
    (hrun : Ends i s (run (s.chan c))) : Ends i s (s.withChannel i c run) := by
  obtain hlt | hbad := Nat.lt_or_ge c.toNat s.params.nch
  · cases hinit : (s.chan c).inited with
    | false =>
      rw [State.withChannel_notInit hlt hinit]
      exact .notInit c hc hinit hi
    | true =>
      rw [State.withChannel_ready ⟨hlt, hinit⟩]
      exact hrun
  · rw [State.withChannel_badChannel hbad]
    exact .badChannel c hc hbad

theorem runInit_ends (c : BitVec 4) (s : State) : Ends (.init c) s (runInit c s) := by
  unfold runInit
  split_ifs with hch
  · exact .raise _ (by decide)
  · exact .ok rfl
  · exact .badChannel c rfl (Nat.not_lt.1 (mt State.hasChannel_true hch))

theorem runAppend_ends (c : BitVec 4) (s : State) : Ends (.append c) s (runAppend c s) := by
  refine .withChannel rfl Instr.noConfusion ?_
  dsimp only
  split_ifs
  · exact .raise _ (by decide)
  · exact .ok rfl
  · exact .raise _ (by decide)

/-- PARSE_BYTE parses on a full buffer too, and that failure is an exception (R213). -/
theorem runParseByte_ends (c : BitVec 4) (b : Byte) (s : State) : Ends (.parseByte c b) s (runParseByte c b s) := by
  refine .withChannel rfl Instr.noConfusion ?_
  by_cases hfull : (s.chan c).tail = (s.chan c).cap
  · refine .excepted ?_
    rw [State.setStatus_status, decide_eq_true hfull]
    exact .parseByte c b
  · refine .ok ?_
    rw [State.setStatus_status, decide_eq_false hfull]
    rfl

theorem runCksum_ends (s : State) : Ends .cksum s (runCksum s) := by
  unfold runCksum
  dsimp only
  split_ifs
  · exact .ok rfl
  · exact .raise _ (by decide)

theorem runCrc24_ends (s : State) : Ends .crc24 s (runCrc24 s) := by
  unfold runCrc24
  dsimp only
  split_ifs
  · exact .ok rfl
  · exact .raise _ (by decide)

theorem runGetbits_ends (s : State) : Ends .getbits s (runGetbits s) := by
  unfold runGetbits
  dsimp only
  split_ifs
  · exact .raise _ (by decide)
  · exact .ok rfl
  · exact .raise _ (by decide)
  · exact .ok rfl

theorem runEncode_ends (c : BitVec 4) (v : Version) (s : State) : Ends (.encode c v) s (runEncode c v s) := by
  refine .withChannel rfl Instr.noConfusion ?_
  dsimp only
  split_ifs
  · exact .raise _ (by decide)
  · exact .raise _ (by decide)
  · exact .raise _ (by decide)
  · exact .ok rfl

/-- A wrong checksum writes the four result registers, and that failure is an exception (R238). -/
theorem decodeUnpacked_ends (s : State) (fr : IsbFrame) : Ends .decode s (decodeUnpacked s fr) := by
  unfold decodeUnpacked
  split_ifs
  · exact .excepted .decode
  · exact .raise _ (by decide)
  · exact .ok rfl

theorem runDecode_ends (s : State) : Ends .decode s (runDecode s) := by
  unfold runDecode
  dsimp only
  split_ifs
  · exact .raise _ (by decide)
  · exact .raise _ (by decide)
  · cases unpackIsb s.params (s.dmemRead (s.arg 0).toNat (s.arg 1).toNat) with
    | malformed => exact .raise _ (by decide)
    | tooLong => exact .raise _ (by decide)
    | frame fr => exact decodeUnpacked_ends s fr
  · exact .raise _ (by decide)

/-- A malformed byte is consumed, and that failure is an exception (R240). -/
theorem runDecodeByte_ends (s : State) : Ends .decodeByte s (runDecodeByte s) := by
  unfold runDecodeByte
  dsimp only
  split_ifs
  · exact .raise _ (by decide)
  · exact .ok rfl
  · exact .excepted .decodeByte
  · exact .ok rfl
  · exact .excepted .decodeByte
  · exact .ok rfl

theorem runDecodeFooter_ends (s : State) : Ends .decodeFooter s (runDecodeFooter s) := by
  unfold runDecodeFooter
  dsimp only
  split_ifs
  · exact .raise _ (by decide)
  · exact .raise _ (by decide)
  · cases footerField s.params s.dmemByte (s.arg 1).toNat ((s.arg 0).toNat - 1) with
    | none => exact .raise _ (by decide)
    | some field => exact .ok rfl
  · exact .raise _ (by decide)

/-- Every command ends in one of these ways, from every state. -/
theorem exec_ends {t : State} (hexec : exec i s = .next t) : Ends i s t := by
  cases i with
  | init c => cases hexec; exact runInit_ends c s
  | append c => cases hexec; exact runAppend_ends c s
  | setMask | free | parse => cases hexec; exact .withChannel rfl Instr.noConfusion (.ok rfl)
  | parseByte c b => cases hexec; exact runParseByte_ends c b s
  | cksum => cases hexec; exact runCksum_ends s
  | crc24 => cases hexec; exact runCrc24_ends s
  | getbits => cases hexec; exact runGetbits_ends s
  | encode c v => cases hexec; exact runEncode_ends c v s
  | decode => cases hexec; exact runDecode_ends s
  | decodeByte => cases hexec; exact runDecodeByte_ends s
  | decodeFooter => cases hexec; exact runDecodeFooter_ends s
  | nop | encEnable | setHostOrder => cases hexec; exact .ok rfl

end

/-- Settles O19: of the ways a command can end, only success and the three exceptions write more than STATUS. -/
theorem failureChangesOnlyStatus : Obligations.FailureChangesOnlyStatus := by
  intro i s t hexec hfail hparseByte hdecode hdecodeByte
  cases exec_ends hexec with
  | ok h => exact absurd h hfail
  | badChannel | notInit | raise => rfl
  | excepted h =>
    generalize t.status.code = code at h hparseByte hdecode hdecodeByte
    cases h with
    | parseByte c b => exact absurd ⟨⟨c, b, rfl⟩, rfl⟩ hparseByte
    | decode => exact absurd ⟨rfl, rfl⟩ hdecode
    | decodeByte => exact absurd ⟨rfl, rfl⟩ hdecodeByte

/-- An ending whose status is BAD_CHANNEL or NOT_INIT is a failed channel check (R254, R255). -/
theorem Ends.channelStatus {i : Instr} {s t : State} (h : Ends i s t) :
    (t.status.code = .badChannel → ∃ c, channelOf i = some c ∧ s.params.nch ≤ c.toNat) ∧
    (t.status.code = .notInit → ∃ c, channelOf i = some c ∧ (s.chan c).inited = false ∧ i ≠ .init c) := by
  cases h with
  | ok h => simp [h]
  | badChannel c hc hbad => exact ⟨fun _ => ⟨c, hc, hbad⟩, StatusCode.noConfusion⟩
  | notInit c hc hinit hi => exact ⟨StatusCode.noConfusion, fun _ => ⟨c, hc, hinit, hi⟩⟩
  | raise code h => exact ⟨fun hcode => absurd hcode h.1, fun hcode => absurd hcode h.2⟩
  | excepted h =>
    generalize t.status.code = code at h ⊢
    cases h <;> exact ⟨StatusCode.noConfusion, StatusCode.noConfusion⟩

/-- Settles O27: the checks stand before the effect of every command that names a channel, and no other ending has
their statuses. -/
theorem channelChecksComeFirst : Obligations.ChannelChecksComeFirst :=
  ⟨fun _ _ _ hc => ⟨exec_badChannel hc, fun hlt hinit hi => exec_notInit hc hi hlt hinit⟩,
    fun _ _ _ hexec => (exec_ends hexec).channelStatus⟩

end Sys2Proof.Machine
end

section
/-!
PROOFS. Every step keeps the invariant (10_state.md section 5; 40_ring_buffer.md R150; 42_parser.md R215), and no step
stops a safe machine (60_exceptions.md R250, R251): each command's effect is taken through its checks once, and then each
operation at the host port.
-/

namespace Sys2Proof.Safety

open Sys2Proof.Machine

/-! ## The outputs of a command -/

section
variable {s : State} {c : BitVec 4}

theorem Inv.setRes (h : Inv s) (i : Fin 4) (v : Word) : Inv (s.setRes i v) := h.of_same rfl rfl rfl rfl

theorem Inv.setArg (h : Inv s) (i : Fin 8) (v : Word) : Inv (s.setArg i v) := h.of_same rfl rfl rfl rfl

theorem Inv.setStatus (h : Inv s) (i : Instr) (code : StatusCode) : Inv (s.setStatus i code) :=
  h.of_same rfl rfl rfl rfl

theorem Inv.raise (h : Inv s) (i : Instr) (code : StatusCode) : Inv (s.raise i code) := h.setStatus i code

theorem Inv.done (h : Inv s) (i : Instr) : Inv (s.done i) := h.setStatus i .ok

/-- The channel checks keep the invariant, if the command's effect on a channel that passes them does. -/
theorem Inv.withChannel (h : Inv s) {i : Instr} {run : Channel → State}
    (hrun : channelReady s c → ChannelInv s.params (s.rbDraws c) (s.chan c) → Inv (run (s.chan c))) :
    Inv (s.withChannel i c run) := by
  obtain ⟨hr, he⟩ | ⟨code, _, he⟩ := s.withChannel_cases i c run <;> rw [he]
  · exact hrun hr (h.channel c hr.2)
  · exact h.raise i code

/-- A ready channel is replaced by one that meets the invariant and is initialized too. -/
theorem Inv.setReady (h : Inv s) (hr : channelReady s c) {ch : Channel} (hi : ChannelInv s.params (s.rbDraws c) ch)
    (hinit : ch.inited = (s.chan c).inited) : Inv (s.setChan c ch) :=
  h.setChan hr.1 (hinit.trans hr.2) hi

/-- The ring buffer's memory is canonical and bounded on every channel, initialized or not. -/
theorem Inv.ringBuffer (h : Inv s) (c : BitVec 4) :
    (s.chan c).rb.wf = true ∧ memBelow (s.chan c).rb s.params.capMax := by
  cases hinit : (s.chan c).inited with
  | true => exact ⟨(h.channel c hinit).rb_wf, (h.channel c hinit).rb_below⟩
  | false =>
    rw [h.untouched c hinit]
    exact ⟨rfl, fun cell hcell => absurd hcell List.not_mem_nil⟩

/-! ## Ring buffer, channel control and the parser (R150, R215) -/

theorem runInit_inv (h : Inv s) : Inv (runInit c s) := by
  by_cases hc : c.toNat < s.params.nch
  · by_cases harg : s.arg 0 = 0 ∨ s.params.capMax < (s.arg 0).toNat
    · rw [runInit_badArg hc harg]
      exact h.raise _ _
    · obtain ⟨hzero, hmax⟩ := not_or.1 harg
      have hpos : 1 ≤ (s.arg 0).toNat := Nat.one_le_iff_ne_zero.2 fun e => hzero (BitVec.eq_of_toNat_eq e)
      obtain ⟨hwf, hbelow⟩ := h.ringBuffer c
      rw [runInit_ok hc hpos (Nat.not_lt.1 hmax)]
      exact ((h.setChan hc rfl (Channel.initialized_inv hpos (Nat.not_lt.1 hmax) hwf hbelow)).setRes _ _).done _
  · rw [runInit_badChannel (Nat.not_lt.1 hc)]
    exact h.raise _ _

theorem runSetMask_inv (h : Inv s) (m : BitVec 7) : Inv (runSetMask c m s) :=
  h.withChannel fun hr hch => (h.setReady hr (Channel.inv_mask hch m) rfl).done _

theorem runAppend_inv (h : Inv s) : Inv (runAppend c s) := by
  refine h.withChannel fun hr hch => ?_
  dsimp only
  split_ifs with hsrc hfull
  · exact h.raise _ _
  · have hroom : (s.chan c).tail.toNat + (s.dmemRead (s.arg 0).toNat (s.arg 1).toNat).length ≤ (s.chan c).cap.toNat := by
      rw [State.dmemRead_length]
      exact Nat.not_lt.1 hfull
    exact ((h.setReady hr (Channel.store_inv h.params_lawful hch hroom) rfl).setRes _ _).done _
  · exact h.raise _ _

/-- FREE leaves the channel initialized, with its capacity. -/
theorem freed_inited_cap (draw : Nat → Byte) (ch : Channel) :
    (ch.freed draw).1.inited = ch.inited ∧ (ch.freed draw).1.cap = ch.cap := by
  cases hover : (Channel.compact draw { ch with pktValid := false }).overflowed with
  | false => rw [Channel.freed_kept draw hover]; exact ⟨rfl, rfl⟩
  | true => rw [Channel.freed_dropped draw hover]; exact ⟨rfl, rfl⟩

theorem runFree_inv (h : Inv s) : Inv (runFree c s) := by
  refine h.withChannel fun hr hch => ?_
  have hinit := (freed_inited_cap (s.rbDraws c) (s.chan c)).1
  exact (((h.setReady hr (Channel.freed_inv hch) hinit).setRes _ _).setRes _ _).done _

/-- A parse of a channel that meets its invariant, the channel as it is or with a byte stored first. -/
theorem Inv.parsed (h : Inv s) (hr : channelReady s c) {fed : Channel}
    (hfed : ChannelInv s.params (s.rbDraws c) fed) (hinit : fed.inited = (s.chan c).inited) (i : Instr) (w : Word) (code : StatusCode) :
    Inv (((s.setChan c (fed.parseCore (s.parseEnv c)).1).setRes 0 w).setStatus i code) := by
  have hparsed := Channel.parseCore_inv (env := s.parseEnv c) h.params_lawful hfed
  exact ((h.setReady hr hparsed ((fed.parseCore_kept _).inited.trans hinit)).setRes _ _).setStatus _ _

theorem runParse_inv (h : Inv s) : Inv (runParse c s) :=
  h.withChannel fun hr hch => h.parsed hr hch rfl _ _ _

theorem runParseByte_inv (h : Inv s) (b : Byte) : Inv (runParseByte c b s) := by
  refine h.withChannel fun hr hch => ?_
  by_cases hfull : (s.chan c).tail = (s.chan c).cap
  · rw [decide_eq_true hfull]
    exact h.parsed hr hch rfl _ _ _
  · have hroom : (s.chan c).tail.toNat + [b].length ≤ (s.chan c).cap.toNat :=
      Nat.lt_of_le_of_ne hch.tail_le_cap fun e => hfull (BitVec.eq_of_toNat_eq e)
    rw [decide_eq_false hfull]
    exact h.parsed hr (Channel.store_inv h.params_lawful hch hroom) rfl _ _ _

/-! ## Checksum and codec -/

theorem runCksum_inv (h : Inv s) : Inv (runCksum s) := by
  unfold runCksum
  dsimp only
  split_ifs
  · exact (((h.setRes _ _).setRes _ _).setRes _ _).done _
  · exact h.raise _ _

theorem runCrc24_inv (h : Inv s) : Inv (runCrc24 s) := by
  unfold runCrc24
  dsimp only
  split_ifs
  · exact (h.setRes _ _).done _
  · exact h.raise _ _

theorem runGetbits_inv (h : Inv s) : Inv (runGetbits s) := by
  unfold runGetbits
  dsimp only
  split_ifs
  · exact h.raise _ _
  · exact (h.setRes _ _).done _
  · exact h.raise _ _
  · exact (h.setRes _ _).done _

/-- The frame fits the destination ENCODE has checked (R231, R232). -/
theorem runEncode_inv (h : Inv s) (v : Version) : Inv (runEncode c v s) := by
  refine h.withChannel fun hr hch => ?_
  dsimp only
  split_ifs with hlarge hsrc hdst
  · exact h.raise _ _
  · exact h.raise _ _
  · exact h.raise _ _
  · have hlen := s.encoded_length_le v
    have hin : (s.arg 2).toNat + (s.encoded v).length ≤ s.params.dmemSize := by
      simp only [State.inDmem, Bool.not_eq_true', decide_eq_false_iff_not, not_not] at hdst
      omega
    have hsent := Channel.inv_txCnt hch ((s.chan c).txCnt + 1)
    exact (((h.dmemWrite hin).setRes _ _).setReady hr hsent rfl).done _

theorem Inv.setDecodeResults (h : Inv s) (fr : IsbFrame) : Inv (s.setDecodeResults fr) :=
  (((h.setRes _ _).setRes _ _).setRes _ _).setRes _ _

/-- The decoded frame fits the destination DECODE has checked (R238). -/
theorem decodeUnpacked_inv (h : Inv s) (hdst : (s.arg 2).toNat + (s.arg 3).toNat ≤ s.params.dmemSize) (fr : IsbFrame) :
    Inv (decodeUnpacked s fr) := by
  unfold decodeUnpacked
  split_ifs with hck hsmall
  · exact (h.setDecodeResults fr).setStatus _ _
  · exact h.raise _ _
  · have hin : (s.arg 2).toNat + (fr.decoded s.ctrl.hostLe).length ≤ s.params.dmemSize := by
      simp only [IsbFrame.decoded_length, Config.isbHeaderLength_eq] at hsmall ⊢
      omega
    exact ((h.dmemWrite hin).setDecodeResults fr).done _

theorem runDecode_inv (h : Inv s) : Inv (runDecode s) := by
  by_cases hout : s.params.dmemSize < (s.arg 0).toNat + (s.arg 1).toNat ∨
      s.params.dmemSize < (s.arg 2).toNat + (s.arg 3).toNat
  · rw [runDecode_oob hout]
    exact h.raise _ _
  · obtain ⟨hsrc, hdst⟩ := not_or.1 hout
    rw [runDecode_inDmem (Nat.not_lt.1 hsrc) (Nat.not_lt.1 hdst)]
    split
    · split
      · exact h.raise _ _
      · exact h.raise _ _
      · exact decodeUnpacked_inv h (Nat.not_lt.1 hdst) _
    · exact h.raise _ _

theorem Inv.consumeByte (h : Inv s) (escp : Bool) (lane : BitVec 2) : Inv (s.consumeByte escp lane) :=
  (h.setArg _ _).setArg _ _

theorem runDecodeByte_inv (h : Inv s) : Inv (runDecodeByte s) := by
  by_cases hout : s.params.dmemSize < (s.arg 0).toNat + 1 ∨ s.params.dmemSize < (s.arg 1).toNat + 1
  · rw [runDecodeByte_oob hout]
    exact h.raise _ _
  · obtain ⟨hsrc, hdst⟩ := not_or.1 hout
    have emitted (x : Byte) : Inv ((s.emitByte x).done .decodeByte) :=
      (((((h.dmemWrite (B := [x]) (Nat.not_lt.1 hdst)).consumeByte _ _).setArg _ _).setArg _ _).setRes _ _).done _
    have rejected : Inv s.rejectByte := (h.consumeByte _ _).setStatus _ _
    rw [runDecodeByte_inDmem (Nat.not_lt.1 hsrc) (Nat.not_lt.1 hdst)]
    dsimp only
    split_ifs
    · exact emitted _
    · exact rejected
    · exact ((h.consumeByte _ _).setRes _ _).done _
    · exact rejected
    · exact emitted _

theorem runDecodeFooter_inv (h : Inv s) : Inv (runDecodeFooter s) := by
  unfold runDecodeFooter
  dsimp only
  split_ifs
  · exact h.raise _ _
  · exact h.raise _ _
  · cases footerField s.params s.dmemByte (s.arg 1).toNat ((s.arg 0).toNat - 1) with
    | none => exact h.raise _ _
    | some field => exact ((h.setRes _ _).setRes _ _).done _
  · exact h.raise _ _

end

/-- Every command keeps the invariant. -/
theorem exec_inv {i : Instr} {s t : State} (h : Inv s) (hexec : exec i s = .next t) : Inv t := by
  cases i with
  | nop => cases hexec; exact h.done _
  | init c => cases hexec; exact runInit_inv h
  | setMask c m => cases hexec; exact runSetMask_inv h m
  | append c => cases hexec; exact runAppend_inv h
  | free c => cases hexec; exact runFree_inv h
  | parseByte c b => cases hexec; exact runParseByte_inv h b
  | parse c => cases hexec; exact runParse_inv h
  | cksum => cases hexec; exact runCksum_inv h
  | crc24 => cases hexec; exact runCrc24_inv h
  | getbits => cases hexec; exact runGetbits_inv h
  | encode c v => cases hexec; exact runEncode_inv h v
  | decode => cases hexec; exact runDecode_inv h
  | decodeByte => cases hexec; exact runDecodeByte_inv h
  | decodeFooter => cases hexec; exact runDecodeFooter_inv h
  | encEnable | setHostOrder => cases hexec; exact h.of_same rfl rfl rfl rfl

/-! ## The host port -/

section
variable {s t : State}

theorem runCommand_inv {w : Word} (h : Inv s) (hrun : runCommand w s = .next t) : Inv t := by
  have hcmd : Inv { s with cmd := w } := h.of_same rfl rfl rfl rfl
  unfold runCommand at hrun
  split at hrun
  · exact exec_inv hcmd hrun
  · cases hrun
    exact hcmd.of_same rfl rfl rfl rfl

theorem writeRegister_inv (h : Inv s) (off : Nat) (v : Word) : Inv (s.writeRegister off v) := by
  unfold State.writeRegister
  split
  · exact h.setArg _ _
  · exact h

/-- A window write reaches DMEM below its end only (20_memory.md R84). -/
theorem windowWrite_inv (h : Inv s) (addr : Word) (w : Width) (v : Word) : Inv (s.windowWrite addr w v) := by
  unfold State.windowWrite
  refine List.foldlRecOn (motive := Inv) _ _ h fun u hu k _ => ?_
  unfold State.windowWriteByte
  split_ifs with hin
  · exact hu.dmemWrite (B := [byteOf v k]) hin.2.2
  · exact hu

/-- After the reset input no channel is initialized and no byte is written (R41 to R43, R280). -/
theorem Inv.of_reset (hp : s.params.lawful = true) (hd : s.dmem = []) (hc : ∀ c, s.chan c = Channel.reset) : Inv s := by
  refine ⟨hp, by rw [hd]; rfl, ?_, fun c hinit => ?_, fun c _ => hc c, fun c _ => hc c⟩
  · rw [hd]
    exact fun cell hcell => absurd hcell List.not_mem_nil
  · rw [hc c] at hinit
    cases hinit

theorem serve_inv {op : HostOp} (h : Inv s) (hserve : serve op s = .next t) : Inv t := by
  cases op with
  | read addr w =>
    simp only [serve, serveRead] at hserve
    split_ifs at hserve <;> cases hserve <;> exact h.of_same rfl rfl rfl rfl
  | write addr w v =>
    simp only [serve, serveWrite] at hserve
    split_ifs at hserve
    · exact runCommand_inv h hserve
    · cases hserve
      exact writeRegister_inv h _ _
    · cases hserve
      exact windowWrite_inv h _ _ _
  | drain c =>
    cases hserve
    exact h.of_same rfl rfl rfl rfl
  | drainTest c =>
    cases hserve
    unfold drainDecide
    split_ifs
    · exact h
    · exact h.of_same rfl rfl rfl rfl
  | reset =>
    cases hserve
    exact .of_reset h.params_lawful rfl State.reset_chan

end

/-- Settles O15: reset meets the invariant as every reset does. -/
theorem invAtReset : Obligations.InvAtReset := .of_reset (by decide) rfl State.reset_chan

/-- Settles O16: a step is nothing, or the service of one operation, and each keeps the invariant. -/
theorem stepKeepsInv : Obligations.StepKeepsInv := by
  intro s t h hstep
  cases hpend : s.port.pending with
  | nil =>
    rw [idleBlockHoldsState s h.params_lawful hpend] at hstep
    cases hstep
    exact h
  | cons op rest =>
    rw [step_pending h.params_lawful hpend] at hstep
    have hport : Inv { s with port := ⟨rest, s.port.replies⟩ } := h.of_same rfl rfl rfl rfl
    exact serve_inv hport hstep

/-! ## A safe machine does not stop -/

section
variable {s : State}

/-- What a step reads of `Safe`: the parameters and the queue. -/
theorem Safe.of_same {t : State} (h : Safe s) (hp : t.params = s.params) (hport : t.port.pending = s.port.pending) :
    Safe t := by
  unfold Safe
  rw [hp, hport]
  exact h

/-- More operations of an admitted form at the front of the queue. -/
theorem Safe.enqueueFront (h : Safe s) {ops : List HostOp} (hops : ∀ op ∈ ops, hostOpOk op = true) :
    Safe (s.enqueueFront ops) :=
  ⟨h.1, fun op hop => (List.mem_append.1 hop).elim (hops op) (h.2 op)⟩

/-- A word written to CMD runs its command or is illegal, and neither stops the machine (R250, R253). -/
theorem runCommand_safe (h : Safe s) (w : Word) : ∃ t, runCommand w s = .next t ∧ Safe t := by
  cases hdec : decode w with
  | ok i =>
    obtain ⟨t, hexec, hframe⟩ := exec_framed i { s with cmd := w }
    exact ⟨t, (runCommand_ok hdec s).trans hexec, h.of_same hframe.params (congrArg HostPort.pending hframe.port)⟩
  | error e =>
    rw [runCommand, hdec]
    exact ⟨_, rfl, h.of_same rfl rfl⟩

theorem writeRegister_safe (h : Safe s) (off : Nat) (v : Word) : Safe (s.writeRegister off v) := by
  unfold State.writeRegister
  split <;> exact h

theorem windowWrite_safe (h : Safe s) (addr : Word) (w : Width) (v : Word) : Safe (s.windowWrite addr w v) := by
  unfold State.windowWrite
  refine List.foldlRecOn (motive := Safe) _ _ h fun u hu k _ => ?_
  unfold State.windowWriteByte
  split_ifs <;> exact hu

theorem serveRead_safe {addr : Word} {w : Width} (h : Safe s) (hop : hostOpOk (.read addr w) = true) :
    ∃ t, serveRead addr w s = .next t ∧ Safe t := by
  unfold serveRead
  split_ifs with htouch hform
  · exact ⟨_, rfl, h.of_same rfl rfl⟩
  · simp [hostOpOk, htouch, hform] at hop
  · exact ⟨_, rfl, h.of_same rfl rfl⟩

theorem serveWrite_safe {addr v : Word} {w : Width} (h : Safe s) (hop : hostOpOk (.write addr w v) = true) :
    ∃ t, serveWrite addr w v s = .next t ∧ Safe t := by
  unfold serveWrite
  split_ifs with htouch hform
  · exact runCommand_safe h v
  · exact ⟨_, rfl, writeRegister_safe h _ _⟩
  · simp [hostOpOk, htouch, hform] at hop
  · exact ⟨_, rfl, windowWrite_safe h _ _ _⟩

/-- An operation of an admitted form is served, and leaves a safe machine. -/
theorem serve_safe {op : HostOp} (h : Safe s) (hop : hostOpOk op = true) : ∃ t, serve op s = .next t ∧ Safe t := by
  cases op with
  | read addr w => exact serveRead_safe h hop
  | write addr w v => exact serveWrite_safe h hop
  | drain c => exact ⟨_, rfl, h.enqueueFront (by simp [drainRound, hostOpOk, registerForm, cmdAddr, res0Addr])⟩
  | drainTest c =>
    refine ⟨_, rfl, ?_⟩
    unfold drainDecide
    split_ifs
    · exact h
    · exact h.enqueueFront (by simp [hostOpOk])
  | reset => exact ⟨_, rfl, h.of_same rfl rfl⟩

end

/-- Settles O17: every pending operation is served, and those it adds have an admitted form. -/
theorem safeMachineNeverStops : Obligations.SafeMachineNeverStops := by
  intro s h
  cases hpend : s.port.pending with
  | nil => exact ⟨s, idleBlockHoldsState s h.1 hpend, h⟩
  | cons op rest =>
    have hops := h.2
    rw [hpend] at hops
    rw [step_pending h.1 hpend]
    exact serve_safe ⟨h.1, fun o ho => hops o (List.mem_cons_of_mem op ho)⟩ (hops op List.mem_cons_self)

end Sys2Proof.Safety
end

section
/-!
PROOFS. The worked encodings (30_encoding.md section 5), the host port's smallest steps (10_state.md R43; 20_memory.md R87;
30_encoding.md R120; 70_reset_and_hazards.md R280), and the start-pattern matcher (42_parser.md R191 to R193).
-/

namespace Sys2Proof.Machine

open Sys2Proof.Safety

/-! ## Encodings -/

/-- Settles O3: each row is evaluated on its own word. -/
theorem encodingExamples : Obligations.EncodingExamples := by
  refine ⟨fun row hrow => ?rows, by decide, by decide⟩
  revert row
  decide

/-! ## The host port -/

/-- An illegal word leaves CMD and STATUS (R23, R120). -/
theorem runCommand_error {w : Word} {e : Illegal} (h : decode w = .error e) (s : State) :
    runCommand w s = .next (({ s with cmd := w } : State).raiseIllegal w) := by
  rw [runCommand, h]

/-- Settles O5: offset 0 is CMD, and the word has no command. -/
theorem illegalWordWritesOnlyStatus : Obligations.IllegalWordWritesOnlyStatus := by
  intro s w rest e hp hpend hdec
  rw [step_registerWrite hp hpend (by decide) (by decide), if_pos (show (0 : Word) = cmdAddr from rfl),
    runCommand_error hdec]
  rfl

/-- The word a host read of an admitted form returns (20_memory.md R83 to R86). -/
def State.readWord (s : State) (addr : Word) (w : Width) : Word :=
  if touchesRegisters addr w then s.register addr.toNat else s.windowRead addr w

/-- A step that serves a read of an admitted form, in any window. -/
theorem step_read {s : State} {addr : Word} {w : Width} {rest : List HostOp} (hp : s.params.lawful = true)
    (hop : hostOpOk (.read addr w) = true) (hpend : s.port.pending = .read addr w :: rest) :
    step s = .next { s with port := ⟨rest, s.readWord addr w :: s.port.replies⟩ } := by
  rw [step_pending hp hpend, serve, serveRead]
  split_ifs with htouch hform
  · rw [State.readWord, if_pos htouch]
    rfl
  · simp [hostOpOk, htouch, hform] at hop
  · rw [State.readWord, if_neg htouch]
    rfl

/-- Settles O7: both reads return the same word, since the first changes the record of replies only. -/
theorem hostReadsHaveNoSideEffect : Obligations.HostReadsHaveNoSideEffect := by
  intro s addr w rest hp hop hpend
  have hfirst := step_read hp hop hpend
  refine ⟨s.readWord addr w, hfirst, _, hfirst, _, ?_, rfl⟩
  exact step_read (s := { s with port := ⟨.read addr w :: rest, s.readWord addr w :: s.port.replies⟩ }) hp hop rfl

/-- Settles O14: the service of the reset input writes every field out. -/
theorem resetInputRestoresResetValues : Obligations.ResetInputRestoresResetValues := by
  intro s rest hp hpend
  rw [step_pending hp hpend]
  rfl

/-! ## The matcher -/

theorem Family.mem_all (k : Family) : k ∈ Family.all := by cases k <;> decide

/-- The start patterns begin with different bytes (R192). -/
theorem Family.startByte_injective {j k : Family} (h : j.startByte = k.startByte) : j = k :=
  List.inj_on_of_nodup_map (by decide : (Family.all.map Family.startByte).Nodup) j.mem_all k.mem_all h

/-- No order of the search matters: at most one family's pattern begins with the byte (R192, R193). -/
theorem matchStart_eq_some_iff {mask : BitVec 7} {b : Byte} {k : Family} :
    matchStart mask b = some k ↔ k.enabled mask = true ∧ b = k.startByte := by
  constructor
  · intro h
    simpa using List.find?_some h
  · rintro ⟨henabled, rfl⟩
    have hfound : (matchStart mask k.startByte).isSome := List.find?_isSome.2 ⟨k, k.mem_all, by simp [henabled]⟩
    obtain ⟨j, hj⟩ := Option.isSome_iff_exists.1 hfound
    rw [hj, Family.startByte_injective (matchStart_some hj)]

/-- Settles O37, with the table of R191 evaluated. -/
theorem matcherIsOrderFree : Obligations.MatcherIsOrderFree :=
  ⟨fun _ _ _ => matchStart_eq_some_iff, rfl⟩

end Sys2Proof.Machine
end

section
/-!
PROOFS. The bounds of a parse and of every ring-buffer write (40_ring_buffer.md section 2; 42_parser.md section 5): which
bytes a PARSE_CORE may change, how far each decision moves on, and what a command leaves at and above the capacity.
-/

namespace Sys2Proof.Machine

open Sys2Proof.Safety

/-! ## What a PARSE_CORE writes, and how far it moves (R207, R214) -/

section
variable {env : ParseEnv} {ch : Channel}

/-- A byte a PARSE_CORE changes lies in the native frame it reports, before the frame's last four bytes. -/
theorem Channel.parseCore_writes (hp : env.params.lawful = true) (hi : ChannelInv env.params env.draw ch) {k : Nat}
    (hne : (ch.parseCore env).1.byteAt env.draw k ≠ ch.byteAt env.draw k) :
    (ch.parseCore env).2.native ∧ (ch.parseCore env).1.pktStart.toNat ≤ k ∧
      k + 4 < (ch.parseCore env).1.pktStart.toNat + (ch.parseCore env).1.pktLen.toNat ∧
      (ch.parseCore env).1.pktStart.toNat + (ch.parseCore env).1.pktLen.toNat ≤ ch.tail.toNat := by
  have changed : (ch.parseCore env).1.rb ≠ ch.rb := fun e => hne (Channel.byteAt_of_rb e _ _)
  have hnone : (ch.parseCore env).2 ≠ .none := fun h =>
    changed ((congrArg Channel.rb (Channel.parseCore_exhausts hp hi h).2).trans rfl)
  have herror : (ch.parseCore env).2 ≠ .parseError := fun h => by
    obtain ⟨_, _, _, _, _, _, _, _, _, hrejected⟩ := Channel.parseCore_rejects hp hi h
    exact changed ((congrArg Channel.rb hrejected).trans rfl)
  obtain ⟨a, F, _, _, _, _, _, _, hrep⟩ := Channel.parseCore_reports hp hi hnone herror
  have hnative : (ch.parseCore env).2.native := Classical.byContradiction fun h => changed (hrep.foreign h).2
  obtain ⟨fr, hunpack, _, _, hrb⟩ := hrep.native hnative
  have hlen := (unpackIsb_frame hunpack).2.1
  have hend := hrep.inBuffer
  have hin : ¬ (k < a ∨ a + (fr.decoded env.hostLe).length ≤ k) := fun h =>
    hne (Channel.byteAt_put_outside hrb env.draw h)
  rw [IsbFrame.decoded_length] at hin
  rw [hrep.pktStart, hrep.pktLen]
  exact ⟨hnative, by omega, by omega, by omega⟩

/-- A decision moves `head` on, and not past `tail` (R214). -/
theorem Channel.parseCore_decides (hp : env.params.lawful = true) (hi : ChannelInv env.params env.draw ch)
    (hnone : (ch.parseCore env).2 ≠ .none) :
    ch.head.toNat < (ch.parseCore env).1.head.toNat ∧ (ch.parseCore env).1.head.toNat ≤ ch.tail.toNat := by
  by_cases herror : (ch.parseCore env).2 = .parseError
  · obtain ⟨h, p, _, _, hlt, hle, hend, _, _, hrejected⟩ := Channel.parseCore_rejects hp hi herror
    rw [hrejected]
    exact ⟨hlt, (hle.trans_lt hend).le⟩
  · obtain ⟨a, F, _, _, _, _, _, hhead, hrep⟩ := Channel.parseCore_reports hp hi hnone herror
    have hlen := hrep.length
    rw [hrep.head]
    exact ⟨by omega, hrep.inBuffer⟩

end

/-- Settles O43: the bytes a PARSE changes are those PARSE_CORE changes. -/
theorem parseWritesOnlyValidatedFrame : Obligations.ParseWritesOnlyValidatedFrame := by
  intro s t c k hinv hr hexec hne
  have hchan := chan_of_exec_parse hr hexec
  rw [exec_parse_ready hr] at hexec
  obtain rfl := Host.Outcome.next.inj hexec
  rw [hchan]
  rw [State.rbByte_done, State.rbByte_setRes, State.rbByte_setChan_self] at hne
  obtain ⟨hnative, hlow, hhigh, _⟩ :=
    Channel.parseCore_writes (env := s.parseEnv c) hinv.params_lawful (hinv.channel c hr.2) hne
  exact ⟨hnative, hlow, hhigh⟩

/-! ## Draining a channel (R214) -/

/-- What a PARSE leaves, by the tag it returns. -/
theorem exec_parse_drains {s : State} {c : BitVec 4} (hinv : Inv s) (hr : channelReady s c) :
    ∃ t, exec (.parse c) s = .next t ∧ Inv t ∧ channelReady t c ∧ (t.chan c).tail = (s.chan c).tail ∧
      ((t.result 0 = 0 ∧ (t.chan c).scan = (t.chan c).tail) ∨
       ((s.chan c).head.toNat < (t.chan c).head.toNat ∧ (t.chan c).head.toNat ≤ (s.chan c).tail.toNat)) := by
  have hexec := exec_parse_ready hr
  have hch := hinv.channel c hr.2
  have hkept := Channel.parseCore_kept (s.parseEnv c) (s.chan c)
  have hchan := chan_of_exec_parse hr hexec
  refine ⟨_, hexec, exec_inv hinv hexec, ⟨hr.1, ?_⟩, ?_, ?_⟩ <;> rw [hchan]
  · exact hkept.inited.trans hr.2
  · exact hkept.tail
  · by_cases hnone : ((s.chan c).parseCore (s.parseEnv c)).2 = .none
    · left
      have hend := (Channel.parseCore_exhausts (env := s.parseEnv c) hinv.params_lawful hch hnone).1
      refine ⟨?_, hend.trans hkept.tail.symm⟩
      rw [State.result_done, State.result_setRes_self, hnone]
      rfl
    · exact .inr (Channel.parseCore_decides (env := s.parseEnv c) hinv.params_lawful hch hnone)

theorem execTimes_succ {i : Instr} {s t : State} (h : exec i s = .next t) (k : Nat) :
    execTimes i (k + 1) s = execTimes i k t := by
  rw [execTimes, h]

/-- Settles O44: every PARSE that decides moves `head` on, so the bytes left are a bound. -/
theorem drainTerminates : Obligations.DrainTerminates := by
  intro s c hinv hr
  generalize hleft : (s.chan c).tail.toNat - (s.chan c).head.toNat = left
  induction left using Nat.strong_induction_on generalizing s with
  | _ left ih =>
    obtain ⟨t, hexec, hinv', hr', htail, ⟨htag, hend⟩ | ⟨hmoved, hbound⟩⟩ := exec_parse_drains hinv hr
    · exact ⟨0, t, Nat.zero_le _, execTimes_succ hexec 0, htag, hend⟩
    · rw [← htail] at hleft hbound
      obtain ⟨k, u, hk, hrun, hdone⟩ := ih _ (by omega) t hinv' hr' rfl
      exact ⟨k + 1, u, by omega, (execTimes_succ hexec (k + 1)).trans hrun, hdone⟩

/-! ## The bytes at and above the capacity -/

/-- The channel `ch'` has the capacity of `ch`, and its bytes at and above it. -/
structure Channel.Confined (draw : Nat → Byte) (ch ch' : Channel) : Prop where
  cap : ch'.cap = ch.cap
  above : ∀ k, ch.cap.toNat ≤ k → ch'.byteAt draw k = ch.byteAt draw k

section
variable {draw : Nat → Byte} {a b ch : Channel}

/-- A channel whose capacity and ring buffer stay. -/
theorem Channel.Confined.of_rb (hcap : b.cap = a.cap) (hrb : b.rb = a.rb) : Channel.Confined draw a b :=
  ⟨hcap, fun k _ => Channel.byteAt_of_rb hrb draw k⟩

theorem Channel.Confined.trans (h1 : Channel.Confined draw a b) (h2 : Channel.Confined draw b ch) :
    Channel.Confined draw a ch :=
  ⟨h2.cap.trans h1.cap, fun k hk => (h2.above k (by rwa [h1.cap])).trans (h1.above k hk)⟩

theorem Channel.store_confined {B : List Byte} (hroom : ch.tail.toNat + B.length ≤ ch.cap.toNat) :
    Channel.Confined draw ch (ch.store B) :=
  ⟨rfl, fun k hk => Channel.byteAt_put_outside (old := ch) (a := ch.tail.toNat) (B := B) rfl draw (.inr (by omega))⟩

/-- COMPACT writes below `tail`, and DROP_OVERFLOW too. -/
theorem Channel.freed_confined {p : Params} (hi : ChannelInv p draw ch) : Channel.Confined draw ch (ch.freed draw).1 := by
  have hcompact : Channel.Confined draw ch (Channel.compact draw { ch with pktValid := false }) := by
    refine ⟨rfl, fun k hk => ?_⟩
    have htail := hi.tail_le_cap
    rw [Channel.byteAt_compact, if_neg (show ¬ k < ch.tail.toNat - ch.head.toNat by omega)]
    rfl
  have htail := (Channel.compact_inv (Channel.inv_pktValid hi false)).tail_le_cap
  cases hover : (Channel.compact draw { ch with pktValid := false }).overflowed with
  | false =>
    rw [Channel.freed_kept draw hover]
    exact hcompact
  | true =>
    rw [Channel.freed_dropped draw hover]
    refine hcompact.trans ⟨rfl, fun k hk => ?_⟩
    rw [Channel.byteAt_dropOverflow, if_neg (by omega)]

/-- What a PARSE_CORE writes lies below `tail`. -/
theorem Channel.parseCore_confined {env : ParseEnv} (hp : env.params.lawful = true)
    (hi : ChannelInv env.params env.draw ch) : Channel.Confined env.draw ch (ch.parseCore env).1 := by
  refine ⟨(ch.parseCore_kept env).cap, fun k hk => Classical.byContradiction fun hne => ?_⟩
  obtain ⟨_, _, _, _⟩ := Channel.parseCore_writes hp hi hne
  have := hi.tail_le_cap
  omega

end

section
variable {s : State} {c : BitVec 4}

/-- The channel checks write no channel. -/
theorem confined_withChannel (h : Inv s) {i : Instr} {run : Channel → State}
    (hrun : channelReady s c → ChannelInv s.params (s.rbDraws c) (s.chan c) →
      Channel.Confined (s.rbDraws c) (s.chan c) ((run (s.chan c)).chan c)) :
    Channel.Confined (s.rbDraws c) (s.chan c) ((s.withChannel i c run).chan c) := by
  obtain ⟨hr, he⟩ | ⟨code, _, he⟩ := s.withChannel_cases i c run <;> rw [he]
  · exact hrun hr (h.channel c hr.2)
  · exact .of_rb rfl rfl

theorem runSetMask_confined (h : Inv s) (m : BitVec 7) :
    Channel.Confined (s.rbDraws c) (s.chan c) ((runSetMask c m s).chan c) := by
  refine confined_withChannel h fun _ _ => ?_
  rw [State.chan_done, State.chan_setChan_self]
  exact .of_rb rfl rfl

theorem runAppend_confined (h : Inv s) : Channel.Confined (s.rbDraws c) (s.chan c) ((runAppend c s).chan c) := by
  refine confined_withChannel h fun _ _ => ?_
  dsimp only
  split_ifs with hsrc hfull
  · exact .of_rb rfl rfl
  · rw [State.chan_done, State.chan_setRes, State.chan_setChan_self]
    refine Channel.store_confined ?_
    rw [State.dmemRead_length]
    exact Nat.not_lt.1 hfull
  · exact .of_rb rfl rfl

theorem runFree_confined (h : Inv s) : Channel.Confined (s.rbDraws c) (s.chan c) ((runFree c s).chan c) := by
  refine confined_withChannel h fun _ hch => ?_
  rw [State.chan_done, State.chan_setRes, State.chan_setRes, State.chan_setChan_self]
  exact Channel.freed_confined hch

theorem runParse_confined (h : Inv s) : Channel.Confined (s.rbDraws c) (s.chan c) ((runParse c s).chan c) := by
  refine confined_withChannel h fun _ hch => ?_
  rw [State.chan_done, State.chan_setRes, State.chan_setChan_self]
  exact Channel.parseCore_confined (env := s.parseEnv c) h.params_lawful hch

/-- PARSE_BYTE stores its byte below the capacity or not at all (R213). -/
theorem runParseByte_confined (h : Inv s) (b : Byte) :
    Channel.Confined (s.rbDraws c) (s.chan c) ((runParseByte c b s).chan c) := by
  refine confined_withChannel h fun _ hch => ?_
  rw [State.chan_setStatus, State.chan_setRes, State.chan_setChan_self]
  by_cases hfull : (s.chan c).tail = (s.chan c).cap
  · rw [decide_eq_true hfull]
    exact Channel.parseCore_confined (env := s.parseEnv c) h.params_lawful hch
  · have hroom : (s.chan c).tail.toNat + [b].length ≤ (s.chan c).cap.toNat :=
      Nat.lt_of_le_of_ne hch.tail_le_cap fun e => hfull (BitVec.eq_of_toNat_eq e)
    rw [decide_eq_false hfull]
    exact (Channel.store_confined hroom).trans
      (Channel.parseCore_confined (env := s.parseEnv c) h.params_lawful (Channel.store_inv h.params_lawful hch hroom))

theorem runEncode_confined (h : Inv s) (v : Version) :
    Channel.Confined (s.rbDraws c) (s.chan c) ((runEncode c v s).chan c) := by
  refine confined_withChannel h fun _ _ => ?_
  dsimp only
  split_ifs
  · exact .of_rb rfl rfl
  · exact .of_rb rfl rfl
  · exact .of_rb rfl rfl
  · rw [State.chan_done, State.chan_setChan_self]
    exact .of_rb rfl rfl

/-- INIT keeps the ring-buffer bytes, though not the capacity (R141). -/
theorem runInit_rb : ((runInit c s).chan c).rb = (s.chan c).rb := by
  unfold runInit
  split_ifs
  · rfl
  · rw [State.chan_done, State.chan_setRes, State.chan_setChan_self]
    rfl
  · rfl

end

/-- Every command but INIT of the channel leaves its capacity and the bytes at and above it. -/
theorem exec_confined {i : Instr} {s t : State} {c : BitVec 4} (h : Inv s) (hexec : exec i s = .next t)
    (hinit : i ≠ .init c) : Channel.Confined (s.rbDraws c) (s.chan c) (t.chan c) := by
  by_cases hch : channelOf i = some c
  · cases i with
    | init => cases hch; exact absurd rfl hinit
    | setMask _ m => cases hch; cases hexec; exact runSetMask_confined h m
    | append => cases hch; cases hexec; exact runAppend_confined h
    | free => cases hch; cases hexec; exact runFree_confined h
    | parseByte _ b => cases hch; cases hexec; exact runParseByte_confined h b
    | parse => cases hch; cases hexec; exact runParse_confined h
    | encode _ v => cases hch; cases hexec; exact runEncode_confined h v
    | nop | cksum | crc24 | getbits | decode | decodeByte | decodeFooter | encEnable | setHostOrder => cases hch
  · rw [(channelsAreIndependent i s t c hexec hch).1]
    exact .of_rb rfl rfl

/-- Settles O23: INIT keeps every byte, and every other command is confined below the capacity. -/
theorem noWriteAboveCapacity : Obligations.NoWriteAboveCapacity := by
  intro i s t c h hexec
  refine ⟨fun hinit => (exec_confined h hexec hinit).cap, fun k hk => ?_⟩
  have hdraws : t.rbDraws c = s.rbDraws c := by
    obtain ⟨u, hexec', hframe⟩ := exec_framed i s
    obtain rfl : t = u := Host.Outcome.next.inj (hexec.symm.trans hexec')
    rw [State.rbDraws, hframe.epoch]
    rfl
  rw [State.rbByte, hdraws]
  by_cases hinit : i = .init c
  · subst hinit
    cases hexec
    exact Channel.byteAt_of_rb runInit_rb _ _
  · exact (exec_confined h hexec hinit).above k hk

end Sys2Proof.Machine
end

section
/-!
PROOFS. The running checksum byte by byte (41_checksum.md section 4): each byte is added in its lane, so one more byte adds
one term, and a flipped bit of a byte is a flipped bit of its term.
-/

namespace Sys2Proof.Machine

/-! ## The lanes of a checksum word (R170) -/

/-- What the byte `b` at index `i` of a string adds to the running checksum: the byte in its lane. -/
def laneTerm (o : CksumOrder) (i : Nat) (b : Byte) : Word := byteWord b <<< laneShift o (BitVec.ofNat 2 i)

/-- The lane of index `i`, as a shift. -/
theorem laneShift_ofNat (o : CksumOrder) (i : Nat) : laneShift o (BitVec.ofNat 2 i) =
    match o with
    | .le => 8 * (i % 4)
    | .be => 8 * (3 - i % 4) := by
  cases o <;> rfl

theorem laneShift_le (o : CksumOrder) (lane : BitVec 2) : laneShift o lane ≤ 24 := by
  have := lane.isLt
  cases o <;> simp only [laneShift] <;> omega

/-- A word later, the lane is the same. -/
theorem laneTerm_add_four (o : CksumOrder) (i : Nat) (b : Byte) : laneTerm o (i + 4) b = laneTerm o i b := by
  have hlane : BitVec.ofNat 2 (i + 4) = BitVec.ofNat 2 i := by
    rw [BitVec.ofNat_add]
    exact BitVec.add_zero _
  rw [laneTerm, laneTerm, hlane]

@[simp] theorem laneTerm_zero (o : CksumOrder) (i : Nat) : laneTerm o i 0#8 = 0#32 := by
  simp [laneTerm, byteWord]

/-- No bit of the byte is shifted out of the word. -/
theorem laneTerm_toNat (o : CksumOrder) (i : Nat) (b : Byte) :
    (laneTerm o i b).toNat = b.toNat * 2 ^ laneShift o (BitVec.ofNat 2 i) := by
  have hb := b.isLt
  have hshift := Nat.pow_le_pow_right (n := 2) (by decide) (laneShift_le o (BitVec.ofNat 2 i))
  have hfit : b.toNat * 2 ^ laneShift o (BitVec.ofNat 2 i) < 2 ^ 32 :=
    (Nat.mul_le_mul_left b.toNat hshift).trans_lt (by omega)
  rw [laneTerm, BitVec.toNat_shiftLeft, Nat.shiftLeft_eq, byteWord,
    BitVec.toNat_setWidth_of_le (by decide), Nat.mod_eq_of_lt hfit]

/-- A checksum word is the sum of its bytes in their lanes. -/
theorem wordOf_eq_laneTerms (o : CksumOrder) (b0 b1 b2 b3 : Byte) :
    wordOf o b0 b1 b2 b3 = laneTerm o 0 b0 + laneTerm o 1 b1 + laneTerm o 2 b2 + laneTerm o 3 b3 := by
  apply BitVec.eq_of_toNat_eq
  have h0 := b0.isLt
  have h1 := b1.isLt
  have h2 := b2.isLt
  have h3 := b3.isLt
  simp only [BitVec.toNat_add, wordOf_toNat, laneTerm_toNat, laneShift_ofNat]
  cases o <;> simp only [Nat.reduceMod, Nat.reduceMul, Nat.reducePow, Nat.reduceSub] <;> omega

/-! ## One more byte (R171) -/

/-- One more byte adds its lane term, whatever the sum started from. -/
theorem foldl_wordsOf_concat (o : CksumOrder) (B : List Byte) (b : Byte) : ∀ acc : Word,
    (wordsOf o (B ++ [b])).foldl (fun acc w => acc + w) acc
      = (wordsOf o B).foldl (fun acc w => acc + w) acc + laneTerm o B.length b := by
  induction B using wordsOf.induct with
  | case1 => simp [wordsOf, wordOf_eq_laneTerms]
  | case2 b0 => simp [wordsOf, wordOf_eq_laneTerms, BitVec.add_assoc]
  | case3 b0 b1 => simp [wordsOf, wordOf_eq_laneTerms, BitVec.add_assoc]
  | case4 b0 b1 b2 => simp [wordsOf, wordOf_eq_laneTerms, BitVec.add_assoc]
  | case5 b0 b1 b2 b3 rest ih =>
    intro acc
    simp only [List.cons_append, wordsOf, List.foldl_cons, List.length_cons, laneTerm_add_four, ih]

theorem cksumFn_concat (o : CksumOrder) (B : List Byte) (b : Byte) :
    cksumFn o (B ++ [b]) = cksumFn o B + laneTerm o B.length b :=
  foldl_wordsOf_concat o B b Config.seed

/-- The checksum as a function of one byte of the string: only that byte's lane term depends on it. -/
theorem cksumFn_eq_add_laneTerm (o : CksumOrder) (X Y : List Byte) :
    ∃ a : Word, ∀ b, cksumFn o (X ++ b :: Y) = a + laneTerm o X.length b := by
  induction Y using List.reverseRecOn with
  | nil => exact ⟨cksumFn o X, cksumFn_concat o X⟩
  | append_singleton Y y ih =>
    obtain ⟨a, ha⟩ := ih
    refine ⟨a + laneTerm o (X.length + 1 + Y.length) y, fun b => ?_⟩
    have hlen : (X ++ b :: Y).length = X.length + 1 + Y.length := by
      simp only [List.length_append, List.length_cons]
      omega
    rw [← List.cons_append, ← List.append_assoc, cksumFn_concat, ha, hlen, BitVec.add_assoc, BitVec.add_assoc,
      BitVec.add_comm (laneTerm o X.length b)]

/-- Settles O33: the words of the two parts are the words of the string, and the seed is counted twice. -/
theorem cksumLinear : Obligations.CksumLinear := by
  intro o X Y hX
  rw [cksumFn, cksumFn, cksumFn, wordsOf_append o X Y hX, List.foldl_append, foldl_add_init (wordsOf o Y),
    foldl_add_init (wordsOf o Y) Config.seed, BitVec.add_comm Config.seed, ← BitVec.add_assoc, BitVec.add_sub_cancel]

/-! ## A flipped bit (R172) -/

/-- Flipping bit `j` of a byte flips one bit of its lane term. -/
theorem laneTerm_flip (o : CksumOrder) (i : Nat) (b : Byte) {j : Nat} (hj : j < 8) :
    laneTerm o i (b ^^^ (1 : Byte) <<< j)
      = laneTerm o i b ^^^ (1 : Word) <<< (laneShift o (BitVec.ofNat 2 i) + j) := by
  have hbit : ∀ j < 8, byteWord ((1 : Byte) <<< j) = (1 : Word) <<< j := by decide
  have hxor : byteWord (b ^^^ (1 : Byte) <<< j) = byteWord b ^^^ byteWord ((1 : Byte) <<< j) := BitVec.setWidth_xor
  rw [laneTerm, laneTerm, hxor, hbit j hj, BitVec.shiftLeft_xor_distrib, Nat.add_comm, BitVec.shiftLeft_add]

/-- The low `n` bits of a word with one bit set. -/
theorem setWidth_bit_eq_zero_iff {n k : Nat} (hn : n ≤ 32) : ((1 : Word) <<< k).setWidth n = 0 ↔ n ≤ k := by
  have hpow : (1 : Word) <<< k = BitVec.twoPow 32 k := (BitVec.twoPow_eq 32 k).symm
  have hbit (i : Nat) : (((1 : Word) <<< k).setWidth n).getLsbD i = decide (i < n ∧ k = i) := by
    rw [BitVec.getLsbD_setWidth, hpow, BitVec.getLsbD_twoPow, Bool.eq_iff_iff]
    simp only [Bool.and_eq_true, decide_eq_true_eq]
    omega
  constructor
  · intro h
    have hk := hbit k
    rw [h, BitVec.ofNat_eq_ofNat, BitVec.getLsbD_zero] at hk
    simpa using hk.symm
  · intro h
    refine BitVec.eq_of_getLsbD_eq fun i hi => ?_
    rw [hbit, BitVec.ofNat_eq_ofNat, BitVec.getLsbD_zero]
    exact decide_eq_false (by omega)

/-- The low `n` bits of a sum see a flip of bit `k` of a term exactly when `k` is one of them. -/
theorem setWidth_add_flip_ne_iff {n k : Nat} (hn : n ≤ 32) (a w : Word) :
    (a + (w ^^^ (1 : Word) <<< k)).setWidth n ≠ (a + w).setWidth n ↔ k < n := by
  rw [BitVec.setWidth_add _ _ hn, BitVec.setWidth_add _ _ hn, ne_eq, BitVec.add_right_inj, BitVec.setWidth_xor,
    ← BitVec.xor_zero (x := w.setWidth n), BitVec.xor_assoc, BitVec.xor_right_inj, BitVec.zero_xor]
  exact (not_congr (setWidth_bit_eq_zero_iff hn)).trans Nat.not_le

theorem ck24_eq_iff {x y : Word} : ck24 x = ck24 y ↔ x.setWidth 24 = y.setWidth 24 := by
  rw [← BitVec.toNat_inj, ← BitVec.toNat_inj, ck24_toNat, ck24_toNat, BitVec.toNat_setWidth, BitVec.toNat_setWidth]

theorem ck16_eq_iff {x y : Word} : ck16 x = ck16 y ↔ x.setWidth 16 = y.setWidth 16 := by
  rw [← BitVec.toNat_inj, ← BitVec.toNat_inj, ck16_toNat, ck16_toNat, BitVec.toNat_setWidth, BitVec.toNat_setWidth]

/-- Settles O34: the flip is a flip of one bit of the byte's lane term, and a truncation sees it if it keeps the bit. -/
theorem cksumSingleBitSensitivity : Obligations.CksumSingleBitSensitivity := by
  intro o B i j hi hj k B'
  have hk : k = laneShift o (BitVec.ofNat 2 i) + j := by
    rw [laneShift_ofNat]
    cases o <;> rfl
  obtain ⟨a, ha⟩ := cksumFn_eq_add_laneTerm o (B.take i) (B.drop (i + 1))
  have hset (b : Byte) : cksumFn o (B.set i b) = a + laneTerm o i b := by
    rw [List.set_eq_take_append_cons_drop, if_pos hi, ha, List.length_take_of_le hi.le]
  have hold : cksumFn o B = a + laneTerm o i (B.getD i 0) := by
    rw [← hset, List.getD_eq_getElem _ _ hi, List.set_getElem_self]
  have hnew : cksumFn o B' = a + (laneTerm o i (B.getD i 0) ^^^ (1 : Word) <<< k) := by
    rw [hset, laneTerm_flip o i _ hj, hk]
  rw [hold, hnew, ne_eq, ne_eq, ck24_eq_iff, ck16_eq_iff]
  exact ⟨setWidth_add_flip_ne_iff (by decide) a _, setWidth_add_flip_ne_iff (by decide) a _⟩

end Sys2Proof.Machine
end

section
/-!
PROOFS. An escaped frame (43_codec.md section 1) and what the codec commands read of it: its shape, the checksum field
DECODE_FOOTER finds (R243), and DECODE of the frame ENCODE wrote (section 4).
-/

namespace Sys2Proof.Machine

open Sys2Proof.Safety

/-! ## The shape of an escaped frame (R223, R225, R227) -/

section
variable {p : Params} {S pid counter flags : Byte} {P : List Byte} {ck : Word}

/-- The bytes between the start and the stop byte are those of the escaped body. -/
theorem frameBytes_getD_mem {k : Nat} (h1 : 1 ≤ k) (hk : k + 1 < (frameBytes p true S pid counter flags P ck).length) :
    (frameBytes p true S pid counter flags P ck).getD k 0 ∈ escapeAll p true (frameBody pid counter flags P ck) := by
  rw [frameBytes_eq] at hk ⊢
  obtain ⟨i, rfl⟩ : ∃ i, k = i + 1 := ⟨k - 1, by omega⟩
  have hi : i < (escapeAll p true (frameBody pid counter flags P ck)).length := by
    simp only [List.length_cons, List.length_append, List.length_nil] at hk
    omega
  rw [List.getD_cons_succ, List.getD_append _ _ _ _ hi, List.getD_eq_getElem _ _ hi]
  exact List.getElem_mem hi

theorem frameBytes_getD_last :
    (frameBytes p true S pid counter flags P ck).getD ((frameBytes p true S pid counter flags P ck).length - 1) 0
      = Config.stop := by
  simp [frameBytes_eq]

end

/-- Settles O56: a byte between the start and the stop byte is one of the escaped body. -/
theorem escapedFrameShape : Obligations.EscapedFrameShape := by
  intro p S pid counter flags P ck hp F
  obtain ⟨hlow, hhigh⟩ := escapeAll_length p (frameBody pid counter flags P ck)
  have hlen : F.length = 2 + (escapeAll p true (frameBody pid counter flags P ck)).length := frameBytes_length ..
  rw [frameBody_length] at hlow hhigh
  refine ⟨fun hkey k h1 hk hstop => ?_, frameBytes_getD_last, fun k h1 hk hmem => ?_, by omega, by omega, ?_⟩
  · exact stop_not_mem_escapeAll hp hkey _ (hstop ▸ frameBytes_getD_mem h1 hk)
  · exact mem_escapeAll hp (frameBytes_getD_mem h1 hk) ((inEscSet_iff ..).2 hmem)
  · rw [frameBytes_length, escapeAll_off]
    simp only [List.length_append, List.length_cons, List.length_nil]
    omega

/-! ## DECODE_FOOTER of an escaped frame (R243) -/

/-- A byte string in memory, by its first byte, its last byte and those between. -/
theorem bytesFrom_eq_cons_concat {rd : Nat → Byte} {f : Nat} {x y : Byte} {E : List Byte}
    (h : bytesFrom rd f (x :: (E ++ [y])).length = x :: (E ++ [y])) :
    rd f = x ∧ bytesFrom rd (f + 1) E.length = E ∧ rd (f + 1 + E.length) = y := by
  rw [List.length_cons, List.length_append, bytesFrom_succ, List.cons.injEq, bytesFrom_append] at h
  obtain ⟨hfirst, hrest⟩ := h
  obtain ⟨hbetween, hlast⟩ := List.append_inj hrest (bytesFrom_length ..)
  exact ⟨hfirst, hbetween, (List.cons.inj hlast).1⟩

/-- The encoded form of the last bytes of a string stands at the end of the string's. -/
theorem EncodedAt.of_escapeAll_append {p : Params} {rd : Nat → Byte} {lo j : Nat} (hp : p.lawful = true)
    {X V : List Byte} : ∀ {q : Nat}, EncodedAt p rd lo (escapeAll p true (X ++ V)) q j →
      ∃ m, EncodedAt p rd lo (escapeAll p true V) m j := by
  induction X with
  | nil => exact fun h => ⟨_, h⟩
  | cons x X ih =>
    intro q h
    rw [List.cons_append, escapeAll_cons, encodedAt_append_iff hp] at h
    obtain ⟨_, _, hrest⟩ := h
    exact ih hrest

/-- Settles O53: the whole escaped body stands after the start byte, so its last three bytes stand before the stop byte
and begin inside no escape pair. -/
theorem footerOfEscapedFrame : Obligations.FooterOfEscapedFrame := by
  intro s f S pid counter flags P ck hp F footer hin hF hend hlo
  obtain ⟨_, hbody, hstop⟩ := bytesFrom_eq_cons_concat hF
  have hlen : F.length = 2 + (escapeAll s.params true (frameBody pid counter flags P ck)).length := frameBytes_length ..
  have hlast : (s.arg 0).toNat - 1 = f + 1 + (escapeAll s.params true (frameBody pid counter flags P ck)).length := by
    omega
  have hbodyAt : EncodedAt s.params s.dmemByte (s.arg 1).toNat
      (escapeAll s.params true (frameBody pid counter flags P ck)) (f + 1) ((s.arg 0).toNat - 1) :=
    ⟨hlo.le, hlast, hbody, fun hpair => absurd hpair.1 (by omega)⟩
  obtain ⟨q, hfooterAt⟩ := EncodedAt.of_escapeAll_append hp hbodyAt
  have hq : f + F.length - 1 - footer.length = q := by
    have hstart : (s.arg 0).toNat - 1 = q + footer.length := hfooterAt.stop
    omega
  rw [hq, exec_decodeFooter, runDecodeFooter_field (by omega) (by omega) (by rwa [hlast])
    ((footerField_iff_encodedAt hp).2 ⟨_, _, _, hfooterAt, word24_byteOf ck⟩)]
  rfl

/-! ## ENCODE and then DECODE (43_codec.md section 4) -/

/-- R233: the frame declares the host's byte order. -/
theorem flagLe_encodeFlags (hostLe : Bool) (t x : Word) : flagLe (encodeFlags hostLe t x) = hostLe := by
  cases hostLe <;> simp [flagLe, encodeFlags]

/-- A payload in the host's byte order is not swapped (R237). -/
theorem normalize_encodeFlags (hostLe : Bool) (t x : Word) (P : List Byte) :
    normalize hostLe (encodeFlags hostLe t x) P = P :=
  if_neg fun h => h.1 (flagLe_encodeFlags hostLe t x)

/-- The frame that ENCODE builds from the operands, with the fields DECODE reads of it (R221, R232). -/
def State.encodedFrame (s : State) (ver : Version) : IsbFrame :=
  let flags := encodeFlags s.ctrl.hostLe (s.arg 4) (s.arg 5)
  let P := s.dmemRead (s.arg 0).toNat (s.arg 1).toNat
  ⟨versionStart ver, templatePid (s.arg 4), templateCounter (s.arg 4), flags, P,
    ckSelect flags (cksumFn s.params.cksumOrder ([versionStart ver, templatePid (s.arg 4), templateCounter (s.arg 4), flags] ++ P))⟩

section
variable {s : State} {ver : Version}

theorem State.encodedFrame_received : (s.encodedFrame ver).received = (s.encodedFrame ver).expected s.params := rfl

@[simp] theorem State.encodedFrame_payload_length : (s.encodedFrame ver).payload.length = (s.arg 1).toNat :=
  s.dmemRead_length _ _

/-- With escaping on, what ENCODE writes is framed and unpacks to the frame it was built from. -/
theorem framed_encoded (henc : s.ctrl.encEn = true) : framed (s.encoded ver) = true := by
  have hstart : versionStart ver = Config.startV1 ∨ versionStart ver = Config.startV2 := by
    cases ver
    · exact .inl rfl
    · exact .inr rfl
  rw [State.encoded, henc, framed]
  exact decide_eq_true ⟨by rw [frameBytes_length]; omega, hstart, frameBytes_getD_last⟩

theorem unpackIsb_encoded (hp : s.params.lawful = true) (henc : s.ctrl.encEn = true)
    (hbody : (s.arg 1).toNat ≤ s.params.maxBody) :
    unpackIsb s.params (s.encoded ver) = .frame (s.encodedFrame ver) := by
  rw [State.encoded, henc]
  refine (unpackIsb_frameBytes hp (by rwa [State.dmemRead_length])).trans ?_
  rw [ck24_ckSelect]
  rfl

end

/-- DECODE of a range that holds a frame whose checksum matches, into a destination that is large enough (R238). -/
theorem exec_decode_of_frame {s : State} {F : List Byte} {fr : IsbFrame}
    (hsrc : (s.arg 0).toNat + (s.arg 1).toNat ≤ s.params.dmemSize)
    (hdst : (s.arg 2).toNat + (s.arg 3).toNat ≤ s.params.dmemSize)
    (hF : s.dmemRead (s.arg 0).toNat (s.arg 1).toNat = F) (hframed : framed F = true)
    (hunpack : unpackIsb s.params F = .frame fr) (hck : fr.received = fr.expected s.params)
    (hcap : 4 + fr.payload.length ≤ (s.arg 3).toNat) :
    ∃ v, exec .decode s = .next v ∧ v.status = ⟨0x21, .ok⟩ ∧ v.result 0 = BitVec.ofNat 32 fr.payload.length ∧
      v.result 2 = v.result 3 ∧ v.dmemRead (s.arg 2).toNat (4 + fr.payload.length) = fr.decoded s.ctrl.hostLe := by
  subst hF
  rw [exec_decode, runDecode_unpacked hsrc hdst hframed hunpack, decodeUnpacked_ok hck hcap]
  refine ⟨_, rfl, rfl, ?length, ?checksums, ?bytes⟩
  case length => simp [State.setDecodeResults, State.result_setRes]
  case checksums => simp [State.setDecodeResults, State.result_setRes, hck]
  case bytes =>
    have hlen : 4 + fr.payload.length = (fr.decoded s.ctrl.hostLe).length := by
      rw [IsbFrame.decoded_length, Nat.add_comm]
    rw [hlen]
    exact (s.setDecodeResults fr).dmemRead_dmemWrite_self _ _

/-- ENCODE on a ready channel whose operands pass every check: what the state after it holds (R232). -/
theorem encoded_of_exec {s t : State} {c : BitVec 4} {ver : Version} (hr : channelReady s c)
    (hbody : (s.arg 1).toNat ≤ s.params.maxBody)
    (hroom : worstSize s.ctrl.encEn (s.arg 1).toNat ≤ (s.arg 3).toNat)
    (hsrc : (s.arg 0).toNat + (s.arg 1).toNat ≤ s.params.dmemSize)
    (hdst : (s.arg 2).toNat + (s.arg 3).toNat ≤ s.params.dmemSize) (hexec : exec (.encode c ver) s = .next t) :
    t.params = s.params ∧ t.ctrl = s.ctrl ∧ t.result 0 = BitVec.ofNat 32 (s.encoded ver).length ∧
      t.dmemRead (s.arg 2).toNat (s.encoded ver).length = s.encoded ver := by
  rw [exec_encode, runEncode_ready hr ver hbody hroom hsrc hdst] at hexec
  obtain rfl := Host.Outcome.next.inj hexec
  generalize s.encoded ver = out
  exact ⟨rfl, rfl, s.result_setRes_self 0 _, s.dmemRead_dmemWrite_self _ _⟩

/-- Settles O58: DECODE reads back the frame ENCODE built, whose payload is in the host's byte order. -/
theorem encodeDecodeRoundTrip : Obligations.EncodeDecodeRoundTrip := by
  intro s t c ver d cap hp hr henc n hbody hroom hsrc hdst hcap hout hexec flags S
  have hworst : worstSize s.ctrl.encEn n ≤ (s.arg 3).toNat := by rwa [worstSize_eq, if_pos henc]
  obtain ⟨hparams, hctrl, hres, hF⟩ := encoded_of_exec hr hbody hworst hsrc hdst hexec
  have hlen := (s.encoded_length_le ver).trans hworst
  have hsize := Params.lawful_dmemSize hp
  have hword : (t.result 0).toNat = (s.encoded ver).length := by
    rw [hres, BitVec.toNat_ofNat]
    omega
  let u : State := (((t.setArg 0 (s.arg 2)).setArg 1 (t.result 0)).setArg 2 d).setArg 3 cap
  have h0 : u.arg 0 = s.arg 2 := by simp [u, State.arg_setArg]
  have h1 : (u.arg 1).toNat = (s.encoded ver).length := by simpa [u, State.arg_setArg] using hword
  have h2 : u.arg 2 = d := by simp [u, State.arg_setArg]
  have h3 : u.arg 3 = cap := by simp [u]
  have hparams' : u.params = s.params := hparams
  have hctrl' : u.ctrl = s.ctrl := hctrl
  obtain ⟨v, hv, hstatus, hpayload, hck, hbytes⟩ :=
    exec_decode_of_frame (s := u) (F := s.encoded ver) (fr := s.encodedFrame ver)
      (by rw [h0, h1, hparams']; omega) (by rwa [h2, h3, hparams']) (by rw [h0, h1]; exact hF) (framed_encoded henc)
      (by rw [hparams']; exact unpackIsb_encoded hp henc hbody) (by rw [hparams']; exact s.encodedFrame_received)
      (by rwa [h3, State.encodedFrame_payload_length])
  rw [State.encodedFrame_payload_length] at hpayload hbytes
  refine ⟨v, hv, hstatus, ?_, hck, ?_⟩
  · rw [hpayload, BitVec.ofNat_toNat, BitVec.setWidth_eq]
  · have hS : S = versionStart ver := (versionStart_eq ver).symm
    have hflags : flags = encodeFlags s.ctrl.hostLe (s.arg 4) (s.arg 5) := (encodeFlags_eq ..).symm
    rw [h2, hctrl', IsbFrame.decoded] at hbytes
    rw [hS, hflags, hbytes]
    exact congrArg _ (normalize_encodeFlags s.ctrl.hostLe (s.arg 4) (s.arg 5) _)

end Sys2Proof.Machine
end

section
/-!
PROOFS. The DECODE_BYTE loop (43_codec.md section 3): what the machine holds after any number of decoded bytes of an escaped
string, and how one more byte, a literal or an escape pair, carries it on.
-/

namespace Sys2Proof.Machine

open Sys2Proof.Safety

/-! ## A run of one command -/

/-- `k` times the command `i` lead from `u` to `v`; before the last of them `ARG0` is below `q`, and each of them has the
status OK. -/
structure RunsBelow (i : Instr) (q k : Nat) (u v : State) : Prop where
  run : execTimes i k u = some v
  within : ∀ j w, execTimes i j u = some w → (j < k → (w.arg 0).toNat < q) ∧ (1 ≤ j → j ≤ k → w.status.code = .ok)

section
variable {i : Instr} {q k : Nat} {u v w : State}

theorem RunsBelow.refl (i : Instr) (q : Nat) (u : State) : RunsBelow i q 0 u u :=
  ⟨rfl, fun _ _ _ => ⟨fun h => absurd h (Nat.not_lt_zero _), fun h1 h0 => by omega⟩⟩

/-- One command more, at the front. -/
theorem RunsBelow.cons (hexec : exec i u = .next v) (hbelow : (u.arg 0).toNat < q) (hok : v.status.code = .ok)
    (h : RunsBelow i q k v w) : RunsBelow i q (k + 1) u w := by
  have hsucc (j : Nat) : execTimes i (j + 1) u = execTimes i j v := by rw [execTimes, hexec]
  refine ⟨(hsucc k).trans h.run, fun j x hx => ?_⟩
  cases j with
  | zero =>
    obtain rfl : u = x := Option.some.inj hx
    exact ⟨fun _ => hbelow, fun h => absurd h (by decide)⟩
  | succ j =>
    rw [hsucc] at hx
    obtain ⟨hlt, hstatus⟩ := h.within j x hx
    refine ⟨fun hj => hlt (by omega), fun _ hj => ?_⟩
    cases j with
    | zero =>
      obtain rfl : v = x := Option.some.inj hx
      exact hok
    | succ j => exact hstatus (by omega) (by omega)

end

/-! ## The operand registers after a source byte -/

theorem toNat_add_one {w : Word} (h : w.toNat + 1 < 2 ^ 32) : (w + 1).toNat = w.toNat + 1 :=
  BitVec.toNat_add_of_lt h

theorem State.consumeByte_args (s : State) (escp : Bool) (lane : BitVec 2) :
    (s.consumeByte escp lane).arg 0 = s.arg 0 + 1 ∧ (s.consumeByte escp lane).arg 1 = s.arg 1 ∧
      (s.consumeByte escp lane).arg 2 = s.arg 2 ∧ (s.consumeByte escp lane).arg 3 = laneWord escp lane := by
  simp [State.consumeByte, State.arg_setArg]

theorem State.emitByte_args (s : State) (x : Byte) :
    (s.emitByte x).arg 0 = s.arg 0 + 1 ∧ (s.emitByte x).arg 1 = s.arg 1 + 1 ∧
      (s.emitByte x).arg 2 = s.arg 2 + byteWord x <<< laneShift s.params.cksumOrder (laneOf (s.arg 3)) ∧
      (s.emitByte x).arg 3 = laneWord false (laneOf (s.arg 3) + 1) := by
  simp [State.emitByte, State.consumeByte, State.arg_setArg]

/-! ## The state of the loop (30_encoding.md R117; R240) -/

theorem laneOf_laneWord (escp : Bool) (lane : BitVec 2) : laneOf (laneWord escp lane) = lane := by
  revert escp lane
  decide

theorem escpOf_laneWord (escp : Bool) (lane : BitVec 2) : escpOf (laneWord escp lane) = escp := by
  revert escp lane
  decide

/-- Two writes end to end are one. -/
theorem Memory.putAll_append (B C : List Byte) : ∀ (m : Memory) (a : Nat),
    (m.putAll a B).putAll (a + B.length) C = m.putAll a (B ++ C) := by
  induction B with
  | nil => exact fun _ _ => rfl
  | cons b B ih =>
    intro m a
    rw [Memory.putAll_cons, List.cons_append, Memory.putAll_cons, ← ih, List.length_cons, Nat.add_comm B.length,
      Nat.add_assoc]

/-- The loop that began in `s` after the start byte `S` has decoded `X` to `d`, and stands at the source byte `a`; with
`escp` the byte before it was an escape key. -/
structure Decoded (s : State) (S : Byte) (d : Nat) (X : List Byte) (a : Nat) (escp : Bool) (u : State) : Prop where
  params : u.params = s.params
  epoch : u.epoch = s.epoch
  src : (u.arg 0).toNat = a
  dst : (u.arg 1).toNat = d + X.length
  sum : u.arg 2 = cksumFn s.params.cksumOrder (S :: X)
  lane : u.arg 3 = laneWord escp (BitVec.ofNat 2 (S :: X).length)
  dmem : u.dmem = s.dmem.putAll d X

section
variable {s u : State} {S : Byte} {d a : Nat} {X : List Byte} {escp : Bool}

/-- The bytes outside the destination are those the loop began with. -/
theorem Decoded.dmemByte_outside (h : Decoded s S d X a escp u) {k : Nat} (hk : k < d ∨ d + X.length ≤ k) :
    u.dmemByte k = s.dmemByte k := by
  rw [State.dmemByte_congr (s := s.dmemWrite d X) h.dmem h.epoch]
  exact s.dmemByte_dmemWrite_outside hk

/-- The destination holds what was decoded. -/
theorem Decoded.dmemRead_dst (h : Decoded s S d X a escp u) : u.dmemRead d X.length = X := by
  rw [State.dmemRead_congr (s := s.dmemWrite d X) h.dmem h.epoch]
  exact s.dmemRead_dmemWrite_self d X

theorem Decoded.laneOf_eq (h : Decoded s S d X a escp u) : laneOf (u.arg 3) = BitVec.ofNat 2 (S :: X).length := by
  rw [h.lane, laneOf_laneWord]

theorem Decoded.escpOf_eq (h : Decoded s S d X a escp u) : escpOf (u.arg 3) = escp := by
  rw [h.lane, escpOf_laneWord]

/-- DECODE_BYTE with both cursors in DMEM, by the escape state and the source byte. -/
theorem Decoded.exec_eq (h : Decoded s S d X a escp u) (ha : a + 1 ≤ s.params.dmemSize)
    (hd : d + X.length + 1 ≤ s.params.dmemSize) (hout : a < d ∨ d + X.length ≤ a) :
    exec .decodeByte u = .next
      (if escp then
        if inEscSet s.params (~~~s.dmemByte a) then (u.emitByte (~~~s.dmemByte a)).done .decodeByte else u.rejectByte
      else if s.dmemByte a = s.params.escKey then
        ((u.consumeByte true (laneOf (u.arg 3))).setRes 0 0).done .decodeByte
      else if inEscSet s.params (s.dmemByte a) then u.rejectByte
      else (u.emitByte (s.dmemByte a)).done .decodeByte) := by
  have hrun := runDecodeByte_inDmem (s := u) (by rwa [h.src, h.params]) (by rwa [h.dst, h.params])
  rw [h.src, h.dmemByte_outside hout, h.escpOf_eq, h.params] at hrun
  exact congrArg _ hrun

/-- An emitted byte is one more byte decoded. -/
theorem Decoded.emit (h : Decoded s S d X a escp u) (ha : a + 1 < 2 ^ 32) (hd : d + X.length + 1 < 2 ^ 32) (x : Byte) :
    Decoded s S d (X ++ [x]) (a + 1) false ((u.emitByte x).done .decodeByte) := by
  obtain ⟨h0, h1, h2, h3⟩ := u.emitByte_args x
  constructor
  case params => rw [State.done_params, State.emitByte_eq]; exact h.params
  case epoch => rw [State.done_epoch, State.emitByte_eq]; exact h.epoch
  case src => rw [State.arg_done, h0, toNat_add_one (by rwa [h.src]), h.src]
  case dst => rw [State.arg_done, h1, toNat_add_one (by rwa [h.dst]), h.dst, List.length_append, List.length_singleton, Nat.add_assoc]
  case sum => rw [State.arg_done, h2, h.sum, h.laneOf_eq, h.params, ← List.cons_append, cksumFn_concat, laneTerm]
  case lane => rw [State.arg_done, h3, h.laneOf_eq, ← List.cons_append, List.length_append, List.length_singleton, BitVec.ofNat_add]; rfl
  case dmem =>
    show u.dmem.putAll (u.arg 1).toNat [x] = _
    rw [h.dmem, h.dst, Memory.putAll_append]

/-- An escape key is consumed. -/
theorem Decoded.key (h : Decoded s S d X a escp u) (ha : a + 1 < 2 ^ 32) :
    Decoded s S d X (a + 1) true (((u.consumeByte true (laneOf (u.arg 3))).setRes 0 0).done .decodeByte) := by
  obtain ⟨h0, h1, h2, h3⟩ := u.consumeByte_args true (laneOf (u.arg 3))
  constructor
  case params => exact h.params
  case epoch => exact h.epoch
  case src => rw [State.arg_done, State.arg_setRes, h0, toNat_add_one (by rwa [h.src]), h.src]
  case dst => rw [State.arg_done, State.arg_setRes, h1, h.dst]
  case sum => rw [State.arg_done, State.arg_setRes, h2, h.sum]
  case lane => rw [State.arg_done, State.arg_setRes, h3, h.laneOf_eq]
  case dmem => exact h.dmem

end

/-- The seed of the loop: the start byte stands in lane 0. -/
theorem cksumFn_singleton (o : CksumOrder) (S : Byte) : cksumFn o [S] = Config.seed + laneTerm o 0 S :=
  cksumFn_concat o [] S

/-! ## The loop -/

section
variable {s u : State} {S : Byte} {d a q : Nat} {X : List Byte}

/-- One encoded byte: a literal is one DECODE_BYTE, an escape pair is two. -/
theorem Decoded.byte (hp : s.params.lawful = true) (h : Decoded s S d X a false u) {y : Byte}
    (hbytes : bytesFrom s.dmemByte a (escapeByte s.params true y).length = escapeByte s.params true y)
    (hq : a + (escapeByte s.params true y).length ≤ q) (hin : q ≤ s.params.dmemSize)
    (hroom : d + X.length + 1 ≤ s.params.dmemSize) (hout : q ≤ d ∨ d + X.length + 1 ≤ a) :
    ∃ v, Decoded s S d (X ++ [y]) (a + (escapeByte s.params true y).length) false v ∧
      ∀ k w, RunsBelow .decodeByte q k v w → ∃ k', RunsBelow .decodeByte q k' u w := by
  have hsize := Params.lawful_dmemSize hp
  cases hesc : inEscSet s.params y with
  | false =>
    rw [escapeByte_plain hesc, List.length_singleton] at hbytes hq ⊢
    have hbyte : s.dmemByte a = y := (List.cons.inj hbytes).1
    have hexec := h.exec_eq (by omega) hroom (by omega)
    rw [hbyte, if_neg Bool.false_ne_true, if_neg (Params.lawful_key_ne hp hesc), hesc, if_neg Bool.false_ne_true] at hexec
    exact ⟨_, h.emit (by omega) (by omega) y, fun k w hrun => ⟨k + 1, hrun.cons hexec (by rw [h.src]; omega) rfl⟩⟩
  | true =>
    rw [escapeByte_protected hesc, List.length_cons, List.length_singleton] at hbytes hq ⊢
    obtain ⟨hkey, hrest⟩ := List.cons.inj hbytes
    have hsecond : s.dmemByte (a + 1) = ~~~y := (List.cons.inj hrest).1
    have hexec := h.exec_eq (by omega) hroom (by omega)
    rw [hkey, if_neg Bool.false_ne_true, if_pos rfl] at hexec
    have hescaped := h.key (by omega)
    have hexec' := hescaped.exec_eq (by omega) hroom (by omega)
    rw [hsecond, BitVec.not_not, if_pos rfl, if_pos hesc] at hexec'
    refine ⟨_, hescaped.emit (by omega) (by omega) y, fun k w hrun => ⟨k + 1 + 1, ?_⟩⟩
    exact (hrun.cons hexec' (by rw [hescaped.src]; omega) rfl).cons hexec (by rw [h.src]; omega) rfl

/-- The loop over an escaped string that stands at `[a, q)`, outside the destination. -/
theorem Decoded.loop (hp : s.params.lawful = true) (hin : q ≤ s.params.dmemSize) (Y : List Byte) :
    ∀ {X : List Byte} {a : Nat} {u : State}, Decoded s S d X a false u →
      bytesFrom s.dmemByte a (escapeAll s.params true Y).length = escapeAll s.params true Y →
      q = a + (escapeAll s.params true Y).length → d + X.length + Y.length ≤ s.params.dmemSize →
      (q ≤ d ∨ d + X.length + Y.length ≤ a) →
      ∃ k v, RunsBelow .decodeByte q k u v ∧ Decoded s S d (X ++ Y) q false v := by
  induction Y with
  | nil =>
    rintro X a u h - rfl - -
    rw [List.append_nil]
    exact ⟨0, u, .refl _ _ _, h⟩
  | cons y Y ih =>
    intro X a u h hbytes hq hroom hout
    rw [escapeAll_cons, List.length_append, bytesFrom_append] at hbytes
    rw [escapeAll_cons, List.length_append] at hq
    rw [List.length_cons] at hroom hout
    obtain ⟨hfirst, hrest⟩ := List.append_inj hbytes (bytesFrom_length ..)
    obtain ⟨v, hv, hcons⟩ := h.byte hp hfirst (q := q) (by omega) hin (by omega) (by omega)
    have hlen : (X ++ [y]).length = X.length + 1 := List.length_append
    obtain ⟨k, w, hrun, hw⟩ := ih hv hrest (by omega) (by omega) (by omega)
    obtain ⟨k', hrun'⟩ := hcons k w hrun
    rw [List.append_assoc, List.singleton_append] at hw
    exact ⟨k', w, hrun', hw⟩

end

/-- Settles O51: seeded as the spec says, the loop has decoded nothing yet; it runs over the escaped header and payload. -/
theorem decodeByteLoopDecodesFrame : Obligations.DecodeByteLoopDecodesFrame := by
  intro s f d S pid counter flags P ck hp p F footer q (hin : f + F.length ≤ s.params.dmemSize) hF
    (hroom : d + 3 + P.length ≤ s.params.dmemSize) hout h0 h1 h2 h3
  obtain ⟨_, hbody, _⟩ := bytesFrom_eq_cons_concat hF
  have hlen : F.length = 2 + (escapeAll p true (frameBody pid counter flags P ck)).length := frameBytes_length ..
  rw [frameBody, escapeAll_append, List.length_append] at hlen
  rw [escapeAll_append, List.length_append, bytesFrom_append] at hbody
  have hY := (List.append_inj hbody (bytesFrom_length ..)).1
  have hYlen : ([pid, counter, flags] ++ P).length = 3 + P.length := by
    rw [List.length_append]
    rfl
  have hq : q = f + 1 + (escapeAll p true ([pid, counter, flags] ++ P)).length := by
    have hfooter : footer.length = (escapeAll p true [byteOf ck 2, byteOf ck 1, byteOf ck 0]).length := rfl
    omega
  have hseeded : Decoded s S d [] (f + 1) false s := by
    refine ⟨rfl, rfl, h0, h1, ?_, h3.trans (show (1 : Word) = laneWord false 1 by decide), rfl⟩
    rw [h2, cksumFn_singleton]
    cases p.cksumOrder with
    | le => exact congrArg _ (BitVec.shiftLeft_zero _).symm
    | be => rfl
  obtain ⟨k, v, hrun, hv⟩ := hseeded.loop hp (q := q) (by omega) ([pid, counter, flags] ++ P) hY hq
    (by simp only [List.length_nil]; omega) (by simp only [List.length_nil]; omega)
  rw [List.nil_append] at hv
  have hread := hv.dmemRead_dst
  have hdst := hv.dst
  rw [hYlen] at hread hdst
  exact ⟨k, v, hrun.run, hv.src, by rw [hdst, Nat.add_assoc], hv.sum, hv.escpOf_eq, hread, hrun.within⟩

end Sys2Proof.Machine
end

section
/-!
PROOFS. A ublox frame fed byte by byte (42_parser.md R195, R202, R213, section 5): what the machine holds while the frame
is not complete, how one more byte carries it on, and the report of the last byte.
-/

namespace Sys2Proof.Machine

open Sys2Proof.Safety

/-! ## A well-formed ublox frame (R202) -/

section
variable (cls id : Byte) (P : List Byte)

/-- The bytes the checksum covers: class, id, length and payload. -/
def ubloxBody : List Byte :=
  [cls, id, (BitVec.ofNat 16 P.length).extractLsb' 0 8, (BitVec.ofNat 16 P.length).extractLsb' 8 8] ++ P

def ubloxFrame : List Byte :=
  [0xB5, 0x62] ++ ubloxBody cls id P ++ [(fletcher8 (ubloxBody cls id P)).1, (fletcher8 (ubloxBody cls id P)).2]

@[simp] theorem ubloxBody_length : (ubloxBody cls id P).length = 4 + P.length := by
  simp only [ubloxBody, List.length_append, List.length_cons, List.length_nil]

@[simp] theorem ubloxFrame_length : (ubloxFrame cls id P).length = 8 + P.length := by
  simp only [ubloxFrame, List.length_append, ubloxBody_length, List.length_cons, List.length_nil]
  omega

end

section
variable {cls id : Byte} {P : List Byte} {cap : Nat}

/-- The frame declares the length of its payload. -/
theorem ubloxLen_ubloxFrame (hP : P.length < 2 ^ 16) : ubloxLen (ubloxFrame cls id P) = P.length := by
  show ((BitVec.ofNat 16 P.length).extractLsb' 0 8).toNat + 256 * ((BitVec.ofNat 16 P.length).extractLsb' 8 8).toNat = _
  rw [BitVec.extractLsb'_toNat, BitVec.extractLsb'_toNat, BitVec.toNat_ofNat, Nat.shiftRight_eq_div_pow,
    Nat.shiftRight_eq_div_pow]
  omega

/-- A part of the frame that is longer than its header declares the same length. -/
theorem ubloxLen_take {F : List Byte} {m : Nat} (h6 : 6 ≤ m) : ubloxLen (F.take m) = ubloxLen F := by
  simp only [ubloxLen, List.getD_eq_getElem?_getD, List.getElem?_take_of_lt (show 4 < m by omega),
    List.getElem?_take_of_lt (show 5 < m by omega)]

/-- The frame is not judged before its last byte. -/
theorem frameUblox_take_ubloxFrame (hP : P.length < 2 ^ 16) (hcap : 8 + P.length ≤ cap) {m : Nat}
    (hm : m < 8 + P.length) : frameUblox cap ((ubloxFrame cls id P).take m) = .needMore := by
  have hlen : ((ubloxFrame cls id P).take m).length = m := by
    rw [List.length_take, ubloxFrame_length]
    omega
  by_cases h6 : m < 6
  · exact frameUblox_short (by rwa [hlen])
  · have hdeclared := (ubloxLen_take (F := ubloxFrame cls id P) (Nat.not_lt.1 h6)).trans (ubloxLen_ubloxFrame hP)
    rw [frameUblox_header (by omega), hdeclared, hlen, if_neg (by omega), if_pos hm]

/-- At its last byte the frame is accepted. -/
theorem frameUblox_ubloxFrame (hP : P.length < 2 ^ 16) (hcap : 8 + P.length ≤ cap) :
    frameUblox cap (ubloxFrame cls id P) = .good .ublox 6 P.length 0 none := by
  have hbody : ((ubloxFrame cls id P).drop 2).take (4 + P.length) = ubloxBody cls id P := by
    rw [← ubloxBody_length cls id P]
    exact List.take_left
  have hck (i : Nat) : (ubloxFrame cls id P).getD (i + (6 + P.length)) 0
      = [(fletcher8 (ubloxBody cls id P)).1, (fletcher8 (ubloxBody cls id P)).2].getD i 0 := by
    have hlen : ([0xB5, 0x62] ++ ubloxBody cls id P).length = 6 + P.length := by
      simp only [List.length_append, ubloxBody_length, List.length_cons, List.length_nil]
      omega
    rw [ubloxFrame, List.getD_append_right _ _ _ _ (by omega), hlen, Nat.add_sub_cancel]
  have h0 := hck 0
  have h1 := hck 1
  rw [Nat.zero_add] at h0
  rw [← Nat.add_assoc] at h1
  rw [frameUblox_header (by rw [ubloxFrame_length]; omega), ubloxLen_ubloxFrame hP, ubloxFrame_length, if_neg (by omega),
    if_neg (by omega), hbody, h0, h1]
  exact if_pos rfl

end

/-! ## One byte fed (R213) -/

/-- A byte stored is the last of the bytes up to `tail`. -/
theorem Channel.bytes_store_singleton (draw : Nat → Byte) (ch : Channel) (b : Byte) {i : Nat} (hi : i ≤ ch.tail.toNat) :
    (ch.store [b]).bytes draw i (ch.tail.toNat + 1) = ch.bytes draw i ch.tail.toNat ++ [b] := by
  have hlen : ch.tail.toNat + 1 - i = ch.tail.toNat - i + 1 := by omega
  have hend : i + (ch.tail.toNat - i) = ch.tail.toNat + 0 := by omega
  rw [Channel.bytes, hlen, bytesFrom_append, hend, bytesFrom_succ, bytesFrom_zero,
    Channel.byteAt_put_inside (B := [b]) (old := ch) rfl draw Nat.zero_lt_one]
  refine congrArg (· ++ [b]) (bytesFrom_congr fun j hj => ?_)
  exact Channel.byteAt_store_below draw ch [b] (by omega)

/-- PARSE_BYTE on a ready channel with room, by what PARSE_CORE answers. -/
theorem feed_cons_of_parseCore {s : State} {c : BitVec 4} {b : Byte} {ch : Channel} {tag : ResultTag}
    (hr : channelReady s c) (hroom : (s.chan c).tail ≠ (s.chan c).cap)
    (h : ((s.chan c).store [b]).parseCore (s.parseEnv c) = (ch, tag)) :
    ∃ t, t.chan c = ch ∧ t.parseEnv c = s.parseEnv c ∧ channelReady t c ∧
      ∀ bs, feed c (b :: bs) s = (feed c bs t).map fun r => (r.1, tag.word :: r.2) := by
  have hexec : exec (.parseByte c b) s
      = .next (((s.setChan c ch).setRes 0 tag.word).setStatus (.parseByte c b) .ok) := by
    rw [exec_parseByte, runParseByte_stored hr b hroom, h]
  have hkept := Channel.parseCore_kept (s.parseEnv c) ((s.chan c).store [b])
  rw [h] at hkept
  have hchan : (((s.setChan c ch).setRes 0 tag.word).setStatus (.parseByte c b) .ok).chan c = ch :=
    s.chan_setChan_self c ch
  refine ⟨((s.setChan c ch).setRes 0 tag.word).setStatus (.parseByte c b) .ok, hchan, rfl, ⟨hr.1, ?_⟩, fun bs => ?_⟩
  · rw [hchan]
    exact hkept.inited.trans hr.2
  · simp only [feed, hexec, State.result_setStatus, State.result_setRes_self]

/-- From `s`, whose channel had examined all its bytes, the bytes `G` were fed, and each returned NONE; in `t` they stand
at the end of the channel's bytes, all examined, in the parser state `q` with the candidate `k`. -/
structure FedTo (s : State) (c : BitVec 4) (G : List Byte) (q : PState) (k : Option Family) (t : State) : Prop where
  feeds : ∀ rest, feed c (G ++ rest) s = (feed c rest t).map fun r => (r.1, List.replicate G.length 0 ++ r.2)
  ready : channelReady t c
  env : t.parseEnv c = s.parseEnv c
  inv : ChannelInv s.params (s.rbDraws c) (t.chan c)
  cap : (t.chan c).cap = (s.chan c).cap
  pstate : (t.chan c).pstate = q
  cand : (t.chan c).cand = k
  head : (t.chan c).head = (s.chan c).tail
  scan : (t.chan c).scan = (t.chan c).tail
  tail : (t.chan c).tail.toNat = (s.chan c).tail.toNat + G.length
  bytes : (t.chan c).bytes (s.rbDraws c) (t.chan c).head.toNat (t.chan c).tail.toNat = G

section
variable {s t : State} {c : BitVec 4} {G : List Byte} {q q' : PState} {k k' : Option Family} {b : Byte}

/-- Before any byte. -/
theorem FedTo.refl (h : Inv s) (hr : channelReady s c) (hidle : (s.chan c).pstate = .idle)
    (hscan : (s.chan c).scan = (s.chan c).tail) : FedTo s c [] .idle none s := by
  obtain ⟨hhead, hcand⟩ := (h.channel c hr.2).idle hidle
  refine ⟨fun rest => ?_, hr, rfl, h.channel c hr.2, rfl, hidle, hcand, hhead.trans hscan, hscan, rfl, ?_⟩
  · simp
  · rw [hhead, hscan, Channel.bytes, Nat.sub_self, bytesFrom_zero]

theorem FedTo.room (h : FedTo s c G q k t) (hroom : (s.chan c).tail.toNat + G.length + 1 ≤ (s.chan c).cap.toNat) :
    (t.chan c).tail ≠ (t.chan c).cap := by
  intro hfull
  have htail := h.tail
  rw [hfull, h.cap] at htail
  omega

/-- The channel with one more byte stored, which is the one PARSE_CORE has to examine. -/
theorem FedTo.stored (h : FedTo s c G q k t) (hp : s.params.lawful = true)
    (hroom : (s.chan c).tail.toNat + G.length + 1 ≤ (s.chan c).cap.toNat) (b : Byte) :
    ChannelInv s.params (s.rbDraws c) ((t.chan c).store [b]) ∧
      ((t.chan c).store [b]).tail.toNat = (t.chan c).tail.toNat + 1 ∧
      ((t.chan c).store [b]).scan.toNat < ((t.chan c).store [b]).tail.toNat ∧
      ((t.chan c).store [b]).bytes (s.rbDraws c) (t.chan c).head.toNat ((t.chan c).tail.toNat + 1) = G ++ [b] := by
  have hfits : (t.chan c).tail.toNat + [b].length ≤ (t.chan c).cap.toNat := by
    rw [h.tail, h.cap]
    exact hroom
  have htail := Channel.store_tail hp h.inv hfits
  refine ⟨Channel.store_inv hp h.inv hfits, htail, ?_, ?_⟩
  · show (t.chan c).scan.toNat < _
    rw [htail, h.scan]
    exact Nat.lt_succ_self _
  · have hle : (t.chan c).head.toNat ≤ (t.chan c).tail.toNat := by
      rw [h.head, h.tail]
      omega
    rw [Channel.bytes_store_singleton _ _ _ hle, h.bytes]

/-- The candidate that ends in the byte just stored. -/
theorem FedTo.candidate (h : FedTo s c G q k t) (hp : s.params.lawful = true)
    (hroom : (s.chan c).tail.toNat + G.length + 1 ≤ (s.chan c).cap.toNat) (b : Byte) :
    ((t.chan c).store [b]).candidate (s.parseEnv c) = G ++ [b] := by
  have hscan : ((t.chan c).store [b]).scan = (t.chan c).tail := h.scan
  rw [Channel.candidate, hscan]
  exact (h.stored hp hroom b).2.2.2

theorem FedTo.stored_pstate (h : FedTo s c G q k t) (b : Byte) : ((t.chan c).store [b]).pstate = q := h.pstate

theorem FedTo.stored_cand (h : FedTo s c G q k t) (b : Byte) : ((t.chan c).store [b]).cand = k := h.cand

/-- The byte just stored is the one at `scan`. -/
theorem FedTo.byteAt_scan (h : FedTo s c G q k t) :
    ((t.chan c).store [b]).byteAt (s.parseEnv c).draw ((t.chan c).store [b]).scan.toNat = b := by
  have hscan : ((t.chan c).store [b]).scan = (t.chan c).tail := h.scan
  rw [hscan]
  exact Channel.byteAt_put_inside (old := t.chan c) (B := [b]) rfl _ Nat.zero_lt_one

/-- One more byte fed, whose only step goes on: it takes the byte, in the parser state `q'` with the candidate `k'`. -/
theorem FedTo.take (h : FedTo s c G q k t) (hp : s.params.lawful = true)
    (hroom : (s.chan c).tail.toNat + G.length + 1 ≤ (s.chan c).cap.toNat)
    (hstep : ((t.chan c).store [b]).step (s.parseEnv c)
      = ({ (t.chan c).store [b] with scan := (t.chan c).scan + 1, pstate := q', cand := k' }, .cont)) :
    ∃ u, FedTo s c (G ++ [b]) q' k' u := by
  obtain ⟨hinv, htail, hlt, hbytes⟩ := h.stored hp hroom b
  have hend : (t.chan c).scan + 1 = ((t.chan c).store [b]).tail := by
    rw [h.scan]
    rfl
  have hcore := (Channel.parseCore_step (env := s.parseEnv c) hp hinv hlt hstep).trans (Channel.parseCore_empty _ hend)
  have hinv' := Channel.parseCore_inv (env := s.parseEnv c) hp hinv
  rw [hcore] at hinv'
  rw [← h.env] at hcore
  obtain ⟨u, hchan, henv, hready, hfeed⟩ := feed_cons_of_parseCore h.ready (h.room hroom) hcore
  refine ⟨u, ?_⟩
  constructor
  case feeds =>
    intro rest
    rw [List.append_assoc, List.singleton_append, h.feeds, hfeed, Option.map_map, List.length_append, List.length_singleton]
    simp [Function.comp_def, List.replicate_succ', ResultTag.word, byteWord, ResultTag.code]
  case ready => exact hready
  case env => exact henv.trans h.env
  case inv => rw [hchan]; exact hinv'
  case cap => rw [hchan]; exact h.cap
  case pstate => rw [hchan]
  case cand => rw [hchan]
  case head => rw [hchan]; exact h.head
  case scan => rw [hchan]; exact hend
  case tail =>
    rw [hchan, List.length_append, List.length_singleton, ← Nat.add_assoc, ← h.tail]
    exact htail
  case bytes =>
    rw [hchan, ← hbytes]
    exact congrArg _ htail

end

/-! ## The bytes of the frame (R195, R196) -/

section
variable {s t : State} {c : BitVec 4} {G : List Byte} {b : Byte}

/-- In IDLE the first byte of the pattern begins a candidate. -/
theorem FedTo.sync1 (h : FedTo s c [] .idle none s) (hp : s.params.lawful = true)
    (hmask : (s.chan c).mask.getLsbD 2 = true) (hroom : (s.chan c).tail.toNat + 1 ≤ (s.chan c).cap.toNat) :
    ∃ t, FedTo s c [Config.ubxSync1] .haveStart (some .ublox) t := by
  have hmatch : matchStart ((s.chan c).store [Config.ubxSync1]).mask Config.ubxSync1 = some .ublox :=
    matchStart_eq_some_iff.2 ⟨hmask, rfl⟩
  have hhead : ((s.chan c).store [Config.ubxSync1]).head = ((s.chan c).store [Config.ubxSync1]).scan :=
    (h.inv.idle h.pstate).1
  refine h.take (b := Config.ubxSync1) hp hroom ?_
  rw [Channel.step_idle (h.stored_pstate _) (h.stored_cand _), h.byteAt_scan, Channel.examined, hmatch]
  have hnext : (s.chan c).scan + 1 = ((s.chan c).store [Config.ubxSync1]).head + 1 := by rw [hhead]; rfl
  simp only [← hhead, if_true, hnext]

/-- In HAVE_START the second byte of the pattern goes on to ACCUM. -/
theorem FedTo.sync2 (h : FedTo s c G .haveStart (some .ublox) t) (hp : s.params.lawful = true)
    (hroom : (s.chan c).tail.toNat + G.length + 1 ≤ (s.chan c).cap.toNat) :
    ∃ u, FedTo s c (G ++ [Config.ubxSync2]) .accum (some .ublox) u := by
  refine h.take hp hroom ?_
  rw [Channel.step_haveStart_match (h.stored_pstate _) h.byteAt_scan, ← h.cand]
  rfl

/-- In ACCUM the candidate takes the byte while its verdict is "need more". -/
theorem FedTo.needMore (h : FedTo s c G .accum (some .ublox) t) (hp : s.params.lawful = true)
    (hroom : (s.chan c).tail.toNat + G.length + 1 ≤ (s.chan c).cap.toNat)
    (hv : frameUblox (s.chan c).cap.toNat (G ++ [b]) = .needMore) :
    ∃ u, FedTo s c (G ++ [b]) .accum (some .ublox) u := by
  refine h.take hp hroom ?_
  rw [← h.cap, ← h.candidate hp hroom b] at hv
  rw [Channel.step_needMore (h.stored_pstate b) (h.stored_cand b) hv, ← h.pstate, ← h.cand]
  rfl

/-- The byte at which the verdict is good is the one that reports the frame. -/
theorem FedTo.good {dlen : Nat} (h : FedTo s c G .accum (some .ublox) t) (hp : s.params.lawful = true)
    (hroom : (s.chan c).tail.toNat + G.length + 1 ≤ (s.chan c).cap.toNat)
    (hv : frameUblox (s.chan c).cap.toNat (G ++ [b]) = .good .ublox 6 dlen 0 none) :
    ∃ u, feed c (G ++ [b]) s = some (u, List.replicate G.length 0 ++ [6]) ∧
      (u.chan c).pktStart = (s.chan c).tail ∧ (u.chan c).pktLen.toNat = G.length + 1 ∧
      (u.chan c).dataStart.toNat = (s.chan c).tail.toNat + 6 ∧ (u.chan c).dataLen.toNat = dlen := by
  obtain ⟨hinv, _, hlt, _⟩ := h.stored hp hroom b
  have hcand := h.candidate hp hroom b
  rw [← h.cap, ← hcand] at hv
  obtain ⟨hrep, htag⟩ := Channel.parseCore_inProgress (env := s.parseEnv c) hp hinv (h.stored_pstate b) (h.stored_cand b) le_rfl hlt
    (fun q hq1 hq2 => absurd hq1 (Nat.not_le.2 hq2)) hv
  have hlen : (((t.chan c).store [b]).candidate (s.parseEnv c)).length = G.length + 1 := by
    rw [hcand, List.length_append, List.length_singleton]
  have hhead : ((t.chan c).store [b]).head = (s.chan c).tail := h.head
  have hcore : ((t.chan c).store [b]).parseCore (t.parseEnv c)
      = ((((t.chan c).store [b]).parseCore (s.parseEnv c)).1, .ublox) := by
    rw [h.env, ← htag]
  obtain ⟨u, hchan, _, _, hfeed⟩ := feed_cons_of_parseCore h.ready (h.room hroom) hcore
  rw [← hchan] at hrep
  refine ⟨u, ?_, BitVec.eq_of_toNat_eq (hrep.pktStart.trans (by rw [hhead])), hrep.pktLen.trans hlen,
    hrep.dataStart.trans (by rw [hhead]), hrep.dataLen⟩
  rw [h.feeds, hfeed]
  rfl

/-- Every part of the frame but the whole of it is fed without a report. -/
theorem FedTo.ubloxPrefix {cls id : Byte} {P : List Byte} (h : FedTo s c [] .idle none s) (hp : s.params.lawful = true)
    (hmask : (s.chan c).mask.getLsbD 2 = true) (hP : P.length < 2 ^ 16)
    (hroom : (s.chan c).tail.toNat + 8 + P.length ≤ (s.chan c).cap.toNat) {m : Nat} (h2 : 2 ≤ m) (hm : m < 8 + P.length) :
    ∃ t, FedTo s c ((ubloxFrame cls id P).take m) .accum (some .ublox) t := by
  induction m, h2 using Nat.le_induction with
  | base =>
    obtain ⟨t, ht⟩ := h.sync1 hp hmask (by omega)
    exact ht.sync2 hp (by simp only [List.length_singleton]; omega)
  | succ m h2 ih =>
    obtain ⟨t, ht⟩ := ih (by omega)
    have hlt : m < (ubloxFrame cls id P).length := by rw [ubloxFrame_length]; omega
    have hlen : ((ubloxFrame cls id P).take m).length = m := List.length_take_of_le hlt.le
    have hnext := List.take_concat_get' (ubloxFrame cls id P) m hlt
    rw [← hnext]
    refine ht.needMore hp (by rw [hlen]; omega) ?_
    rw [hnext]
    exact frameUblox_take_ubloxFrame hP (by omega) hm

end

/-- Settles O45: the frame but for its last byte is fed without a report, and its last byte is accepted. -/
theorem ubloxScenario : Obligations.UbloxScenario := by
  intro s c cls id P hinv hr hidle hscan hmask hP hroom len body ck
  have hp := hinv.params_lawful
  obtain ⟨t, ht⟩ := (FedTo.refl hinv hr hidle hscan).ubloxPrefix (cls := cls) (id := id) (m := 7 + P.length) hp hmask hP
    hroom (by omega) (by omega)
  have hlt : 7 + P.length < (ubloxFrame cls id P).length := by rw [ubloxFrame_length]; omega
  have hlen : ((ubloxFrame cls id P).take (7 + P.length)).length = 7 + P.length := List.length_take_of_le hlt.le
  have hwhole : (ubloxFrame cls id P).take (7 + P.length) ++ [(ubloxFrame cls id P)[7 + P.length]] = ubloxFrame cls id P := by
    rw [List.take_concat_get' _ _ hlt, List.take_of_length_le (by rw [ubloxFrame_length]; omega)]
  obtain ⟨u, hfeed, hstart, hpkt, hdata, hdlen⟩ :=
    ht.good hp (by rw [hlen]; omega) (by rw [hwhole]; exact frameUblox_ubloxFrame hP (by omega))
  rw [hwhole, hlen] at hfeed
  rw [hlen] at hpkt
  refine ⟨u, hfeed, hstart, by omega, BitVec.eq_of_toNat_eq ?_, hdlen⟩
  have hcap := (s.chan c).cap.isLt
  rw [hdata, hstart, BitVec.toNat_add_of_lt]
  · rfl
  · show _ + 6 < _
    omega

end Sys2Proof.Machine
end
